-- ==== Sys2Proof/Word.lean ====
section
/-! DEFINITION. The word types of the block: a byte (00_scope.md R4) and the 32-bit value the register port carries
(10_state.md R11). -/

namespace Sys2Proof

/-- A byte, 8 bits (00_scope.md R4). -/
abbrev Byte := BitVec 8

/-- A 32-bit register-port value, address or length (00_scope.md R4, 10_state.md R11). -/
abbrev Word32 := BitVec 32

end Sys2Proof
end

