-- ==== Sys2Proof/Syntax.lean ====
section
/-! DEFINITION. The syntax of the block: its memories, its filter modes, its four encoding spaces, and one instruction
constructor per row of spec/opcode_table.json. -/

namespace Sys2Proof

/-- The three byte memories (10_state.md R28). -/
inductive MemId where
  | strm | dbuf | raw
deriving DecidableEq, Repr

/-- The filter modes of a row (10_state.md R25, 30_encoding.md R78). -/
inductive RowMode where
  | raw | vertical | average
deriving DecidableEq, Repr

/-- Where an encoding is read or written (30_encoding.md R70). An encoding in one space has no meaning in another.
`ctl` and `token` are the two positions of the token space: a stream control byte is due, or a token is, selected by
the dispatch bit fetched earlier. `rowOut` and `packOut` are the encoders' outputs. -/
inductive Space where
  | ctl
  | token (dispatch : Bool)
  | row
  | rowOut
  | packOut
  | command
deriving DecidableEq, Repr

/-- The instructions: one constructor per row of spec/opcode_table.json (30_encoding.md R87). A field `ign` holds the
bits the spec says are ignored, so that an instruction determines its encoding. -/
inductive Instr where
  /-- CTLB, a stream control byte of eight dispatch bits (R72, R102). -/
  | ctlb (bits : Byte)
  /-- LIT, a literal run: its payload bytes in output order (R73, R104). The run length is the payload's length. -/
  | lit (data : List Byte)
  /-- REF.S, the short back-reference (R74, R105). -/
  | refS (off : BitVec 12) (c : BitVec 3)
  /-- REF.L, the long back-reference (R77, R106). -/
  | refL (off : BitVec 12) (c : BitVec 3) (e : Byte)
  /-- ROW.RAW, row control byte with bit 0 set; bit 1 and bits 7:2 are not examined (R78, R79, R132). -/
  | rowRaw (ign : BitVec 6) (m1 : BitVec 1)
  /-- ROW.VERT, row control byte with bits 1:0 = 10 (R78, R133). -/
  | rowVert (ign : BitVec 6)
  /-- ROW.AVG, row control byte with bits 1:0 = 00 (R78, R134). -/
  | rowAvg (ign : BitVec 6)
  /-- FWD.RAW, the Raw forward filter, emits 0x01 (R157, R160). -/
  | fwdRaw
  /-- FWD.VERT, the Vertical forward filter, emits 0x02 (R158, R160). -/
  | fwdVert
  /-- PKBLK, one packer block, whose control byte is 0x00 (R80, R181). -/
  | pkblk
  /-- NOP, command code 0 (R193). -/
  | nop (ign : BitVec 24)
  /-- DECODE, command code 1 (R194). -/
  | decode (ign : BitVec 24)
  /-- RECON, command code 2 (R195). -/
  | recon (ign : BitVec 24)
  /-- FILTER, command code 3 (R196). -/
  | filter (ign : BitVec 24)
  /-- PACK, command code 4 (R198). -/
  | pack (ign : BitVec 24)
  /-- CLEAR, command code 5 (R199). -/
  | clear (ign : BitVec 24)
  /-- An illegal command word, code 0x06 to 0xFF (R200). -/
  | illegalCmd (code : Byte) (ign : BitVec 24)
deriving DecidableEq, Repr

/-- The encoding space of an instruction (30_encoding.md R70, R87). -/
def Instr.space : Instr → Space
  | .ctlb _ => .ctl
  | .lit _ => .token false
  | .refS _ _ => .token true
  | .refL _ _ _ => .token true
  | .rowRaw _ _ => .row
  | .rowVert _ => .row
  | .rowAvg _ => .row
  | .fwdRaw => .rowOut
  | .fwdVert => .rowOut
  | .pkblk => .packOut
  | .nop _ => .command
  | .decode _ => .command
  | .recon _ => .command
  | .filter _ => .command
  | .pack _ => .command
  | .clear _ => .command
  | .illegalCmd _ _ => .command

/-- The length in bytes of an instruction's encoding (30_encoding.md R82, R87); a command word is one 32-bit register
write. Of an emitted item (FWD.RAW, FWD.VERT, PKBLK) this is the control byte; the bytes after it depend on the state. -/
def Instr.byteLength : Instr → Nat
  | .ctlb _ => 1
  | .lit data => 1 + data.length
  | .refS _ _ => 2
  | .refL _ _ _ => 3
  | .rowRaw _ _ => 1
  | .rowVert _ => 1
  | .rowAvg _ => 1
  | .fwdRaw => 1
  | .fwdVert => 1
  | .pkblk => 1
  | .nop _ => 4
  | .decode _ => 4
  | .recon _ => 4
  | .filter _ => 4
  | .pack _ => 4
  | .clear _ => 4
  | .illegalCmd _ _ => 4

end Sys2Proof
end

