-- ==== Sys2Proof/WellFormed.lean ====
section
/-! DEFINITION. Which instruction terms an encoding exists for. Two checks: a literal run has at most 255 bytes
(30_encoding.md R73), and an illegal command's code is 0x06 to 0xFF (R81). Every other constructor's fields have exactly
the widths of the encoding, so every term is well formed. -/

namespace Sys2Proof

/-- The instruction has an encoding (30_encoding.md R73, R81). -/
def Instr.wf : Instr → Bool
  | .ctlb _ => true
  | .lit data => decide (data.length ≤ 255)
  | .refS _ _ => true
  | .refL _ _ _ => true
  | .rowRaw _ _ => true
  | .rowVert _ => true
  | .rowAvg _ => true
  | .fwdRaw => true
  | .fwdVert => true
  | .pkblk => true
  | .nop _ => true
  | .decode _ => true
  | .recon _ => true
  | .filter _ => true
  | .pack _ => true
  | .clear _ => true
  | .illegalCmd code _ => decide (6 ≤ code.toNat)

end Sys2Proof
end

