-- ==== Sys2Proof/Decode.lean ====
section
/-! DEFINITION. Decoding, total on any bytes, and the encoder. Each of the spec's encoding spaces (30_encoding.md R70)
has its own decoder; `decode` selects by space, and `decodeTableWord` selects the space for one word of the opcode
table. -/

namespace Sys2Proof

/-- Why bytes are not an instruction of a space. -/
inductive DecodeError where
  /-- The bytes end before the item does (30_encoding.md R82). In the token space the step raises TruncatedStream. -/
  | truncated
  /-- A byte that no encoder of the block emits (30_encoding.md R79, R80). No unit decodes an emitted byte in this
  space, so no step meets it. -/
  | neverEmitted (b : Byte)
deriving DecidableEq, Repr

/-- The 16-bit value of a back-reference from its two stream bytes, little-endian (20_memory.md R41, 30_encoding.md R75). -/
def refValue (b0 b1 : Byte) : BitVec 16 := b1 ++ b0

/-- The 16-bit value with fields off, s and c: `oooooooooooosccc` (30_encoding.md R75). -/
def refWord (off : BitVec 12) (s : BitVec 1) (c : BitVec 3) : BitVec 16 := off ++ s ++ c

/-- Field off, bits 15:4 (30_encoding.md R75). -/
def refOff (v : BitVec 16) : BitVec 12 := v.extractLsb' 4 12

/-- Flag s, bit 3: set selects the short form (30_encoding.md R75). -/
def refShort (v : BitVec 16) : Bool := v.getLsbD 3

/-- Field c, bits 2:0 (30_encoding.md R75). -/
def refC (v : BitVec 16) : BitVec 3 := v.extractLsb' 0 3

/-- A stream control byte (30_encoding.md R72): every value is legal. -/
def decodeCtl : List Byte → Except DecodeError (Instr × List Byte)
  | [] => .error .truncated
  | b :: rest => .ok (.ctlb b, rest)

/-- A literal-run token (30_encoding.md R73). -/
def decodeLit : List Byte → Except DecodeError (Instr × List Byte)
  | [] => .error .truncated
  | n :: rest =>
    if rest.length < n.toNat then .error .truncated
    else .ok (.lit (rest.take n.toNat), rest.drop n.toNat)

/-- A back-reference token: the form and with it the length is chosen by bit 3 of `v` (30_encoding.md R74, R75, R77). -/
def decodeRef : List Byte → Except DecodeError (Instr × List Byte)
  | b0 :: b1 :: rest =>
    let v := refValue b0 b1
    if refShort v then .ok (.refS (refOff v) (refC v), rest)
    else
      match rest with
      | e :: rest' => .ok (.refL (refOff v) (refC v) e, rest')
      | [] => .error .truncated
  | _ => .error .truncated

/-- A row control byte (30_encoding.md R78): bit 0 has priority, and every byte is legal. -/
def rowInstr (b : Byte) : Instr :=
  if b.getLsbD 0 then .rowRaw (b.extractLsb' 2 6) (b.extractLsb' 1 1)
  else if b.getLsbD 1 then .rowVert (b.extractLsb' 2 6)
  else .rowAvg (b.extractLsb' 2 6)

/-- The row space (30_encoding.md R78). -/
def decodeRow : List Byte → Except DecodeError (Instr × List Byte)
  | [] => .error .truncated
  | b :: rest => .ok (rowInstr b, rest)

/-- The row control bytes FSF emits: 0x01 and 0x02, no other (30_encoding.md R79, 42_filter_selector.md R160). -/
def decodeRowOut : List Byte → Except DecodeError (Instr × List Byte)
  | [] => .error .truncated
  | b :: rest =>
    if b = 0x01#8 then .ok (.fwdRaw, rest)
    else if b = 0x02#8 then .ok (.fwdVert, rest)
    else .error (.neverEmitted b)

/-- The control byte of a packer block: 0x00 (30_encoding.md R80). -/
def decodePackOut : List Byte → Except DecodeError (Instr × List Byte)
  | [] => .error .truncated
  | b :: rest => if b = 0x00#8 then .ok (.pkblk, rest) else .error (.neverEmitted b)

/-- A command word: bits 7:0 are the code, bits 31:8 are ignored (30_encoding.md R81). -/
def commandInstr (w : Word32) : Instr :=
  let code : Byte := w.extractLsb' 0 8
  let ign : BitVec 24 := w.extractLsb' 8 24
  if code = 0#8 then .nop ign
  else if code = 1#8 then .decode ign
  else if code = 2#8 then .recon ign
  else if code = 3#8 then .filter ign
  else if code = 4#8 then .pack ign
  else if code = 5#8 then .clear ign
  else .illegalCmd code ign

/-- The command space, the 32-bit value laid out as four bytes, least significant first. DESIGN CHOICE, safe, log 16:
the block receives the value whole through the register port. -/
def decodeCommand : List Byte → Except DecodeError (Instr × List Byte)
  | b0 :: b1 :: b2 :: b3 :: rest => .ok (commandInstr (b3 ++ b2 ++ b1 ++ b0), rest)
  | _ => .error .truncated

/-- The instruction the first bytes encode in a space, with the bytes after it (30_encoding.md R70). -/
def decode (sp : Space) (bytes : List Byte) : Except DecodeError (Instr × List Byte) :=
  match sp with
  | .ctl => decodeCtl bytes
  | .token false => decodeLit bytes
  | .token true => decodeRef bytes
  | .row => decodeRow bytes
  | .rowOut => decodeRowOut bytes
  | .packOut => decodePackOut bytes
  | .command => decodeCommand bytes

/-- The four bytes of a 32-bit value, least significant first. -/
def wordBytes (w : Word32) : List Byte :=
  [w.extractLsb' 0 8, w.extractLsb' 8 8, w.extractLsb' 16 8, w.extractLsb' 24 8]

/-- The command word with a code and ignored bits (30_encoding.md R81). -/
def commandWord (code : Byte) (ign : BitVec 24) : Word32 := ign ++ code

/-- The row control byte with its three fields (30_encoding.md R78). -/
def rowByte (ign : BitVec 6) (m1 m0 : BitVec 1) : Byte := ign ++ m1 ++ m0

/-- The two bytes of a 16-bit value, least significant first. -/
def refBytes (v : BitVec 16) : List Byte := [v.extractLsb' 0 8, v.extractLsb' 8 8]

/-- The bytes of an instruction (30_encoding.md R72 to R81). Of an emitted item, its control byte. -/
def encode : Instr → List Byte
  | .ctlb bits => [bits]
  | .lit data => BitVec.ofNat 8 data.length :: data
  | .refS off c => refBytes (refWord off 1#1 c)
  | .refL off c e => refBytes (refWord off 0#1 c) ++ [e]
  | .rowRaw ign m1 => [rowByte ign m1 1#1]
  | .rowVert ign => [rowByte ign 1#1 0#1]
  | .rowAvg ign => [rowByte ign 0#1 0#1]
  | .fwdRaw => [0x01#8]
  | .fwdVert => [0x02#8]
  | .pkblk => [0x00#8]
  | .nop ign => wordBytes (commandWord 0#8 ign)
  | .decode ign => wordBytes (commandWord 1#8 ign)
  | .recon ign => wordBytes (commandWord 2#8 ign)
  | .filter ign => wordBytes (commandWord 3#8 ign)
  | .pack ign => wordBytes (commandWord 4#8 ign)
  | .clear ign => wordBytes (commandWord 5#8 ign)
  | .illegalCmd code ign => wordBytes (commandWord code ign)

/-- The first `n` bytes of a number, least significant first. -/
def natBytes : Nat → Nat → List Byte
  | 0, _ => []
  | n + 1, w => BitVec.ofNat 8 w :: natBytes n (w / 256)

/-- The space in which one word of the opcode table is read (30_encoding.md R70 gives four spaces and no way to tell
them apart by bits). DESIGN CHOICE, safe, log 14: by width; among the 8-bit rows the row whose pattern fixes every bit
wins (0x00 PKBLK, 0x01 FWD.RAW, 0x02 FWD.VERT), and every other byte is a row control byte. A byte that is a stream
control byte or a literal's length is told from these only by its position, so no 8-bit word reads as CTLB or LIT. -/
def tableSpace (nbits w : Nat) : Option Space :=
  if nbits = 8 then
    if w % 256 = 0 then some .packOut
    else if w % 256 = 1 ∨ w % 256 = 2 then some .rowOut
    else some .row
  else if nbits = 16 ∨ nbits = 24 then some (.token true)
  else if nbits = 32 then some .command
  else none

/-- The instruction the decoder reads from one word of the opcode table, zeros above its bits (log 14). -/
def decodeTableWord (nbits w : Nat) : Option Instr :=
  match tableSpace nbits w with
  | none => none
  | some sp =>
    match decode sp (natBytes (nbits / 8) w ++ [0#8, 0#8]) with
    | .ok (i, _) => some i
    | .error _ => none

end Sys2Proof
end

