-- ==== Sys2Proof/Config.lean ====
section
/-! DEFINITION. The values the spec leaves free. Each is an uninterpreted constant with no body: nothing can evaluate it,
so a claim that holds of the model holds whatever the value is. The configuration of 10_state.md R30 (the
capacities, MAG and AVG) is plain data in State (log 1, log 2, log 3). -/

namespace Sys2Proof

/-- `draw()` of a unit step (00_scope.md R6): the byte drawn at index `n`. DESIGN CHOICE, safe, log 4. -/
opaque Config.draw (n : Nat) : Byte

/-- What a host register read returns while a unit is active (44_host_commands.md R192), at index `n`.
DESIGN CHOICE, safe, log 4. -/
opaque Config.portWord (n : Nat) : Word32

/-- What a host buffer read returns while a unit is active (20_memory.md R49, 44_host_commands.md R192), at index `n`.
DESIGN CHOICE, safe, log 4. -/
opaque Config.portByte (n : Nat) : Byte

/-- The byte of memory `x` at address `a` that nothing has written since reset number `epoch`
(20_memory.md R43, 70_reset_and_hazards.md R240): any value, the same on every read. DESIGN CHOICE, safe, log 5. -/
opaque Config.unwritten (epoch : Nat) (x : MemId) (a : Nat) : Byte

/-- What working register number `field` holds at the step boundary with index `n` (10_state.md R24 to R26,
93_implementation_defined.md U12). DESIGN CHOICE, safe, log 7. -/
opaque Config.residue (field n : Nat) : Nat

end Sys2Proof
end

