-- ==== Sys2Proof/Machine/State.lean ====
section
/-! DEFINITION. The state of the block as plain data: every register, field, working register, accumulator and memory of
spec/10_state.md, the instance's configuration (the capacities, MAG and AVG), and five fields of the model's own. -/

namespace Sys2Proof.Machine

/-- STATUS.STATE (10_state.md R13). -/
inductive RunState where
  | idle | busy | done | fault
deriving DecidableEq, Repr

/-- STATUS.UNIT (10_state.md R13): values 5 to 7 never occur. -/
inductive UnitId where
  | none | tsd | rfr | fsf | tsp
deriving DecidableEq, Repr

/-- The faults of the block (60_exceptions.md R211). Raising one is a NEXT state (R215). -/
inductive FaultCode where
  | truncatedStream | badReference | outputOverrun | badGeometry | sizeInvariant | capacity | badCommand
deriving DecidableEq, Repr

/-- One slot of the interleaving of host transactions and unit steps (44_host_commands.md R190, R197). Log 8. -/
inductive Event where
  /-- The active unit takes its next step. -/
  | unitStep
  /-- `RegRead(n)` (44_host_commands.md R202). -/
  | regRead (n : Nat)
  /-- `RegWrite(n, v)` (44_host_commands.md R202). -/
  | regWrite (n : Nat) (v : Word32)
  /-- `HostBufRead(x, a)` (20_memory.md R49). -/
  | bufRead (x : MemId) (a : Word32)
  /-- `HostBufWrite(x, a, b)` (20_memory.md R49). -/
  | bufWrite (x : MemId) (a : Word32) (b : Byte)
  /-- `Reset()` (70_reset_and_hazards.md R240). -/
  | reset
deriving DecidableEq, Repr

/-- The bytes of one memory that have been written since the last reset, by address, addresses strictly rising. An
unlisted address holds no written byte. -/
abbrev Memory := List Host.Cell

/-- Why the MODEL stops. The block's own faults are not here: they are next states (60_exceptions.md R215). -/
inductive Fault where
  /-- Raised by a unit operation that would access memory `x` outside its capacity, where the spec says there is
  nothing (20_memory.md R40). Safe: by R59 no step of a started command does this. Log 12. -/
  | noSuchAddress (x : MemId)
  /-- Raised by FWD.VERT in row 0, which has no row above and which the spec says is never performed there
  (42_filter_selector.md R156, R158). Safe: no step of FSF does this. Log 13. -/
  | noRowAbove
deriving DecidableEq, Repr

/-- Why an instruction has no meaning. -/
inductive Refusal where
  /-- Raised by an arm of exec whose instruction is not modelled yet; no arm is. Safe. -/
  | notModelled (mnemonic : String)
deriving DecidableEq, Repr

/-- The state of the block. -/
structure State where
  /-- STATUS.STATE, bits 1:0 of register 1 (R13). -/
  st : RunState
  /-- STATUS.UNIT, bits 4:2 of register 1 (R13). -/
  unit : UnitId
  /-- STATUS.UNDEF, bit 5 of register 1 (R13). -/
  undef : Bool
  /-- FCODE, register 2 (R14). -/
  fcode : BitVec 8
  /-- FINFO, register 3 (R15). -/
  finfo : BitVec 32
  /-- IEN, register 4 (R16). -/
  ien : BitVec 1
  /-- SLEN, register 5 (R17). -/
  slen : BitVec 32
  /-- DLEN, register 6 (R18). -/
  dlen : BitVec 32
  /-- WIDTH, register 7 (R19). -/
  width : BitVec 16
  /-- HEIGHT, register 8 (R19). -/
  height : BitVec 16
  /-- PIXSZ, register 9 (R19). -/
  pixsz : BitVec 16
  /-- SPOS, register 10 (R20). -/
  spos : BitVec 32
  /-- DPOS, register 11 (R21). -/
  dpos : BitVec 32
  /-- CTL, register 12 (R22). -/
  ctl : BitVec 9
  /-- ROW, register 13 (R23). -/
  row : BitVec 17
  /-- V, working register of TSD (R24). -/
  v : BitVec 16
  /-- COUNT, working register of TSD (R24). -/
  count : BitVec 12
  /-- OFFSET, working register of TSD (R24). -/
  offset : BitVec 12
  /-- N, working register of TSD (R24). -/
  n : BitVec 8
  /-- I, working register of TSD (R24). -/
  i : BitVec 12
  /-- MODE, working register of RFR and FSF (R25). -/
  mode : RowMode
  /-- C, working register of RFR and FSF (R25). -/
  c : BitVec 8
  /-- K, working register of RFR and FSF (R25). -/
  k : BitVec 32
  /-- SRAW, score accumulator of FSF, an exact natural number (R26). -/
  sraw : Nat
  /-- SVERT, score accumulator of FSF (R26). -/
  svert : Nat
  /-- SAVG, score accumulator of FSF (R26). -/
  savg : Nat
  /-- STRM, the token stream (R28). -/
  strm : Memory
  /-- DBUF, the decompressed buffer (R28). -/
  dbuf : Memory
  /-- RAW, the raw pixel buffer (R28). -/
  raw : Memory
  /-- STRM_CAP, configuration that no step changes (R4, R30). Log 1. -/
  strmCap : BitVec 32
  /-- DBUF_CAP, configuration that no step changes (R4, R30). Log 1. -/
  dbufCap : BitVec 32
  /-- RAW_CAP, configuration that no step changes (R4, R30). Log 1. -/
  rawCap : BitVec 32
  /-- MAG, configuration that no step changes (R4, R30): its values where they are not the decided default. Log 2. -/
  magTab : List (Byte × Nat)
  /-- AVG, configuration that no step changes (R4, R30): its values where they are not the decided default. Log 3. -/
  avgTab : List ((Byte × Byte) × Byte)
  /-- The model's own: the next index of `draw()` and of the working registers' free values. Log 4. -/
  draws : Nat
  /-- The model's own: the next index of the values host reads return while BUSY. Log 4. -/
  portDraws : Nat
  /-- The model's own: how many `Reset()` transactions have happened. Log 6. -/
  epoch : Nat
  /-- The model's own: the host transactions and unit-step slots still to come, oldest first. Log 8. -/
  events : List Event
  /-- The model's own: what the last RegRead or HostBufRead returned. Log 9. -/
  rdata : BitVec 32
deriving DecidableEq, Repr

/-- What a step or an instruction answers. -/
abbrev Result := Host.Outcome State Fault Refusal

/-- The block right after reset (10_state.md R32, 70_reset_and_hazards.md R240). The registers are as the spec states;
MAG and AVG have the defaults the spec decides (42_filter_selector.md R151, 41_row_reconstruct.md R135); the working
registers, the accumulators, the capacities and the model's own fields are DESIGN CHOICE (log 1, 4, 6, 7, 8, 9). -/
def State.reset : State where
  st := .idle
  unit := .none
  undef := false
  fcode := 0
  finfo := 0
  ien := 0
  slen := 0
  dlen := 0
  width := 0
  height := 0
  pixsz := 0
  spos := 0
  dpos := 0
  ctl := 2
  row := 0
  v := 0
  count := 0
  offset := 0
  n := 0
  i := 0
  mode := .raw
  c := 0
  k := 0
  sraw := 0
  svert := 0
  savg := 0
  strm := []
  dbuf := []
  raw := []
  strmCap := 0xFFFFFFFF#32
  dbufCap := 0xFFFFFFFF#32
  rawCap := 0xFFFFFFFF#32
  magTab := []
  avgTab := []
  draws := 0
  portDraws := 0
  epoch := 0
  events := []
  rdata := 0

end Sys2Proof.Machine
end

