-- ==== Sys2Proof/Machine/Ops.lean ====
section
/-! DEFINITION. The named operations over memories, registers and STATUS: reading and writing one byte, the ascending
byte loop, fault entry and its return, the start and end of a command, and what a step boundary leaves open. -/

namespace Sys2Proof.Machine

/-- The canonical form of a memory: addresses strictly rising. An unlisted address holds no written byte at all
(log 5), so no entry can equal what it reads as. -/
abbrev Memory.wf (m : Memory) : Prop := List.Pairwise (fun p q => p.1 < q.1) m

/-- The byte written at address `a`, if one has been. -/
def Memory.lookup : Memory → Nat → Option Byte
  | [], _ => none
  | (b, v) :: rest, a => if b = a then some v else Memory.lookup rest a

/-- `x[a] <- v` (00_scope.md R6), keeping the canonical form. -/
def Memory.store : Memory → Nat → Byte → Memory
  | [], a, v => [(a, v)]
  | (b, w) :: rest, a, v =>
    if a < b then (a, v) :: (b, w) :: rest
    else if a = b then (a, v) :: rest
    else (b, w) :: Memory.store rest a v

/-- A memory's content, selected by name (10_state.md R28). -/
def State.mem (s : State) : MemId → Memory
  | .strm => s.strm
  | .dbuf => s.dbuf
  | .raw => s.raw

/-- Replaces one memory's content. -/
def State.setMem (s : State) (x : MemId) (m : Memory) : State :=
  match x with
  | .strm => { s with strm := m }
  | .dbuf => { s with dbuf := m }
  | .raw => { s with raw := m }

/-- How many bytes a memory has (10_state.md R28): it has addresses `0 .. cap - 1` (20_memory.md R40). -/
def State.cap (s : State) : MemId → Nat
  | .strm => s.strmCap.toNat
  | .dbuf => s.dbufCap.toNat
  | .raw => s.rawCap.toNat

/-- What address `a` of memory `x` reads as when its content is `m` (20_memory.md R43): the byte last written there, or,
if nothing has written it since reset, a free value that is the same on every read (log 5). -/
def readIn (epoch : Nat) (x : MemId) (m : Memory) (a : Nat) : Byte :=
  (Memory.lookup m a).getD (Config.unwritten epoch x a)

/-- `x[a]` (00_scope.md R6). -/
def State.readByte (s : State) (x : MemId) (a : Nat) : Byte := readIn s.epoch x (s.mem x) a

/-- `x[a] <- b` (00_scope.md R6). -/
def State.writeByte (s : State) (x : MemId) (a : Nat) (b : Byte) : State := s.setMem x (Memory.store (s.mem x) a b)

/-- `x[a], x[a+1], .. x[a+n-1]` in ascending order. -/
def State.readBytes (s : State) (x : MemId) : Nat → Nat → List Byte
  | _, 0 => []
  | a, n + 1 => s.readByte x a :: s.readBytes x (a + 1) n

/-- `for K in k .. k+n-1: x[base + K] <- g K` on the content of one memory, strictly one byte at a time and ascending
(00_scope.md R6): `g` sees the content as the earlier iterations left it (40_token_decompressor.md R107,
41_row_reconstruct.md R139). -/
def fillUp (g : Memory → Nat → Byte) (base : Nat) : Nat → Nat → Memory → Memory
  | 0, _, m => m
  | n + 1, k, m => fillUp g base n (k + 1) (Memory.store m (base + k) (g m k))

/-- The code of a fault (60_exceptions.md R211). -/
def FaultCode.code : FaultCode → BitVec 8
  | .truncatedStream => 1
  | .badReference => 2
  | .outputOverrun => 3
  | .badGeometry => 4
  | .sizeInvariant => 5
  | .capacity => 6
  | .badCommand => 7

/-- Fault entry, `raise F(info)` (60_exceptions.md R215): FCODE, FINFO, STATE and UNIT are written and nothing else. -/
def raise (f : FaultCode) (info : BitVec 32) (u : UnitId) (s : State) : State :=
  { s with fcode := f.code, finfo := info, st := .fault, unit := u }

/-- The return from a fault or from the end of a command (44_host_commands.md R199, 60_exceptions.md R217). -/
def acknowledge (s : State) : State :=
  { s with st := .idle, unit := .none, undef := false, fcode := 0, finfo := 0 }

/-- A unit becomes active: the STATUS writes shared by R100, R130, R150 and R180. -/
def activate (u : UnitId) (s : State) : State :=
  { s with st := .busy, unit := u, undef := false }

/-- A command's run ends in DONE; UNIT stays (40_token_decompressor.md R109, 41_row_reconstruct.md R138). -/
def complete (s : State) : State := { s with st := .done }

/-- A command is accepted only in IDLE; in any other state it is dropped (44_host_commands.md R191). -/
def whenIdle (s : State) (accepted : State) : Result :=
  if s.st = .idle then .next accepted else .next s

/-- The index a loop register holds after `for I in 0 .. n-1`: the last one taken, or what it held if none was.
DEDUCED, log 18. -/
def lastIndex {w : Nat} (old : BitVec w) (n : Nat) : BitVec w :=
  if n = 0 then old else BitVec.ofNat w (n - 1)

/-- One of the three modes, from a free number. -/
def RowMode.ofNat (n : Nat) : RowMode :=
  if n % 3 = 0 then .raw else if n % 3 = 1 then .vertical else .average

/-- The working registers and accumulators have no defined value at a step boundary (10_state.md R24, R25, R26;
93_implementation_defined.md U12): each becomes a free value. Log 7. -/
def releaseWorking (s : State) : State :=
  { s with
    v := BitVec.ofNat 16 (Config.residue 0 s.draws)
    count := BitVec.ofNat 12 (Config.residue 1 s.draws)
    offset := BitVec.ofNat 12 (Config.residue 2 s.draws)
    n := BitVec.ofNat 8 (Config.residue 3 s.draws)
    i := BitVec.ofNat 12 (Config.residue 4 s.draws)
    mode := RowMode.ofNat (Config.residue 5 s.draws)
    c := BitVec.ofNat 8 (Config.residue 6 s.draws)
    k := BitVec.ofNat 32 (Config.residue 7 s.draws)
    sraw := Config.residue 8 s.draws
    svert := Config.residue 9 s.draws
    savg := Config.residue 10 s.draws
    draws := s.draws + 1 }

/-- A function on the next state; a stop passes through. -/
def mapNext (f : State → State) : Result → Result
  | .next s => .next (f s)
  | .fault r => .fault r
  | .refused r => .refused r

end Sys2Proof.Machine
end

