-- ==== Sys2Proof/Machine/Operands.lean ====
section
/-! DEFINITION. Every operand form: the assembly of back-reference operands, the addressing of rows, columns and regions,
the averaging and magnitude functions, residuals, and the sizes the commands compute. All arithmetic on addresses and
lengths is exact (00_scope.md R5, 40_token_decompressor.md R115, 20_memory.md R59). -/

namespace Sys2Proof.Machine

/-- The count of a short back-reference, 4 to 11 (30_encoding.md R76). -/
def countShort (c : BitVec 3) : Nat := c.toNat + 4

/-- The count of a long back-reference, 4 to 2051: the bias 4 is added after the 11-bit value is assembled
(30_encoding.md R76, 40_token_decompressor.md R106). -/
def countLong (c : BitVec 3) (e : Byte) : Nat := c.toNat * 256 + e.toNat + 4

/-- `stride = WIDTH * PIXSZ` (10_state.md R19). -/
def State.stride (s : State) : Nat := s.width.toNat * s.pixsz.toNat

/-- `HEIGHT * stride`, the size of the raw pixel buffer (20_memory.md R50). -/
def State.imageBytes (s : State) : Nat := s.height.toNat * s.stride

/-- `E = 8 + HEIGHT + HEIGHT * WIDTH * PIXSZ`, exact (20_memory.md R48, 41_row_reconstruct.md R130). -/
def State.expectedLen (s : State) : Nat := 8 + s.height.toNat + s.imageBytes

/-- The address in DBUF of row `r`'s control byte (20_memory.md R46). -/
def ctlAddr (r : Nat) : Nat := 8 + r

/-- `PIX(r, k)`, the address in DBUF of filtered byte `k` of row `r` (20_memory.md R46). -/
def State.pixAddr (s : State) (r k : Nat) : Nat := 8 + s.height.toNat + r * s.stride + k

/-- `RAWA(r, k)`, the address in RAW of byte `k` of row `r` (20_memory.md R50). -/
def State.rawAddr (s : State) (r k : Nat) : Nat := r * s.stride + k

/-- How many bytes the two loops of a row run over: `stride`, since `PIXSZ ≤ stride` when WIDTH is legal
(10_state.md R19). -/
def State.rowSpan (s : State) : Nat := max s.stride s.pixsz.toNat

/-- `F(r, k)`, filtered byte `k` of row `r` (41_row_reconstruct.md). -/
def State.filteredByte (s : State) (r k : Nat) : Byte := s.readByte .dbuf (s.pixAddr r k)

/-- `P(r, k)`, raw input byte `k` of row `r` (42_filter_selector.md). -/
def State.rawByte (s : State) (r k : Nat) : Byte := s.readByte .raw (s.rawAddr r k)

/-- `O(r, k)`, output byte `k` of row `r` when RAW's content is `m` (41_row_reconstruct.md). -/
def State.outByte (s : State) (m : Memory) (r k : Nat) : Byte := readIn s.epoch .raw m (s.rawAddr r k)

/-- `UP(r, k)`, the output byte above byte `k` of row `r`; in row 0 there is none and it is a fresh draw
(41_row_reconstruct.md R137). Log 4. -/
def State.upByte (s : State) (m : Memory) (r k : Nat) : Byte :=
  if r = 0 then Config.draw (s.draws + k) else s.outByte m (r - 1) k

/-- The value a table gives for a key: that of the key's first entry, or the default where the key has none. -/
def tableValue {α β : Type} [DecidableEq α] (fallback : β) : List (α × β) → α → β
  | [], _ => fallback
  | (k, v) :: rest, x => if k = x then v else tableValue fallback rest x

/-- The default the spec decides for AVG: the exact sum halved, rounding down (41_row_reconstruct.md R135). -/
def avgDefault (a b : Byte) : Byte := BitVec.ofNat 8 ((a.toNat + b.toNat) / 2)

/-- AVG, the averaging function of this instance (10_state.md R30, 41_row_reconstruct.md R135; 93_implementation_defined.md
U2): any function of two bytes, by its table of departures from the default. Log 3. -/
def State.avg (s : State) (a b : Byte) : Byte := tableValue (avgDefault a b) s.avgTab (a, b)

/-- The default the spec decides for MAG: the residual byte as an unsigned number (42_filter_selector.md R151). -/
def magDefault (x : Byte) : Nat := x.toNat

/-- MAG, the magnitude function of this instance (10_state.md R30, 42_filter_selector.md R151; 93_implementation_defined.md
U4): any function of a byte with `MAG(0) = 0`, by its table of departures from the default. Log 2. -/
def State.mag (s : State) (x : Byte) : Nat := if x = 0 then 0 else tableValue (magDefault x) s.magTab x

/-- `resRaw(r, k)` (42_filter_selector.md R151); subtraction of bytes wraps mod 256 (41_row_reconstruct.md R136). -/
def State.resRaw (s : State) (r k : Nat) : Byte := s.rawByte r (k - s.pixsz.toNat) - s.rawByte r k

/-- `resVert(r, k)` for `r ≥ 1` (42_filter_selector.md R151). -/
def State.resVert (s : State) (r k : Nat) : Byte := s.rawByte (r - 1) k - s.rawByte r k

/-- `resAvg(r, k)` for `r ≥ 1` (42_filter_selector.md R151). -/
def State.resAvg (s : State) (r k : Nat) : Byte :=
  s.avg (s.rawByte (r - 1) k) (s.rawByte r (k - s.pixsz.toNat)) - s.rawByte r k

/-- FWD.AVG's byte at index `k`: defined for completeness and never performed (42_filter_selector.md R159). No definition
of the machine calls it. Log 17. -/
def State.fwdAvgByte (s : State) (r k : Nat) : Byte :=
  if k < s.pixsz.toNat then s.rawByte r k else s.resAvg r k

/-- `Σ f(k)` for `k` from `k` to `k + n - 1`. -/
def sumUp (f : Nat → Nat) : Nat → Nat → Nat
  | 0, _ => 0
  | n + 1, k => f k + sumUp f n (k + 1)

/-- SCORE.RAW (42_filter_selector.md R152): the first pixel is skipped. -/
def State.scoreRaw (s : State) (r : Nat) : Nat :=
  sumUp (fun k => s.mag (s.resRaw r k)) (s.stride - s.pixsz.toNat) s.pixsz.toNat

/-- SCORE.VERT (42_filter_selector.md R153): all positions. -/
def State.scoreVert (s : State) (r : Nat) : Nat :=
  sumUp (fun k => s.mag (s.resVert r k)) s.stride 0

/-- SCORE.AVG (42_filter_selector.md R154): the first pixel is skipped. -/
def State.scoreAvg (s : State) (r : Nat) : Nat :=
  sumUp (fun k => s.mag (s.resAvg r k)) (s.stride - s.pixsz.toNat) s.pixsz.toNat

/-- The number of literal runs TSP makes of `len` bytes (43_token_packer.md R180). -/
def packRunCount (len : Nat) : Nat := (len + 254) / 255

/-- The number of blocks, hence of control bytes, TSP makes of `len` bytes (43_token_packer.md R180). -/
def packBlockCount (len : Nat) : Nat := (packRunCount len + 7) / 8

/-- `T`, the stream length TSP makes of `len` bytes (43_token_packer.md R180, R183). -/
def packedLen (len : Nat) : Nat := len + packRunCount len + packBlockCount len

end Sys2Proof.Machine
end

