-- ==== Sys2Proof/Machine/Flags.lean ====
section
/-! DEFINITION. The block's predicates and flags (10_state.md R27): the dispatch bit, the selector's comparison, the
STATUS word, the UNDEF flag and the interrupt output. The short-form flag `V[3]` and the mode bits of a row control byte
are read in Decode.lean (`refShort`, `rowInstr`). -/

namespace Sys2Proof.Machine

/-- The shift that begins every token: logical, 9 bits (40_token_decompressor.md R102, R115). -/
def shiftCtl (ctl : BitVec 9) : BitVec 9 := ctl >>> 1

/-- The control word is exhausted when the sentinel alone is left (40_token_decompressor.md R102). -/
def exhausted (shifted : BitVec 9) : Bool := shifted == 1#9

/-- The control word after a reload: the sentinel at bit 8 over the control byte (40_token_decompressor.md R102). -/
def reloadCtl (bits : Byte) : BitVec 9 := 1#1 ++ bits

/-- `CTL[0]`, the dispatch bit (40_token_decompressor.md R103). -/
def dispatchBit (ctl : BitVec 9) : Bool := ctl.getLsbD 0

/-- SELECT (42_filter_selector.md R155): ties go to Vertical and Average is never the result. -/
def select (sraw svert savg : Nat) : RowMode :=
  if svert ≤ sraw ∧ svert ≤ savg then .vertical else .raw

/-- The code of STATUS.STATE (10_state.md R13). -/
def RunState.code : RunState → BitVec 2
  | .idle => 0
  | .busy => 1
  | .done => 2
  | .fault => 3

/-- The code of STATUS.UNIT (10_state.md R13). -/
def UnitId.code : UnitId → BitVec 3
  | .none => 0
  | .tsd => 1
  | .rfr => 2
  | .fsf => 3
  | .tsp => 4

/-- STATUS as the host reads it: STATE in bits 1:0, UNIT in 4:2, UNDEF in 5, zeros above (10_state.md R13). -/
def State.statusWord (s : State) : Word32 :=
  (0#26 ++ BitVec.ofBool s.undef ++ UnitId.code s.unit ++ RunState.code s.st : BitVec (26 + 1 + 3 + 2))

/-- The interrupt output: a level, from IEN and STATE alone (60_exceptions.md R218). -/
def State.irq (s : State) : Bool := (s.ien == 1#1) && (decide (s.st = .done) || decide (s.st = .fault))

end Sys2Proof.Machine
end

