-- ==== Sys2Proof/Machine/Command.lean ====
section
/-! DEFINITION. The command family (44_host_commands.md): NOP, DECODE, RECON, FILTER, PACK, CLEAR and the illegal codes.
Each meaning is that of the command word written to CMD, in any state (R191). A start is one transition: it either
activates the unit or enters a fault and changes nothing else (60_exceptions.md R216). -/

namespace Sys2Proof.Machine

/-- DECODE's start transition (40_token_decompressor.md R100). -/
def startDecode (s : State) : State :=
  if s.cap .strm < s.slen.toNat ∨ s.cap .dbuf < s.dlen.toNat then raise .capacity 0 .tsd s
  else activate .tsd { s with spos := 0, dpos := 0, ctl := 2 }

/-- RECON's start transition (41_row_reconstruct.md R130): BadGeometry, then Capacity, then SizeInvariant. -/
def startRecon (s : State) : State :=
  if s.width = 0 ∨ s.pixsz = 0 then raise .badGeometry 0 .rfr s
  else if s.cap .dbuf < s.dlen.toNat ∨ s.cap .raw < s.imageBytes then raise .capacity 0 .rfr s
  else if s.dlen.toNat ≠ s.expectedLen then raise .sizeInvariant (BitVec.ofNat 32 s.expectedLen) .rfr s
  else activate .rfr { s with row := 0 }

/-- FILTER's start transition (42_filter_selector.md R150): BadGeometry, then Capacity. -/
def startFilter (s : State) : State :=
  if s.width = 0 ∨ s.pixsz = 0 then raise .badGeometry 0 .fsf s
  else if s.cap .dbuf < s.expectedLen ∨ s.cap .raw < s.imageBytes then raise .capacity 0 .fsf s
  else activate .fsf { s with row := 0 }

/-- PACK's start transition (43_token_packer.md R180). -/
def startPack (s : State) : State :=
  if s.cap .dbuf < s.dlen.toNat ∨ s.cap .strm < packedLen s.dlen.toNat then raise .capacity 0 .tsp s
  else activate .tsp { s with spos := 0, dpos := 0 }

/-- NOP (R193): no effect, in every state. -/
def execNop (_ign : BitVec 24) (s : State) : Result := .next s

/-- DECODE (R194). -/
def execDecode (_ign : BitVec 24) (s : State) : Result := whenIdle s (startDecode s)

/-- RECON (R195). -/
def execRecon (_ign : BitVec 24) (s : State) : Result := whenIdle s (startRecon s)

/-- FILTER (R196). -/
def execFilter (_ign : BitVec 24) (s : State) : Result := whenIdle s (startFilter s)

/-- PACK (R198). -/
def execPack (_ign : BitVec 24) (s : State) : Result := whenIdle s (startPack s)

/-- CLEAR (R199): in DONE and FAULT; no effect in IDLE, ignored in BUSY. -/
def execClear (_ign : BitVec 24) (s : State) : Result :=
  if s.st = .done ∨ s.st = .fault then .next (acknowledge s) else .next s

/-- An illegal command code (R200): BadCommand in IDLE with the whole written value in FINFO, ignored elsewhere. -/
def execIllegalCmd (code : Byte) (ign : BitVec 24) (s : State) : Result :=
  whenIdle s (raise .badCommand (commandWord code ign) .none s)

end Sys2Proof.Machine
end

