-- ==== Sys2Proof/Machine/Filter.lean ====
section
/-! DEFINITION. The filter family (42_filter_selector.md): the forward filters FWD.RAW and FWD.VERT, which write row ROW's
control byte and filtered bytes into DBUF, and the scoring that selects between them. -/

namespace Sys2Proof.Machine

/-- Every address the forward filter of row ROW touches exists: its control byte and filtered bytes in DBUF, its input in
RAW (20_memory.md R40, R59). Log 12. -/
def filterFault (s : State) : Option Fault :=
  if s.cap .dbuf < ctlAddr s.row.toNat + 1 then some (.noSuchAddress .dbuf)
  else if s.cap .dbuf < s.pixAddr s.row.toNat s.rowSpan then some (.noSuchAddress .dbuf)
  else if s.cap .raw < s.rawAddr s.row.toNat s.rowSpan then some (.noSuchAddress .raw)
  else none

/-- DBUF's content after FWD.RAW (R157, R160): the control byte 0x01, the first pixel verbatim, then residuals. -/
def fwdRawMem (s : State) : Memory :=
  fillUp (fun _ k => s.resRaw s.row.toNat k) (s.pixAddr s.row.toNat 0) (s.stride - s.pixsz.toNat) s.pixsz.toNat
    (fillUp (fun _ k => s.rawByte s.row.toNat k) (s.pixAddr s.row.toNat 0) s.pixsz.toNat 0
      (Memory.store s.dbuf (ctlAddr s.row.toNat) 0x01#8))

/-- DBUF's content after FWD.VERT (R158, R160): the control byte 0x02, then residuals at every byte. -/
def fwdVertMem (s : State) : Memory :=
  fillUp (fun _ k => s.resVert s.row.toNat k) (s.pixAddr s.row.toNat 0) s.stride 0
    (Memory.store s.dbuf (ctlAddr s.row.toNat) 0x02#8)

/-- The end of a row step of FSF (R161): MODE, DBUF's new content, `ROW <- ROW + 1`. -/
def filterDone (md : RowMode) (m : Memory) (s : State) : State :=
  { s with
    mode := md
    k := lastIndex s.k s.rowSpan
    dbuf := m
    row := BitVec.ofNat 17 (s.row.toNat + 1) }

/-- FWD.RAW (R157). -/
def execFwdRaw (s : State) : Result :=
  match filterFault s with
  | some f => .fault f
  | none => .next (filterDone .raw (fwdRawMem s) s)

/-- FWD.VERT (R158): never performed for row 0, which has no row above (R156). Log 13. -/
def execFwdVert (s : State) : Result :=
  if s.row.toNat = 0 then .fault .noRowAbove
  else
    match filterFault s with
    | some f => .fault f
    | none => .next (filterDone .vertical (fwdVertMem s) s)

/-- The three scores of row ROW in the accumulators (R151 to R154, R161); row 0 computes none (R156). -/
def scoreRow (s : State) : State :=
  if s.row.toNat = 0 then s
  else
    { s with
      sraw := s.scoreRaw s.row.toNat
      svert := s.scoreVert s.row.toNat
      savg := s.scoreAvg s.row.toNat }

/-- The filter chosen for row ROW: row 0 is forced Raw (R156), every other row by SELECT on its scores (R155). -/
def chosenFilter (s : State) : Instr :=
  if s.row.toNat = 0 then .fwdRaw
  else if select s.sraw s.svert s.savg = .vertical then .fwdVert else .fwdRaw

/-- The completion of FILTER (R163): DLEN is written and the run ends in DONE. -/
def filterComplete (s : State) : State := complete { s with dlen := BitVec.ofNat 32 s.expectedLen }

end Sys2Proof.Machine
end

