-- ==== Sys2Proof/Machine/Pack.lean ====
section
/-! DEFINITION. The packer family (43_token_packer.md): PKBLK, one block of literal runs. -/

namespace Sys2Proof.Machine

/-- The length of the next run: the longest allowed (R181). -/
def runLength (s : State) : Nat := min 255 (s.dlen.toNat - s.dpos.toNat)

/-- STRM's content after one run: its length byte, then its bytes of DBUF (R181). -/
def runMem (s : State) : Memory :=
  fillUp (fun _ k => s.readByte .dbuf (s.dpos.toNat + k)) (s.spos.toNat + 1) (runLength s) 0
    (Memory.store s.strm s.spos.toNat (BitVec.ofNat 8 (runLength s)))

/-- One pass of the loop of R181: leave it when no byte is left (DPOS never passes DLEN), else emit one run. -/
def packRun (s : State) : State :=
  if s.dlen.toNat ≤ s.dpos.toNat then s
  else
    { s with
      strm := runMem s
      spos := BitVec.ofNat 32 (s.spos.toNat + 1 + runLength s)
      dpos := BitVec.ofNat 32 (s.dpos.toNat + runLength s) }

/-- At most `n` runs. -/
def packRuns : Nat → State → State
  | 0, s => s
  | n + 1, s => packRuns n (packRun s)

/-- The control byte of a block, 0x00: eight literal dispatch bits (R181). -/
def blockControl (s : State) : State :=
  { s with
    strm := Memory.store s.strm s.spos.toNat 0x00#8
    spos := BitVec.ofNat 32 (s.spos.toNat + 1) }

/-- How many bytes of DBUF the next block takes: eight runs of at most 255. -/
def blockBytes (s : State) : Nat := min 2040 (s.dlen.toNat - s.dpos.toNat)

/-- The completion of PACK (R182): SLEN is the produced length. -/
def packComplete (s : State) : State := complete { s with slen := s.spos }

/-- PKBLK (R181): one block, or the completion of R182 when DPOS has reached DLEN. -/
def execPkblk (s : State) : Result :=
  if s.dpos = s.dlen then .next (packComplete s)
  else if s.cap .dbuf < s.dpos.toNat + blockBytes s then .fault (.noSuchAddress .dbuf)
  else if s.cap .strm < s.spos.toNat + 1 + packRunCount (blockBytes s) + blockBytes s then
    .fault (.noSuchAddress .strm)
  else .next (packRuns 8 (blockControl s))

end Sys2Proof.Machine
end

