-- ==== Sys2Proof/Machine/Row.lean ====
section
/-! DEFINITION. The row family (41_row_reconstruct.md): ROW.RAW, ROW.VERT, ROW.AVG. Each meaning reconstructs row ROW
into RAW by the three filter banks. -/

namespace Sys2Proof.Machine

/-- Every address row ROW touches exists: its filtered bytes in DBUF and its output bytes in RAW (20_memory.md R40, R59).
Log 12. -/
def rowFault (s : State) : Option Fault :=
  if s.cap .dbuf < s.pixAddr s.row.toNat s.rowSpan then some (.noSuchAddress .dbuf)
  else if s.cap .raw < s.rawAddr s.row.toNat s.rowSpan then some (.noSuchAddress .raw)
  else none

/-- The first pixel's loop, `for K in 0 .. ps-1: O(r, K) <- F(r, K)`, of ROW.RAW and ROW.AVG (R132, R134). -/
def firstPixelMem (s : State) : Memory :=
  fillUp (fun _ k => s.filteredByte s.row.toNat k) (s.rawAddr s.row.toNat 0) s.pixsz.toNat 0 s.raw

/-- RAW's content after ROW.RAW (R132): the left reference is the reconstructed output of this loop. -/
def rowRawMem (s : State) : Memory :=
  fillUp (fun m k => s.outByte m s.row.toNat (k - s.pixsz.toNat) - s.filteredByte s.row.toNat k)
    (s.rawAddr s.row.toNat 0) (s.stride - s.pixsz.toNat) s.pixsz.toNat (firstPixelMem s)

/-- RAW's content after ROW.VERT (R133): no first-pixel exception. -/
def rowVertMem (s : State) : Memory :=
  fillUp (fun m k => s.upByte m s.row.toNat k - s.filteredByte s.row.toNat k)
    (s.rawAddr s.row.toNat 0) s.stride 0 s.raw

/-- RAW's content after ROW.AVG (R134): AVG of the byte above and of the output one pixel to the left, then the subtraction
mod 256. -/
def rowAvgMem (s : State) : Memory :=
  fillUp (fun m k => s.avg (s.upByte m s.row.toNat k) (s.outByte m s.row.toNat (k - s.pixsz.toNat))
      - s.filteredByte s.row.toNat k)
    (s.rawAddr s.row.toNat 0) (s.stride - s.pixsz.toNat) s.pixsz.toNat (firstPixelMem s)

/-- The end of a row step (R131): C and MODE as decoded, RAW's new content, `ROW <- ROW + 1`. `ups` says whether a byte
of the row above was evaluated: in row 0 that sets STATUS.UNDEF and has used draws (R137). -/
def rowDone (c : Byte) (md : RowMode) (ups : Bool) (m : Memory) (s : State) : State :=
  { s with
    c := c
    mode := md
    k := lastIndex s.k s.rowSpan
    raw := m
    row := BitVec.ofNat 17 (s.row.toNat + 1)
    undef := s.undef || (decide (s.row.toNat = 0) && ups)
    draws := if s.row.toNat = 0 ∧ ups then s.draws + s.stride else s.draws }

/-- ROW.RAW (R131, R132). It reads no row above. -/
def execRowRaw (ign : BitVec 6) (m1 : BitVec 1) (s : State) : Result :=
  match rowFault s with
  | some f => .fault f
  | none => .next (rowDone (rowByte ign m1 1#1) .raw false (rowRawMem s) s)

/-- ROW.VERT (R131, R133): the row above is evaluated at every byte of the row. -/
def execRowVert (ign : BitVec 6) (s : State) : Result :=
  match rowFault s with
  | some f => .fault f
  | none => .next (rowDone (rowByte ign 1#1 0#1) .vertical (decide (0 < s.stride)) (rowVertMem s) s)

/-- ROW.AVG (R131, R134): the row above is evaluated from the second pixel on. -/
def execRowAvg (ign : BitVec 6) (s : State) : Result :=
  match rowFault s with
  | some f => .fault f
  | none => .next (rowDone (rowByte ign 0#1 0#1) .average (decide (s.pixsz.toNat < s.stride)) (rowAvgMem s) s)

end Sys2Proof.Machine
end

