-- ==== Sys2Proof/Machine/Token.lean ====
section
/-! DEFINITION. The token family (40_token_decompressor.md): CTLB, LIT, REF.S, REF.L and the copy they share. Each meaning
is that of the item standing at `STRM[SPOS]`. A fault leaves everything but STATUS, FCODE and FINFO as the meaning found
it; where a control byte was fetched before the token in the same step, Machine/Units.lean takes that fetch back too
(60_exceptions.md R216, log 10). -/

namespace Sys2Proof.Machine

/-- A TSD fault: FINFO is SPOS at the start (60_exceptions.md R211). -/
def tsdFault (f : FaultCode) (s : State) : Result := .next (raise f s.spos .tsd s)

/-- CTLB (R102): shift CTL; if only the sentinel is left, take the control byte at `STRM[SPOS]` and re-seed. -/
def execCtlb (bits : Byte) (s : State) : Result :=
  if exhausted (shiftCtl s.ctl) then
    if s.slen.toNat ≤ s.spos.toNat then tsdFault .truncatedStream s
    else .next { s with ctl := reloadCtl bits, spos := BitVec.ofNat 32 (s.spos.toNat + 1) }
  else .next { s with ctl := shiftCtl s.ctl }

/-- The state after a literal run has been taken (R104). -/
def literalDone (data : List Byte) (s : State) : State :=
  { s with
    n := BitVec.ofNat 8 data.length
    i := lastIndex s.i data.length
    dbuf := fillUp (fun _ k => data.getD k 0#8) s.dpos.toNat data.length 0 s.dbuf
    spos := BitVec.ofNat 32 (s.spos.toNat + 1 + data.length)
    dpos := BitVec.ofNat 32 (s.dpos.toNat + data.length) }

/-- LIT (R104): the tests in fetch order, then the run is copied to `DBUF[DPOS ..]`. -/
def execLit (data : List Byte) (s : State) : Result :=
  if s.slen.toNat ≤ s.spos.toNat then tsdFault .truncatedStream s
  else if s.slen.toNat < s.spos.toNat + 1 + data.length then tsdFault .truncatedStream s
  else if s.dlen.toNat < s.dpos.toNat + data.length then tsdFault .outputOverrun s
  else if s.cap .dbuf < s.dpos.toNat + data.length then .fault (.noSuchAddress .dbuf)
  else .next (literalDone data s)

/-- The DBUF content after `CopyBack(OFFSET, COUNT)` from DPOS: byte by byte, ascending, each read seeing the loop's own
earlier writes (R107, 70_reset_and_hazards.md R245). -/
def copyBackMem (off cnt : Nat) (s : State) : Memory :=
  fillUp (fun m k => readIn s.epoch .dbuf m (s.dpos.toNat - off + k)) s.dpos.toNat cnt 0 s.dbuf

/-- The state after a back-reference has been copied (R103, R107): `len` bytes of stream consumed, `cnt` bytes of output
produced. -/
def copied (v : BitVec 16) (off cnt len : Nat) (s : State) : State :=
  { s with
    v := v
    count := BitVec.ofNat 12 cnt
    offset := BitVec.ofNat 12 off
    i := lastIndex s.i cnt
    dbuf := copyBackMem off cnt s
    spos := BitVec.ofNat 32 (s.spos.toNat + len)
    dpos := BitVec.ofNat 32 (s.dpos.toNat + cnt) }

/-- CopyBack (R107), shared by both back-references. `s` is the state whose token is running, `len` the token's length
in bytes: on success SPOS has passed the token. -/
def copyBack (v : BitVec 16) (off cnt len : Nat) (s : State) : Result :=
  if off = 0 ∨ s.dpos.toNat < off then tsdFault .badReference s
  else if s.dlen.toNat < s.dpos.toNat + cnt then tsdFault .outputOverrun s
  else if s.cap .dbuf < s.dpos.toNat + cnt then .fault (.noSuchAddress .dbuf)
  else .next (copied v off cnt len s)

/-- REF.S (R103, R105). -/
def execRefS (off : BitVec 12) (c : BitVec 3) (s : State) : Result :=
  if s.slen.toNat < s.spos.toNat + 2 then tsdFault .truncatedStream s
  else copyBack (refWord off 1#1 c) off.toNat (countShort c) 2 s

/-- REF.L (R103, R106): the extension byte is tested after `v`. -/
def execRefL (off : BitVec 12) (c : BitVec 3) (e : Byte) (s : State) : Result :=
  if s.slen.toNat < s.spos.toNat + 2 then tsdFault .truncatedStream s
  else if s.slen.toNat ≤ s.spos.toNat + 2 then tsdFault .truncatedStream s
  else copyBack (refWord off 0#1 c) off.toNat (countLong c e) 3 s

end Sys2Proof.Machine
end

