-- ==== Sys2Proof/Machine/Dispatch.lean ====
section
/-! DEFINITION. exec: one arm per constructor of Instr. -/

namespace Sys2Proof.Machine

def exec (i : Instr) (s : State) : Host.Outcome State Fault Refusal :=
  match i with
  | .ctlb bits => Sys2Proof.Machine.execCtlb bits s
  | .lit data => Sys2Proof.Machine.execLit data s
  | .refS off c => Sys2Proof.Machine.execRefS off c s
  | .refL off c e => Sys2Proof.Machine.execRefL off c e s
  | .rowRaw ign m1 => Sys2Proof.Machine.execRowRaw ign m1 s
  | .rowVert ign => Sys2Proof.Machine.execRowVert ign s
  | .rowAvg ign => Sys2Proof.Machine.execRowAvg ign s
  | .fwdRaw => Sys2Proof.Machine.execFwdRaw s
  | .fwdVert => Sys2Proof.Machine.execFwdVert s
  | .pkblk => Sys2Proof.Machine.execPkblk s
  | .nop ign => Sys2Proof.Machine.execNop ign s
  | .decode ign => Sys2Proof.Machine.execDecode ign s
  | .recon ign => Sys2Proof.Machine.execRecon ign s
  | .filter ign => Sys2Proof.Machine.execFilter ign s
  | .pack ign => Sys2Proof.Machine.execPack ign s
  | .clear ign => Sys2Proof.Machine.execClear ign s
  | .illegalCmd code ign => Sys2Proof.Machine.execIllegalCmd code ign s

end Sys2Proof.Machine
end

