-- ==== Sys2Proof/Machine/Units.lean ====
section
/-! DEFINITION. The units' steps: what each active unit fetches or chooses next, and one step of it. One token for TSD,
one row for RFR and FSF, one block for TSP (44_host_commands.md R197). -/

namespace Sys2Proof.Machine

/-- The most stream bytes one token takes: a length byte and 255 bytes (30_encoding.md R82). -/
def longestToken : Nat := 256

/-- How many stream bytes the decoder may look at: those before SLEN (40_token_decompressor.md R113), one token's worth. -/
def windowLength (s : State) : Nat := min longestToken (s.slen.toNat - s.spos.toNat)

/-- The stream bytes at `STRM[SPOS ..]` that a token can take. -/
def streamWindow (s : State) : List Byte := s.readBytes .strm s.spos.toNat (windowLength s)

/-- A step that faults changes nothing but STATUS, FCODE and FINFO: whatever the step did before the fault, a control
byte fetched included, is taken back, and FINFO is SPOS at the start of the step (60_exceptions.md R216,
40_token_decompressor.md R101, R114). `start` is the state at the start of the step. Log 10. -/
def preciseFault (start : State) : Result → Result
  | .next t => if t.st = .fault then .next { start with fcode := t.fcode, finfo := start.spos, st := .fault, unit := t.unit }
               else .next t
  | .fault r => .fault r
  | .refused r => .refused r

/-- The instruction the token space holds at `STRM[SPOS]`: the control byte or the token (30_encoding.md R82). -/
def fetchItem (sp : Space) (s : State) : Option Instr :=
  match decode sp (streamWindow s) with
  | .ok (i, _) => some i
  | .error _ => none

/-- Runs the item of a space at `STRM[SPOS]`; if the stream ends before the item does, the fetch raises TruncatedStream
(40_token_decompressor.md R113). -/
def runItem (sp : Space) (s : State) : Result :=
  match fetchItem sp s with
  | some i => exec i s
  | none => tsdFault .truncatedStream s

/-- The fetch of the dispatch bit (40_token_decompressor.md R102): a control byte is fetched exactly when CTL is
exhausted; otherwise CTL is shifted. -/
def fetchDispatch (s : State) : Result :=
  if exhausted (shiftCtl s.ctl) then runItem .ctl s else .next { s with ctl := shiftCtl s.ctl }

/-- The token the dispatch bit selects (40_token_decompressor.md R103), unless the fetch has faulted. -/
def runToken : Result → Result
  | .next t => if t.st = .fault then .next t else runItem (.token (dispatchBit t.ctl)) t
  | .fault r => .fault r
  | .refused r => .refused r

/-- The TSD step (40_token_decompressor.md R101, R109): one token and the control byte fetch that may precede it. -/
def tsdStep (s : State) : Result :=
  if s.dpos = s.dlen then .next (complete s)
  else if s.cap .strm < s.slen.toNat then .fault (.noSuchAddress .strm)
  else preciseFault s (runToken (fetchDispatch s))

/-- The row control byte RFR fetches for row ROW, decoded (41_row_reconstruct.md R131). -/
def fetchRow (s : State) : Instr := rowInstr (s.readByte .dbuf (ctlAddr s.row.toNat))

/-- The RFR step (41_row_reconstruct.md R131, R138): one row. -/
def rfrStep (s : State) : Result :=
  if s.row.toNat = s.height.toNat then .next (complete s)
  else if s.cap .dbuf < ctlAddr s.row.toNat + 1 then .fault (.noSuchAddress .dbuf)
  else exec (fetchRow s) s

/-- The FSF step (42_filter_selector.md R161, R163): score, select and filter one row. -/
def fsfStep (s : State) : Result :=
  if s.row.toNat = s.height.toNat then .next (filterComplete s)
  else exec (chosenFilter (scoreRow s)) (scoreRow s)

/-- The TSP step (43_token_packer.md R181, R182): one block. -/
def tspStep (s : State) : Result := exec .pkblk s

/-- One step of the active unit: the one UNIT names while STATE is BUSY (10_state.md R10). With none active nothing
changes. After it the working registers have no defined value (log 7). -/
def unitStep (s : State) : Result :=
  if s.st = .busy then
    match s.unit with
    | .tsd => mapNext releaseWorking (tsdStep s)
    | .rfr => mapNext releaseWorking (rfrStep s)
    | .fsf => mapNext releaseWorking (fsfStep s)
    | .tsp => mapNext releaseWorking (tspStep s)
    | .none => .next s
  else .next s

end Sys2Proof.Machine
end

