-- ==== Sys2Proof/Machine/Ports.lean ====
section
/-! DEFINITION. The host's five transactions (44_host_commands.md R190, R202) and the machine's step over the pending
events. -/

namespace Sys2Proof.Machine

/-- What a register holds, as a 32-bit value: a narrower register reads 0 above its width; CMD and register numbers above
13 read 0 (10_state.md R11, R12). -/
def State.regValue (s : State) (n : Nat) : Word32 :=
  match n with
  | 1 => s.statusWord
  | 2 => s.fcode.setWidth 32
  | 3 => s.finfo
  | 4 => s.ien.setWidth 32
  | 5 => s.slen
  | 6 => s.dlen
  | 7 => s.width.setWidth 32
  | 8 => s.height.setWidth 32
  | 9 => s.pixsz.setWidth 32
  | 10 => s.spos
  | 11 => s.dpos
  | 12 => s.ctl.setWidth 32
  | 13 => s.row.setWidth 32
  | _ => 0

/-- `RegRead(n)` (44_host_commands.md R192, 10_state.md R31): no side effect on the block. While a unit is active a
register other than STATUS reads as a free value; a number above 13 names no register and reads 0 (log 15). -/
def regRead (n : Nat) (s : State) : State :=
  if s.st = .busy ∧ n ≠ 1 ∧ n ≤ 13 then
    { s with rdata := Config.portWord s.portDraws, portDraws := s.portDraws + 1 }
  else { s with rdata := s.regValue n }

/-- A write to a register other than CMD while no unit is active: the read-write registers keep the low bits of the
value; read-only registers and numbers above 13 ignore it (10_state.md R11, R16 to R19, R31). -/
def setRegister (n : Nat) (v : Word32) (s : State) : State :=
  match n with
  | 4 => { s with ien := v.setWidth 1 }
  | 5 => { s with slen := v }
  | 6 => { s with dlen := v }
  | 7 => { s with width := v.setWidth 16 }
  | 8 => { s with height := v.setWidth 16 }
  | 9 => { s with pixsz := v.setWidth 16 }
  | _ => s

/-- `RegWrite(n, v)` (44_host_commands.md R191, R192): a write to CMD issues a command, which is ignored in BUSY by its
own meaning; any other write is ignored in BUSY. -/
def regWrite (n : Nat) (v : Word32) (s : State) : Result :=
  if n = 0 then exec (commandInstr v) s
  else if s.st = .busy then .next s
  else .next (setRegister n v s)

/-- `HostBufRead(x, a)` (20_memory.md R49): 0 outside the memory, a free value while a unit is active. -/
def bufRead (x : MemId) (a : Word32) (s : State) : State :=
  if s.st = .busy then
    { s with rdata := (Config.portByte s.portDraws).setWidth 32, portDraws := s.portDraws + 1 }
  else if a.toNat < s.cap x then { s with rdata := (s.readByte x a.toNat).setWidth 32 }
  else { s with rdata := 0 }

/-- `HostBufWrite(x, a, b)` (20_memory.md R49): ignored while a unit is active and outside the memory. -/
def bufWrite (x : MemId) (a : Word32) (b : Byte) (s : State) : State :=
  if s.st = .busy then s
  else if a.toNat < s.cap x then s.writeByte x a.toNat b
  else s

/-- `Reset()` (70_reset_and_hazards.md R240, 10_state.md R32): every register to its reset value, the working registers
and every memory byte unspecified. The configuration and the environment's own fields stay. Log 6. -/
def doReset (s : State) : State :=
  releaseWorking { State.reset with
    strmCap := s.strmCap
    dbufCap := s.dbufCap
    rawCap := s.rawCap
    magTab := s.magTab
    avgTab := s.avgTab
    draws := s.draws
    portDraws := s.portDraws
    epoch := s.epoch + 1
    events := s.events
    rdata := s.rdata }

/-- One slot of the interleaving (44_host_commands.md R190, R197). -/
def runEvent : Event → State → Result
  | .unitStep, s => unitStep s
  | .regRead n, s => .next (regRead n s)
  | .regWrite n v, s => regWrite n v s
  | .bufRead x a, s => .next (bufRead x a s)
  | .bufWrite x a b, s => .next (bufWrite x a b s)
  | .reset, s => .next (doReset s)

/-- One step of the block: the oldest pending event; with none pending, the active unit's next step, or nothing when no
unit is active (44_host_commands.md R197). Log 8. -/
def stepOnce (s : State) : Result :=
  match s.events with
  | [] => unitStep s
  | e :: rest => runEvent e { s with events := rest }

end Sys2Proof.Machine
end

