-- ==== Sys2Proof/Machine/Place.lean ====
section
/-! DEFINITION. Placing one word of the opcode table where the next step runs it. The block does not fetch at one program
counter: a command arrives by a register write, a token stands in STRM behind a dispatch bit, a row control byte in DBUF,
and the encoders' items are chosen by the unit that emits them. How a program comes to run from reset: log 14. -/

namespace Sys2Proof.Machine

/-- The bytes stored at `a`, `a+1`, .. of a memory. -/
def placeBytes (bytes : List Byte) (a : Nat) (m : Memory) : Memory :=
  fillUp (fun _ k => bytes.getD k 0#8) a bytes.length 0 m

/-- The unit's turn comes next. -/
def unitNext (u : UnitId) (s : State) : State :=
  { s with st := .busy, unit := u, undef := false, fcode := 0, finfo := 0, events := .unitStep :: s.events }

/-- A back-reference token at `STRM[SPOS]`, with its dispatch bit 1 next in CTL and the buffer not yet full. -/
def placeToken (bytes : List Byte) (s : State) : State :=
  unitNext .tsd { s with
    strm := placeBytes bytes 0 s.strm
    spos := 0
    slen := BitVec.ofNat 32 bytes.length
    dpos := 0
    dlen := 0xFFFFFFFF#32
    ctl := 6 }

/-- A row control byte at `DBUF[8]`, row 0 of an image of one one-byte pixel. -/
def placeRow (b : Byte) (s : State) : State :=
  unitNext .rfr { s with
    dbuf := Memory.store s.dbuf (ctlAddr 0) b
    dlen := 10
    width := 1
    height := 1
    pixsz := 1
    row := 0 }

/-- FSF about to filter row 0 of an image of one one-byte pixel: FWD.RAW is next (42_filter_selector.md R156). -/
def placeFwdRaw (s : State) : State :=
  unitNext .fsf { s with width := 1, height := 1, pixsz := 1, row := 0 }

/-- FSF about to filter row 1 of two equal rows: FWD.VERT is next (42_filter_selector.md R155, ties go to Vertical). -/
def placeFwdVert (s : State) : State :=
  unitNext .fsf { s with
    raw := Memory.store (Memory.store s.raw 0 0#8) 1 0#8
    width := 1
    height := 2
    pixsz := 1
    row := 1 }

/-- TSP about to pack a buffer of one byte: PKBLK is next (43_token_packer.md R181). -/
def placePkblk (s : State) : State := unitNext .tsp { s with dlen := 1, dpos := 0, spos := 0 }

/-- One word of the opcode table, placed so that the next step runs it, in the space `tableSpace` names. -/
def placeWord (s : State) (nbits w : Nat) : State :=
  match tableSpace nbits w with
  | some (.token _) => placeToken (natBytes (nbits / 8) w ++ List.replicate (3 - nbits / 8) 0#8) s
  | some .row => placeRow (BitVec.ofNat 8 w) s
  | some .rowOut => if w % 256 = 1 then placeFwdRaw s else placeFwdVert s
  | some .packOut => placePkblk s
  | some .command => { s with events := .regWrite 0 (BitVec.ofNat 32 w) :: s.events }
  | some .ctl => s
  | none => s

end Sys2Proof.Machine
end

