-- ==== Sys2Proof/Machine/Step.lean ====
section
/-! DEFINITION. The machine's step, and the placing of one word for it. -/

namespace Sys2Proof.Machine

/-- One step of the block (44_host_commands.md R190, R197). -/
def step (s : State) : Host.Outcome State Fault Refusal := stepOnce s

/-- `s` with one word of the opcode table placed so that the next step runs it. Log 14. -/
def State.withFetchWord (s : State) (nbits w : Nat) : State := placeWord s nbits w

end Sys2Proof.Machine
end

