-- ==== Sys2Proof/Safety.lean ====
section
/-! DEFINITION. What counts as a safe run, in the terms the claims use: the invariant of the block at every step
boundary. Each part cites the rule it comes from. -/

namespace Sys2Proof.Machine

/-- A memory is in canonical form and lists no address outside its capacity (20_memory.md R40). -/
def Memory.fits (m : Memory) (cap : Nat) : Prop := Memory.wf m ∧ ∀ p ∈ m, p.1 < cap

/-- The geometry RECON and FILTER accept (10_state.md R19). -/
def legalGeometry (s : State) : Prop := 1 ≤ s.width.toNat ∧ 1 ≤ s.pixsz.toNat

/-- What holds of the cursors while TSD runs (10_state.md R20, R21, 40_token_decompressor.md R100, R101). -/
structure TsdRun (s : State) : Prop where
  spos_le : s.spos.toNat ≤ s.slen.toNat
  slen_le : s.slen.toNat ≤ s.cap .strm
  dpos_le : s.dpos.toNat ≤ s.dlen.toNat
  dlen_le : s.dlen.toNat ≤ s.cap .dbuf

/-- What holds while RFR runs (41_row_reconstruct.md R130, R131). -/
structure RfrRun (s : State) : Prop where
  geometry : legalGeometry s
  dlen_eq : s.dlen.toNat = s.expectedLen
  dlen_le : s.dlen.toNat ≤ s.cap .dbuf
  image_le : s.imageBytes ≤ s.cap .raw
  row_le : s.row.toNat ≤ s.height.toNat

/-- What holds while FSF runs (42_filter_selector.md R150, R161). -/
structure FsfRun (s : State) : Prop where
  geometry : legalGeometry s
  buffer_le : s.expectedLen ≤ s.cap .dbuf
  image_le : s.imageBytes ≤ s.cap .raw
  row_le : s.row.toNat ≤ s.height.toNat

/-- What holds while TSP runs (43_token_packer.md R180, R181): SPOS is the length of the stream made of the DPOS bytes
consumed, and every block so far was a full one unless it was the last. -/
structure TspRun (s : State) : Prop where
  dlen_le : s.dlen.toNat ≤ s.cap .dbuf
  stream_le : packedLen s.dlen.toNat ≤ s.cap .strm
  dpos_le : s.dpos.toNat ≤ s.dlen.toNat
  spos_eq : s.spos.toNat = packedLen s.dpos.toNat
  full_blocks : s.dpos.toNat % 2040 = 0 ∨ s.dpos.toNat = s.dlen.toNat

/-- What STATUS, FCODE and FINFO say together (10_state.md R13, R14, R15, 44_host_commands.md R191). -/
structure StatusOk (s : State) : Prop where
  idle : s.st = .idle → s.unit = .none ∧ s.undef = false
  busy : s.st = .busy → s.unit ≠ .none
  done : s.st = .done → s.unit ≠ .none
  fault : s.st = .fault → 1 ≤ s.fcode.toNat ∧ s.fcode.toNat ≤ 7 ∧ (s.unit = .none ↔ s.fcode = 7)
  noFault : s.st ≠ .fault → s.fcode = 0 ∧ s.finfo = 0
  undef : s.undef = true → s.unit = .rfr ∧ (s.st = .busy ∨ s.st = .done)

/-- The invariant of the block at every step boundary. -/
structure BlockInv (s : State) : Prop where
  strm : Memory.fits s.strm (s.cap .strm)
  dbuf : Memory.fits s.dbuf (s.cap .dbuf)
  raw : Memory.fits s.raw (s.cap .raw)
  status : StatusOk s
  /-- CTL is never 0, and 1 only inside a step (10_state.md R22, 40_token_decompressor.md R102). -/
  ctl : 2 ≤ s.ctl.toNat
  tsd : s.st = .busy → s.unit = .tsd → TsdRun s
  rfr : s.st = .busy → s.unit = .rfr → RfrRun s
  fsf : s.st = .busy → s.unit = .fsf → FsfRun s
  tsp : s.st = .busy → s.unit = .tsp → TspRun s

/-- `k` steps, stopping at the first stop. -/
def runSteps : Nat → State → Result
  | 0, s => .next s
  | k + 1, s =>
    match step s with
    | .next t => runSteps k t
    | .fault r => .fault r
    | .refused r => .refused r

/-- A step is safe if it answers a next state: the model neither faults nor refuses. -/
def stepSafe (s : State) : Prop := ∃ t, step s = .next t

end Sys2Proof.Machine
end

