-- ==== Sys2Proof/Certificates/Slice0/Obligations.lean ====
section
/-! DEFINITION. The statements about the model. A frame is written `t = { s with f := t.f, .. }`: only the fields named may
differ. Memory is read byte by byte with `readByte`. FCODE, STATE and UNIT of a fault entry are written out. -/

open Sys2Proof Sys2Proof.Machine

/-! ## Encoding -/

/-- Decoding the encoding of a well-formed instruction, whatever follows it, gives the instruction and what follows. The
four bytes a command word is laid out in are the model's choice (log 16). -/
def Obligations.DecodeUndoesEncode : Prop :=
  ∀ (i : Instr) (rest : List Byte), i.wf = true → decode i.space (encode i ++ rest) = .ok (i, rest)

/-- What decodes is well formed, of the space it was read in, and encodes to the bytes it was read from. The four bytes a
command word is laid out in are the model's choice (log 16). -/
def Obligations.EncodeUndoesDecode : Prop :=
  ∀ (sp : Space) (bytes rest : List Byte) (i : Instr), decode sp bytes = .ok (i, rest) →
    i.wf = true ∧ i.space = sp ∧ encode i ++ rest = bytes

/-- Operand assembly of back-references, in arithmetic on the stream bytes; a literal's length is used as it stands
(30_encoding.md R76). -/
def Obligations.BackReferenceOperands : Prop :=
  ∀ (b0 b1 : Byte) (rest : List Byte),
    let v := b0.toNat + 256 * b1.toNat
    (v / 8 % 2 = 1 → ∃ off c, decode (.token true) (b0 :: b1 :: rest) = .ok (.refS off c, rest) ∧
      off.toNat = v / 16 ∧ countShort c = v % 8 + 4) ∧
    (v / 8 % 2 = 0 → ∀ e, ∃ off c, decode (.token true) (b0 :: b1 :: e :: rest) = .ok (.refL off c e, rest) ∧
      off.toNat = v / 16 ∧ countLong c e = v % 8 * 256 + e.toNat + 4) ∧
    (b0.toNat ≤ (b1 :: rest).length → ∃ data, decode (.token false) (b0 :: b1 :: rest) =
      .ok (.lit data, (b1 :: rest).drop b0.toNat) ∧ data.length = b0.toNat)

/-- The row control byte: bit 0 has priority, then bit 1, and every byte is legal (30_encoding.md R78). -/
def Obligations.RowControlByteModes : Prop :=
  ∀ (b : Byte) (rest : List Byte),
    (b.toNat % 2 = 1 → ∃ ign m1, decode .row (b :: rest) = .ok (.rowRaw ign m1, rest)) ∧
    (b.toNat % 4 = 2 → ∃ ign, decode .row (b :: rest) = .ok (.rowVert ign, rest)) ∧
    (b.toNat % 4 = 0 → ∃ ign, decode .row (b :: rest) = .ok (.rowAvg ign, rest))

/-- Bits 7:2 of a row control byte, and bit 1 of a Raw one, have no effect but on the working register C, which keeps
the byte (30_encoding.md R79, 10_state.md R25). -/
def Obligations.RowControlBitsIgnored : Prop :=
  ∀ (ign ign' : BitVec 6) (m m' : BitVec 1) (s : State),
    mapNext (fun t => { t with c := 0 }) (exec (.rowRaw ign m) s) =
      mapNext (fun t => { t with c := 0 }) (exec (.rowRaw ign' m') s) ∧
    mapNext (fun t => { t with c := 0 }) (exec (.rowVert ign) s) =
      mapNext (fun t => { t with c := 0 }) (exec (.rowVert ign') s) ∧
    mapNext (fun t => { t with c := 0 }) (exec (.rowAvg ign) s) =
      mapNext (fun t => { t with c := 0 }) (exec (.rowAvg ign') s)

/-- A command word: bits 7:0 are the code, bits 31:8 are ignored (30_encoding.md R81). -/
def Obligations.CommandWordCodes : Prop :=
  ∀ (w : Word32),
    (w.toNat % 256 = 0 → ∃ ign, commandInstr w = .nop ign) ∧
    (w.toNat % 256 = 1 → ∃ ign, commandInstr w = .decode ign) ∧
    (w.toNat % 256 = 2 → ∃ ign, commandInstr w = .recon ign) ∧
    (w.toNat % 256 = 3 → ∃ ign, commandInstr w = .filter ign) ∧
    (w.toNat % 256 = 4 → ∃ ign, commandInstr w = .pack ign) ∧
    (w.toNat % 256 = 5 → ∃ ign, commandInstr w = .clear ign) ∧
    (6 ≤ w.toNat % 256 → ∃ code ign, commandInstr w = .illegalCmd code ign ∧ code.toNat = w.toNat % 256) ∧
    (∀ (ign ign' : BitVec 24) (s : State),
      exec (.nop ign) s = exec (.nop ign') s ∧ exec (.decode ign) s = exec (.decode ign') s ∧
      exec (.recon ign) s = exec (.recon ign') s ∧ exec (.filter ign) s = exec (.filter ign') s ∧
      exec (.pack ign) s = exec (.pack ign') s ∧ exec (.clear ign) s = exec (.clear ign') s)

/-- Words written out from the encodings of 30_encoding.md and 95_test_vectors.md decode to their instructions. -/
def Obligations.SpecWordsDecode : Prop :=
  decode .ctl [0x02#8] = .ok (.ctlb 0x02#8, []) ∧
  decode (.token false) [0x03#8, 0x61#8, 0x62#8, 0x63#8, 0x39#8] = .ok (.lit [0x61#8, 0x62#8, 0x63#8], [0x39#8]) ∧
  decode (.token true) [0x1E#8, 0x00#8] = .ok (.refS 1#12 6#3, []) ∧
  decode (.token true) [0x21#8, 0x00#8, 0x28#8] = .ok (.refL 2#12 1#3 0x28#8, []) ∧
  decode .row [0x03#8] = .ok (.rowRaw 0#6 1#1, []) ∧
  decode .row [0xFE#8] = .ok (.rowVert 0x3F#6, []) ∧
  decode .row [0xFC#8] = .ok (.rowAvg 0x3F#6, []) ∧
  decode .rowOut [0x01#8] = .ok (.fwdRaw, []) ∧
  decode .rowOut [0x02#8] = .ok (.fwdVert, []) ∧
  decode .packOut [0x00#8] = .ok (.pkblk, []) ∧
  commandInstr 0x00000101#32 = .decode 1#24 ∧
  commandInstr 0x00000106#32 = .illegalCmd 6#8 1#24

/-! ## Token family -/

/-- CTLB (40_token_decompressor.md R102): shift; reload exactly when the sentinel alone is left; fault at the end of the
stream. Nothing but CTL and SPOS changes. -/
def Obligations.ControlByteFetch : Prop :=
  ∀ (b : Byte) (s : State),
    (s.ctl.toNat / 2 = 1 → s.spos.toNat < s.slen.toNat → ∃ t, exec (.ctlb b) s = .next t ∧
      t = { s with ctl := t.ctl, spos := t.spos } ∧
      t.ctl.toNat = 256 + b.toNat ∧ t.spos.toNat = s.spos.toNat + 1) ∧
    (s.ctl.toNat / 2 = 1 → s.slen.toNat ≤ s.spos.toNat → exec (.ctlb b) s =
      .next { s with st := .fault, unit := .tsd, fcode := 1, finfo := s.spos }) ∧
    (s.ctl.toNat / 2 ≠ 1 → ∃ t, exec (.ctlb b) s = .next t ∧
      t = { s with ctl := t.ctl } ∧ t.ctl.toNat = s.ctl.toNat / 2)

/-- After a reload, bits 0 to 7 of the control byte are the dispatch bits of eight tokens in that order, and the next
shift leaves the sentinel alone (30_encoding.md R72, 40_token_decompressor.md R102). -/
def Obligations.DispatchBitsInOrder : Prop :=
  ∀ (b : Byte) (k : Nat),
    (k < 8 → dispatchBit (shiftCtl^[k] (reloadCtl b)) = b.getLsbD k ∧ exhausted (shiftCtl^[k] (reloadCtl b)) = false) ∧
    exhausted (shiftCtl^[8] (reloadCtl b)) = true

/-- LIT (40_token_decompressor.md R104): tests in fetch order, then the run is copied verbatim; nothing else changes. A
fault of the item alone has the token's own SPOS in FINFO; that is the model's choice (log 10), and TokenFaultsPrecise says
that a step has SPOS at its start there (R114). -/
def Obligations.LiteralRun : Prop :=
  ∀ (data : List Byte) (s : State), data.length ≤ 255 → s.dlen.toNat ≤ s.cap .dbuf →
    (s.slen.toNat < s.spos.toNat + 1 + data.length → exec (.lit data) s =
      .next { s with st := .fault, unit := .tsd, fcode := 1, finfo := s.spos }) ∧
    (s.spos.toNat + 1 + data.length ≤ s.slen.toNat → s.dlen.toNat < s.dpos.toNat + data.length → exec (.lit data) s =
      .next { s with st := .fault, unit := .tsd, fcode := 3, finfo := s.spos }) ∧
    (s.spos.toNat + 1 + data.length ≤ s.slen.toNat → s.dpos.toNat + data.length ≤ s.dlen.toNat →
      ∃ t, exec (.lit data) s = .next t ∧
        t = { s with n := t.n, i := t.i, dbuf := t.dbuf, spos := t.spos, dpos := t.dpos } ∧
        t.n.toNat = data.length ∧
        t.spos.toNat = s.spos.toNat + 1 + data.length ∧ t.dpos.toNat = s.dpos.toNat + data.length ∧
        (∀ j, j < data.length → t.readByte .dbuf (s.dpos.toNat + j) = data.getD j 0#8) ∧
        (∀ a, a < s.dpos.toNat ∨ s.dpos.toNat + data.length ≤ a → t.readByte .dbuf a = s.readByte .dbuf a))

/-- REF.S (40_token_decompressor.md R105, with the fetch of R103, the tests of R107 and R114 and the closed form of R108):
the last OFFSET bytes before DPOS, repeated, COUNT bytes in all. A fault of the item alone has the token's own SPOS in
FINFO, which is the model's choice (log 10). -/
def Obligations.ShortBackReference : Prop :=
  ∀ (off : BitVec 12) (c : BitVec 3) (s : State), s.dlen.toNat ≤ s.cap .dbuf →
    (s.slen.toNat < s.spos.toNat + 2 → exec (.refS off c) s =
      .next { s with st := .fault, unit := .tsd, fcode := 1, finfo := s.spos }) ∧
    (s.spos.toNat + 2 ≤ s.slen.toNat → off.toNat = 0 ∨ s.dpos.toNat < off.toNat → exec (.refS off c) s =
      .next { s with st := .fault, unit := .tsd, fcode := 2, finfo := s.spos }) ∧
    (s.spos.toNat + 2 ≤ s.slen.toNat → 1 ≤ off.toNat → off.toNat ≤ s.dpos.toNat →
      s.dlen.toNat < s.dpos.toNat + (c.toNat + 4) → exec (.refS off c) s =
      .next { s with st := .fault, unit := .tsd, fcode := 3, finfo := s.spos }) ∧
    (s.spos.toNat + 2 ≤ s.slen.toNat → 1 ≤ off.toNat → off.toNat ≤ s.dpos.toNat →
      s.dpos.toNat + (c.toNat + 4) ≤ s.dlen.toNat → ∃ t, exec (.refS off c) s = .next t ∧
        t = { s with
          v := t.v, count := t.count, offset := t.offset, i := t.i, dbuf := t.dbuf, spos := t.spos, dpos := t.dpos } ∧
        t.v.toNat = off.toNat * 16 + 8 + c.toNat ∧ t.count.toNat = c.toNat + 4 ∧ t.offset = off ∧
        t.spos.toNat = s.spos.toNat + 2 ∧ t.dpos.toNat = s.dpos.toNat + (c.toNat + 4) ∧
        (∀ j, j < c.toNat + 4 →
          t.readByte .dbuf (s.dpos.toNat + j) = s.readByte .dbuf (s.dpos.toNat - off.toNat + j % off.toNat)) ∧
        (∀ a, a < s.dpos.toNat ∨ s.dpos.toNat + (c.toNat + 4) ≤ a → t.readByte .dbuf a = s.readByte .dbuf a))

/-- REF.L (40_token_decompressor.md R106, with R103, R107, R108 and R114). A fault of the item alone has the token's own
SPOS in FINFO, which is the model's choice (log 10). -/
def Obligations.LongBackReference : Prop :=
  ∀ (off : BitVec 12) (c : BitVec 3) (e : Byte) (s : State), s.dlen.toNat ≤ s.cap .dbuf →
    (s.slen.toNat < s.spos.toNat + 3 → exec (.refL off c e) s =
      .next { s with st := .fault, unit := .tsd, fcode := 1, finfo := s.spos }) ∧
    (s.spos.toNat + 3 ≤ s.slen.toNat → off.toNat = 0 ∨ s.dpos.toNat < off.toNat → exec (.refL off c e) s =
      .next { s with st := .fault, unit := .tsd, fcode := 2, finfo := s.spos }) ∧
    (s.spos.toNat + 3 ≤ s.slen.toNat → 1 ≤ off.toNat → off.toNat ≤ s.dpos.toNat →
      s.dlen.toNat < s.dpos.toNat + (c.toNat * 256 + e.toNat + 4) → exec (.refL off c e) s =
      .next { s with st := .fault, unit := .tsd, fcode := 3, finfo := s.spos }) ∧
    (s.spos.toNat + 3 ≤ s.slen.toNat → 1 ≤ off.toNat → off.toNat ≤ s.dpos.toNat →
      s.dpos.toNat + (c.toNat * 256 + e.toNat + 4) ≤ s.dlen.toNat → ∃ t, exec (.refL off c e) s = .next t ∧
        t = { s with
          v := t.v, count := t.count, offset := t.offset, i := t.i, dbuf := t.dbuf, spos := t.spos, dpos := t.dpos } ∧
        t.v.toNat = off.toNat * 16 + c.toNat ∧ t.count.toNat = c.toNat * 256 + e.toNat + 4 ∧ t.offset = off ∧
        t.spos.toNat = s.spos.toNat + 3 ∧ t.dpos.toNat = s.dpos.toNat + (c.toNat * 256 + e.toNat + 4) ∧
        (∀ j, j < c.toNat * 256 + e.toNat + 4 →
          t.readByte .dbuf (s.dpos.toNat + j) = s.readByte .dbuf (s.dpos.toNat - off.toNat + j % off.toNat)) ∧
        (∀ a, a < s.dpos.toNat ∨ s.dpos.toNat + (c.toNat * 256 + e.toNat + 4) ≤ a →
          t.readByte .dbuf a = s.readByte .dbuf a))

/-- A count of 4 to 11 written in the long form does what the short form does, but for the byte more it takes from the
stream and the value V it came from (30_encoding.md R84). -/
def Obligations.NonCanonicalLongForm : Prop :=
  ∀ (off : BitVec 12) (c : BitVec 3) (s : State), s.spos.toNat + 3 ≤ s.slen.toNat →
    mapNext (fun t => { t with spos := 0, v := 0 }) (exec (.refS off c) s) =
      mapNext (fun t => { t with spos := 0, v := 0 }) (exec (.refL off 0#3 (c.setWidth 8)) s)

/-- A TSD step runs the token the stream holds. With no reload due, the token at SPOS that the shifted CTL selects; with
a reload due, the control byte at SPOS and then the token after it. A fault of the token takes the whole step back; the
working registers are open at the boundary (40_token_decompressor.md R101 to R103; log 7 and log 10 are the model's). -/
def Obligations.TokenStepRunsDecoded : Prop :=
  ∀ (s u t : State) (i : Instr) (rest : List Byte),
    s.events = [] → s.st = .busy → s.unit = .tsd → s.dpos ≠ s.dlen → s.slen.toNat ≤ s.cap .strm →
    ((s.ctl.toNat / 2 ≠ 1 ∧ u = { s with ctl := shiftCtl s.ctl }) ∨
      (s.ctl.toNat / 2 = 1 ∧ s.spos.toNat < s.slen.toNat ∧ exec (.ctlb (s.readByte .strm s.spos.toNat)) s = .next u)) →
    decode (.token (dispatchBit u.ctl)) (u.readBytes .strm u.spos.toNat (u.slen.toNat - u.spos.toNat)) = .ok (i, rest) →
    exec i u = .next t →
    (t.st ≠ .fault → step s = .next (releaseWorking t)) ∧
    (t.st = .fault → step s = .next (releaseWorking
      { s with st := .fault, unit := .tsd, fcode := t.fcode, finfo := s.spos }))

/-- A TSD step whose stream ends too early raises TruncatedStream and changes nothing else
(40_token_decompressor.md R113). That the working registers are free values after it (log 7) and that the step is the
control byte's item and then the token's (log 10) are the model's choices. -/
def Obligations.TokenStepTruncated : Prop :=
  ∀ (s u : State),
    s.events = [] → s.st = .busy → s.unit = .tsd → s.dpos ≠ s.dlen → s.slen.toNat ≤ s.cap .strm →
    ((s.ctl.toNat / 2 = 1 ∧ s.slen.toNat ≤ s.spos.toNat) ∨
      (((s.ctl.toNat / 2 ≠ 1 ∧ u = { s with ctl := shiftCtl s.ctl }) ∨
        (s.ctl.toNat / 2 = 1 ∧ s.spos.toNat < s.slen.toNat ∧
          exec (.ctlb (s.readByte .strm s.spos.toNat)) s = .next u)) ∧
        decode (.token (dispatchBit u.ctl)) (u.readBytes .strm u.spos.toNat (u.slen.toNat - u.spos.toNat)) =
          .error .truncated)) →
    step s = .next (releaseWorking { s with st := .fault, unit := .tsd, fcode := 1, finfo := s.spos })

/-- A TSD step that faults is precise (60_exceptions.md R216, 40_token_decompressor.md R114). That the working registers
are free values after it is the model's choice (log 7). -/
def Obligations.TokenFaultsPrecise : Prop :=
  ∀ (s t : State), s.events = [] → s.st = .busy → s.unit = .tsd → step s = .next t → t.st = .fault →
    t = releaseWorking { s with st := .fault, unit := .tsd, fcode := t.fcode, finfo := s.spos } ∧
    (t.fcode = 1 ∨ t.fcode = 2 ∨ t.fcode = 3)

/-- TSD never reads STRM at or above SLEN and never writes it (40_token_decompressor.md R113, 20_memory.md R56): changing
those bytes changes nothing a step does. -/
def Obligations.StreamReadsBelowSlen : Prop :=
  ∀ (s : State) (m : Memory), s.st = .busy → s.unit = .tsd →
    (∀ a, a < s.slen.toNat → Memory.lookup m a = Memory.lookup s.strm a) →
    unitStep { s with strm := m } = mapNext (fun t => { t with strm := m }) (unitStep s)

/-- The content of DBUF at and above DPOS never influences a TSD step: two states that agree below DPOS, and in
everything but DBUF, step to such states again (40_token_decompressor.md R112, R118). -/
def Obligations.DecodeIgnoresOldBuffer : Prop :=
  ∀ (s s' t : State), s.st = .busy → s.unit = .tsd → s' = { s with dbuf := s'.dbuf } →
    (∀ a, a < s.dpos.toNat → s'.readByte .dbuf a = s.readByte .dbuf a) →
    unitStep s = .next t → ∃ t', unitStep s' = .next t' ∧ t' = { t with dbuf := t'.dbuf } ∧
      (∀ a, a < t.dpos.toNat → t'.readByte .dbuf a = t.readByte .dbuf a)

/-! ## Row family -/

/-- ROW.RAW (41_row_reconstruct.md R132): the first pixel verbatim, then the output one pixel to the left minus the
filtered byte. It completes in every row, row 0 included, and never sets UNDEF. C is the control byte (R131). -/
def Obligations.RawRowRebuilt : Prop :=
  ∀ (ign : BitVec 6) (m1 : BitVec 1) (s : State), RfrRun s → s.row.toNat < s.height.toNat →
    ∃ t, exec (.rowRaw ign m1) s = .next t ∧
      t = { s with c := t.c, mode := t.mode, k := t.k, raw := t.raw, row := t.row } ∧
      t.row.toNat = s.row.toNat + 1 ∧ t.mode = .raw ∧ t.c.toNat = 4 * ign.toNat + 2 * m1.toNat + 1 ∧
      (∀ k, k < s.pixsz.toNat →
        t.readByte .raw (s.rawAddr s.row.toNat k) = s.readByte .dbuf (s.pixAddr s.row.toNat k)) ∧
      (∀ k, s.pixsz.toNat ≤ k → k < s.stride → t.readByte .raw (s.rawAddr s.row.toNat k) =
        t.readByte .raw (s.rawAddr s.row.toNat (k - s.pixsz.toNat)) - s.readByte .dbuf (s.pixAddr s.row.toNat k)) ∧
      (∀ a, a < s.rawAddr s.row.toNat 0 ∨ s.rawAddr s.row.toNat s.stride ≤ a →
        t.readByte .raw a = s.readByte .raw a)

/-- ROW.VERT (41_row_reconstruct.md R133, R137): the byte above minus the filtered byte, at every byte of the row; in row 0
the byte above is a draw and UNDEF is set. C is the control byte (R131). The index of a draw is the model's choice (log 4). -/
def Obligations.VerticalRowRebuilt : Prop :=
  ∀ (ign : BitVec 6) (s : State), RfrRun s → s.row.toNat < s.height.toNat →
    ∃ t, exec (.rowVert ign) s = .next t ∧
      t = { s with c := t.c, mode := t.mode, k := t.k, raw := t.raw, row := t.row, undef := t.undef, draws := t.draws } ∧
      t.row.toNat = s.row.toNat + 1 ∧ t.mode = .vertical ∧ t.c.toNat = 4 * ign.toNat + 2 ∧
      (1 ≤ s.row.toNat → t.undef = s.undef ∧ t.draws = s.draws ∧ ∀ k, k < s.stride →
        t.readByte .raw (s.rawAddr s.row.toNat k) =
          s.readByte .raw (s.rawAddr (s.row.toNat - 1) k) - s.readByte .dbuf (s.pixAddr s.row.toNat k)) ∧
      (s.row.toNat = 0 → t.undef = true ∧ t.draws = s.draws + s.stride ∧ ∀ k, k < s.stride →
        t.readByte .raw (s.rawAddr s.row.toNat k) =
          Config.draw (s.draws + k) - s.readByte .dbuf (s.pixAddr s.row.toNat k)) ∧
      (∀ a, a < s.rawAddr s.row.toNat 0 ∨ s.rawAddr s.row.toNat s.stride ≤ a →
        t.readByte .raw a = s.readByte .raw a)

/-- ROW.AVG (41_row_reconstruct.md R134, R137): the first pixel verbatim, then AVG of the byte above and the output one pixel
to the left, minus the filtered byte, for every AVG of the configuration (AverageOfExactSum gives its default). In row 0
the byte above is a draw; UNDEF is set exactly when a second pixel exists. C is the control byte (R131). The index of a
draw is the model's choice (log 4). -/
def Obligations.AverageRowRebuilt : Prop :=
  ∀ (ign : BitVec 6) (s : State), RfrRun s → s.row.toNat < s.height.toNat →
    ∃ t, exec (.rowAvg ign) s = .next t ∧
      t = { s with c := t.c, mode := t.mode, k := t.k, raw := t.raw, row := t.row, undef := t.undef, draws := t.draws } ∧
      t.row.toNat = s.row.toNat + 1 ∧ t.mode = .average ∧ t.c.toNat = 4 * ign.toNat ∧
      (∀ k, k < s.pixsz.toNat →
        t.readByte .raw (s.rawAddr s.row.toNat k) = s.readByte .dbuf (s.pixAddr s.row.toNat k)) ∧
      (1 ≤ s.row.toNat → t.undef = s.undef ∧ t.draws = s.draws ∧ ∀ k, s.pixsz.toNat ≤ k → k < s.stride →
        t.readByte .raw (s.rawAddr s.row.toNat k) =
          s.avg (s.readByte .raw (s.rawAddr (s.row.toNat - 1) k))
            (t.readByte .raw (s.rawAddr s.row.toNat (k - s.pixsz.toNat))) -
            s.readByte .dbuf (s.pixAddr s.row.toNat k)) ∧
      (s.row.toNat = 0 → (t.undef = true ↔ s.undef = true ∨ 2 ≤ s.width.toNat) ∧
        ∀ k, s.pixsz.toNat ≤ k → k < s.stride →
        t.readByte .raw (s.rawAddr s.row.toNat k) =
          s.avg (Config.draw (s.draws + k)) (t.readByte .raw (s.rawAddr s.row.toNat (k - s.pixsz.toNat))) -
            s.readByte .dbuf (s.pixAddr s.row.toNat k)) ∧
      (∀ a, a < s.rawAddr s.row.toNat 0 ∨ s.rawAddr s.row.toNat s.stride ≤ a →
        t.readByte .raw a = s.readByte .raw a)

/-- In a configuration that departs nowhere from the default, as State.reset's, AVG is the exact sum halved, rounding down;
it is commutative and idempotent; the examples of the rule (41_row_reconstruct.md R135). Every function of two bytes is
the AVG of some configuration (10_state.md R30); the table that carries it is the model's form (log 3). -/
def Obligations.AverageOfExactSum : Prop :=
  (∀ s : State, s.avgTab = [] →
    (∀ a b : Byte, (s.avg a b).toNat = (a.toNat + b.toNat) / 2 ∧ s.avg a b = s.avg b a ∧ s.avg a a = a) ∧
    s.avg 0xFF#8 0xFF#8 = 0xFF#8 ∧ s.avg 0x01#8 0x02#8 = 0x01#8 ∧ s.avg 0xC8#8 0xC8#8 = 0xC8#8) ∧
  State.reset.avgTab = [] ∧
  ∀ f : Byte → Byte → Byte, ∃ tab, ∀ (s : State) (a b : Byte), s.avgTab = tab → s.avg a b = f a b

/-- An RFR step runs the row instruction that the row's control byte at `DBUF[8 + ROW]` decodes to
(41_row_reconstruct.md R131); the working registers are open at the boundary (log 7). -/
def Obligations.RowStepRunsDecoded : Prop :=
  ∀ (s : State) (i : Instr) (rest : List Byte),
    s.events = [] → s.st = .busy → s.unit = .rfr → s.row.toNat ≠ s.height.toNat → 8 + s.row.toNat < s.cap .dbuf →
    decode .row (s.readByte .dbuf (8 + s.row.toNat) :: rest) = .ok (i, rest) →
    step s = mapNext releaseWorking (exec i s)

/-- UNDEF becomes set only by an RFR step on row 0 whose control byte has bit 0 clear
(10_state.md R13, 41_row_reconstruct.md R137). -/
def Obligations.UndefSetOnlyInRowZero : Prop :=
  ∀ (s t : State), step s = .next t → s.undef = false → t.undef = true →
    s.st = .busy ∧ s.unit = .rfr ∧ s.row.toNat = 0 ∧ (s.readByte .dbuf 8).toNat % 2 = 0

/-! ## Filter family -/

/-- FWD.RAW (42_filter_selector.md R157, R160): control byte 0x01, the first pixel verbatim, then residuals. -/
def Obligations.RawFilterWritten : Prop :=
  ∀ (s : State), FsfRun s → s.row.toNat < s.height.toNat →
    ∃ t, exec .fwdRaw s = .next t ∧
      t = { s with mode := t.mode, k := t.k, dbuf := t.dbuf, row := t.row } ∧
      t.row.toNat = s.row.toNat + 1 ∧ t.mode = .raw ∧ t.readByte .dbuf (8 + s.row.toNat) = 0x01#8 ∧
      (∀ k, k < s.pixsz.toNat →
        t.readByte .dbuf (s.pixAddr s.row.toNat k) = s.readByte .raw (s.rawAddr s.row.toNat k)) ∧
      (∀ k, s.pixsz.toNat ≤ k → k < s.stride → t.readByte .dbuf (s.pixAddr s.row.toNat k) =
        s.readByte .raw (s.rawAddr s.row.toNat (k - s.pixsz.toNat)) - s.readByte .raw (s.rawAddr s.row.toNat k)) ∧
      (∀ a, a ≠ 8 + s.row.toNat → a < s.pixAddr s.row.toNat 0 ∨ s.pixAddr s.row.toNat s.stride ≤ a →
        t.readByte .dbuf a = s.readByte .dbuf a)

/-- FWD.VERT (42_filter_selector.md R158, R160): control byte 0x02, residuals against the row above at every byte. -/
def Obligations.VerticalFilterWritten : Prop :=
  ∀ (s : State), FsfRun s → 1 ≤ s.row.toNat → s.row.toNat < s.height.toNat →
    ∃ t, exec .fwdVert s = .next t ∧
      t = { s with mode := t.mode, k := t.k, dbuf := t.dbuf, row := t.row } ∧
      t.row.toNat = s.row.toNat + 1 ∧ t.mode = .vertical ∧ t.readByte .dbuf (8 + s.row.toNat) = 0x02#8 ∧
      (∀ k, k < s.stride → t.readByte .dbuf (s.pixAddr s.row.toNat k) =
        s.readByte .raw (s.rawAddr (s.row.toNat - 1) k) - s.readByte .raw (s.rawAddr s.row.toNat k)) ∧
      (∀ a, a ≠ 8 + s.row.toNat → a < s.pixAddr s.row.toNat 0 ∨ s.pixAddr s.row.toNat s.stride ≤ a →
        t.readByte .dbuf a = s.readByte .dbuf a)

/-- The model's choice (log 13): FWD.VERT asked for in row 0, which the spec says is never performed, stops by name. -/
def Obligations.VerticalFilterNeedsRowAbove : Prop :=
  ∀ (s : State), s.row.toNat = 0 → exec .fwdVert s = .fault .noRowAbove

/-- An FSF step scores the row, selects by the biased heuristic and runs the forward filter chosen: row 0 is Raw; another
row is Vertical exactly when its Vertical score is at most both others. The scores are sums of the residuals' magnitudes
(42_filter_selector.md R151 to R156, R161), for every MAG and AVG of the configuration: MAG(0) is 0 in each, MAG(x) is x in
one that departs nowhere from the default, and every function with value 0 at 0 is the MAG of one. The table that carries
MAG (log 2) and the free values of the working registers after the step (log 7) are the model's choices. -/
def Obligations.FilterStepSelects : Prop :=
  ∀ (s : State), s.events = [] → s.st = .busy → s.unit = .fsf → s.row.toNat < s.height.toNat →
    let r := s.row.toNat
    let ps := s.pixsz.toNat
    let p := fun r k => s.readByte .raw (s.rawAddr r k)
    let vert := ∑ k ∈ Finset.range s.stride, s.mag (p (r - 1) k - p r k)
    let raw := ∑ k ∈ Finset.Ico ps s.stride, s.mag (p r (k - ps) - p r k)
    let average := ∑ k ∈ Finset.Ico ps s.stride, s.mag (s.avg (p (r - 1) k) (p r (k - ps)) - p r k)
    s.mag 0#8 = 0 ∧ (s.magTab = [] → ∀ x, s.mag x = x.toNat) ∧
    (∀ f : Byte → Nat, f 0#8 = 0 → ∃ tab, ∀ x, { s with magTab := tab }.mag x = f x) ∧
    (r = 0 → step s = mapNext releaseWorking (exec .fwdRaw s)) ∧
    (1 ≤ r → vert ≤ raw ∧ vert ≤ average →
      step s = mapNext releaseWorking (exec .fwdVert { s with sraw := raw, svert := vert, savg := average })) ∧
    (1 ≤ r → ¬ (vert ≤ raw ∧ vert ≤ average) →
      step s = mapNext releaseWorking (exec .fwdRaw { s with sraw := raw, svert := vert, savg := average }))

/-! ## Packer family -/

/-- PKBLK (43_token_packer.md R181): the control byte 0x00, then runs of at most 255 bytes, each behind its length byte,
eight at most, greedily; nothing but STRM, SPOS and DPOS changes. -/
def Obligations.PackerBlockEmitted : Prop :=
  ∀ (s : State), TspRun s → s.dpos ≠ s.dlen →
    let len := min 2040 (s.dlen.toNat - s.dpos.toNat)
    let total := 1 + (len + (len + 254) / 255)
    ∃ t, exec .pkblk s = .next t ∧ t = { s with strm := t.strm, spos := t.spos, dpos := t.dpos } ∧
      t.dpos.toNat = s.dpos.toNat + len ∧ t.spos.toNat = s.spos.toNat + total ∧
      t.readByte .strm s.spos.toNat = 0x00#8 ∧
      (∀ j, 255 * j < len →
        (t.readByte .strm (s.spos.toNat + 1 + 256 * j)).toNat = min 255 (len - 255 * j) ∧
        ∀ i, i < min 255 (len - 255 * j) →
          t.readByte .strm (s.spos.toNat + 2 + 256 * j + i) = s.readByte .dbuf (s.dpos.toNat + 255 * j + i)) ∧
      (∀ a, a < s.spos.toNat ∨ s.spos.toNat + total ≤ a → t.readByte .strm a = s.readByte .strm a)

/-- A TSP step runs PKBLK (43_token_packer.md R181); the working registers are open at the boundary (log 7). -/
def Obligations.PackStepRunsBlock : Prop :=
  ∀ (s : State), s.events = [] → s.st = .busy → s.unit = .tsp → step s = mapNext releaseWorking (exec .pkblk s)

/-! ## The model's stops -/

/-- The model's choice (log 12): an item whose range of addresses ends beyond a memory's capacity, where the spec says there
is nothing, stops by name; no item stops for another reason but FWD.VERT in row 0 (log 13), and none is refused. By 20_memory.md R59 no
started command meets a stop, and StepNeverStops says that the model does not. -/
def Obligations.AbsentAddressStops : Prop :=
  ∀ (s : State) (x : Fault),
    let row := s.row.toNat
    let noDbuf := s.cap .dbuf < s.pixAddr row s.rowSpan
    let noRaw := s.cap .raw < s.rawAddr row s.rowSpan
    let rowStops := (x = .noSuchAddress .dbuf ∧ noDbuf) ∨ (x = .noSuchAddress .raw ∧ ¬ noDbuf ∧ noRaw)
    let noDbufOut := s.cap .dbuf < 9 + row ∨ noDbuf
    let filterStops := (x = .noSuchAddress .dbuf ∧ noDbufOut) ∨ (x = .noSuchAddress .raw ∧ ¬ noDbufOut ∧ noRaw)
    let refStops := fun off cnt : Nat => x = .noSuchAddress .dbuf ∧ 1 ≤ off ∧ off ≤ s.dpos.toNat ∧
      s.dpos.toNat + cnt ≤ s.dlen.toNat ∧ s.cap .dbuf < s.dpos.toNat + cnt
    let len := min 2040 (s.dlen.toNat - s.dpos.toNat)
    let noBlockIn := s.cap .dbuf < s.dpos.toNat + len
    let noBlockOut := s.cap .strm < s.spos.toNat + 1 + (len + 254) / 255 + len
    (∀ data : List Byte, exec (.lit data) s = .fault x ↔ x = .noSuchAddress .dbuf ∧
      s.spos.toNat + 1 + data.length ≤ s.slen.toNat ∧ s.dpos.toNat + data.length ≤ s.dlen.toNat ∧
      s.cap .dbuf < s.dpos.toNat + data.length) ∧
    (∀ (off : BitVec 12) (c : BitVec 3), exec (.refS off c) s = .fault x ↔
      s.spos.toNat + 2 ≤ s.slen.toNat ∧ refStops off.toNat (c.toNat + 4)) ∧
    (∀ (off : BitVec 12) (c : BitVec 3) (e : Byte), exec (.refL off c e) s = .fault x ↔
      s.spos.toNat + 3 ≤ s.slen.toNat ∧ refStops off.toNat (c.toNat * 256 + e.toNat + 4)) ∧
    (∀ (ign : BitVec 6) (m : BitVec 1), (exec (.rowRaw ign m) s = .fault x ↔ rowStops) ∧
      (exec (.rowVert ign) s = .fault x ↔ rowStops) ∧ (exec (.rowAvg ign) s = .fault x ↔ rowStops)) ∧
    (exec .fwdRaw s = .fault x ↔ filterStops) ∧
    (exec .fwdVert s = .fault x ↔ (row = 0 ∧ x = .noRowAbove) ∨ (1 ≤ row ∧ filterStops)) ∧
    (exec .pkblk s = .fault x ↔ s.dpos ≠ s.dlen ∧
      ((x = .noSuchAddress .dbuf ∧ noBlockIn) ∨ (x = .noSuchAddress .strm ∧ ¬ noBlockIn ∧ noBlockOut))) ∧
    (∀ i : Instr, i.space = .command ∨ i.space = .ctl → exec i s ≠ .fault x) ∧
    (∀ (i : Instr) (y : Refusal), exec i s ≠ .refused y)

/-! ## Completion and termination -/

/-- The completions of the four units (40_token_decompressor.md R109, 41_row_reconstruct.md R138, 42_filter_selector.md
R163, 43_token_packer.md R182): STATE becomes DONE, FSF writes DLEN, TSP writes SLEN, nothing else defined changes. That
the working registers are free values after the step is the model's choice (log 7). -/
def Obligations.UnitsComplete : Prop :=
  ∀ (s : State), s.events = [] → s.st = .busy →
    (s.unit = .tsd → s.dpos = s.dlen → step s = .next (releaseWorking { s with st := .done })) ∧
    (s.unit = .rfr → s.row.toNat = s.height.toNat → step s = .next (releaseWorking { s with st := .done })) ∧
    (s.unit = .fsf → s.row.toNat = s.height.toNat → FsfRun s → ∃ d : BitVec 32,
      d.toNat = 8 + s.height.toNat + s.height.toNat * s.width.toNat * s.pixsz.toNat ∧
      step s = .next (releaseWorking { s with dlen := d, st := .done })) ∧
    (s.unit = .tsp → s.dpos = s.dlen → step s = .next (releaseWorking { s with slen := s.spos, st := .done }))

/-- RECON takes exactly HEIGHT + 1 steps: from row ROW, HEIGHT - ROW steps that stay BUSY and then DONE, without a fault
(41_row_reconstruct.md R138). -/
def Obligations.ReconTerminates : Prop :=
  ∀ (s : State), s.events = [] → s.st = .busy → s.unit = .rfr → RfrRun s →
    (∀ j, j ≤ s.height.toNat - s.row.toNat → ∃ t, runSteps j s = .next t ∧ t.st = .busy) ∧
    ∃ t, runSteps (s.height.toNat - s.row.toNat + 1) s = .next t ∧ t.st = .done ∧ t.row.toNat = s.height.toNat

/-- FILTER takes exactly HEIGHT + 1 steps and leaves DLEN at the size invariant (42_filter_selector.md R163). -/
def Obligations.FilterTerminates : Prop :=
  ∀ (s : State), s.events = [] → s.st = .busy → s.unit = .fsf → FsfRun s →
    (∀ j, j ≤ s.height.toNat - s.row.toNat → ∃ t, runSteps j s = .next t ∧ t.st = .busy) ∧
    ∃ t, runSteps (s.height.toNat - s.row.toNat + 1) s = .next t ∧ t.st = .done ∧ t.row.toNat = s.height.toNat ∧
      t.dlen.toNat = 8 + s.height.toNat + s.height.toNat * s.width.toNat * s.pixsz.toNat

/-- PACK takes one step per block and one more, and leaves SLEN at the length of 43_token_packer.md R180 and R183. -/
def Obligations.PackTerminates : Prop :=
  ∀ (s : State), s.events = [] → s.st = .busy → s.unit = .tsp → TspRun s →
    (∀ j, j ≤ packBlockCount (s.dlen.toNat - s.dpos.toNat) → ∃ t, runSteps j s = .next t ∧ t.st = .busy) ∧
    ∃ t, runSteps (packBlockCount (s.dlen.toNat - s.dpos.toNat) + 1) s = .next t ∧ t.st = .done ∧
      t.dpos.toNat = s.dlen.toNat ∧ t.spos = t.slen ∧
      t.slen.toNat = s.dlen.toNat + (s.dlen.toNat + 254) / 255 + ((s.dlen.toNat + 254) / 255 + 7) / 8

/-- DECODE ends, in DONE or in a fault, after at most SLEN - SPOS + 1 more steps (40_token_decompressor.md R110). -/
def Obligations.DecodeTerminates : Prop :=
  ∀ (s : State), s.events = [] → s.st = .busy → s.unit = .tsd → TsdRun s →
    ∃ k t, k ≤ s.slen.toNat - s.spos.toNat + 1 ∧ runSteps k s = .next t ∧ (t.st = .done ∨ t.st = .fault)

/-! ## Commands -/

/-- NOP, code 0, has no effect, in every state (44_host_commands.md R193). -/
def Obligations.NopHasNoEffect : Prop :=
  (∀ (ign : BitVec 24) (s : State), exec (.nop ign) s = .next s) ∧
  ∀ (w : Word32) (s : State), w.toNat % 256 = 0 → exec (commandInstr w) s = .next s

/-- DECODE (44_host_commands.md R194, 40_token_decompressor.md R100). -/
def Obligations.DecodeStarts : Prop :=
  ∀ (ign : BitVec 24) (s : State),
    (s.st = .idle → s.slen.toNat ≤ s.cap .strm → s.dlen.toNat ≤ s.cap .dbuf → exec (.decode ign) s =
      .next { s with spos := 0, dpos := 0, ctl := 2, st := .busy, unit := .tsd, undef := false }) ∧
    (s.st = .idle → s.cap .strm < s.slen.toNat ∨ s.cap .dbuf < s.dlen.toNat → exec (.decode ign) s =
      .next { s with st := .fault, unit := .tsd, fcode := 6, finfo := 0 }) ∧
    (s.st ≠ .idle → exec (.decode ign) s = .next s)

/-- RECON (44_host_commands.md R195, 41_row_reconstruct.md R130): the tests in their order, with the sizes exact. -/
def Obligations.ReconStarts : Prop :=
  ∀ (ign : BitVec 24) (s : State),
    let image := s.height.toNat * s.width.toNat * s.pixsz.toNat
    let e := 8 + s.height.toNat + image
    (s.st = .idle → s.width = 0 ∨ s.pixsz = 0 → exec (.recon ign) s =
      .next { s with st := .fault, unit := .rfr, fcode := 4, finfo := 0 }) ∧
    (s.st = .idle → s.width ≠ 0 → s.pixsz ≠ 0 → s.cap .dbuf < s.dlen.toNat ∨ s.cap .raw < image →
      exec (.recon ign) s = .next { s with st := .fault, unit := .rfr, fcode := 6, finfo := 0 }) ∧
    (s.st = .idle → s.width ≠ 0 → s.pixsz ≠ 0 → s.dlen.toNat ≤ s.cap .dbuf → image ≤ s.cap .raw → s.dlen.toNat ≠ e →
      ∃ x : BitVec 32, x.toNat = e % 2 ^ 32 ∧ exec (.recon ign) s =
        .next { s with st := .fault, unit := .rfr, fcode := 5, finfo := x }) ∧
    (s.st = .idle → s.width ≠ 0 → s.pixsz ≠ 0 → s.dlen.toNat ≤ s.cap .dbuf → image ≤ s.cap .raw → s.dlen.toNat = e →
      exec (.recon ign) s = .next { s with row := 0, st := .busy, unit := .rfr, undef := false }) ∧
    (s.st ≠ .idle → exec (.recon ign) s = .next s)

/-- FILTER (44_host_commands.md R196, 42_filter_selector.md R150). -/
def Obligations.FilterStarts : Prop :=
  ∀ (ign : BitVec 24) (s : State),
    let image := s.height.toNat * s.width.toNat * s.pixsz.toNat
    let e := 8 + s.height.toNat + image
    (s.st = .idle → s.width = 0 ∨ s.pixsz = 0 → exec (.filter ign) s =
      .next { s with st := .fault, unit := .fsf, fcode := 4, finfo := 0 }) ∧
    (s.st = .idle → s.width ≠ 0 → s.pixsz ≠ 0 → s.cap .dbuf < e ∨ s.cap .raw < image →
      exec (.filter ign) s = .next { s with st := .fault, unit := .fsf, fcode := 6, finfo := 0 }) ∧
    (s.st = .idle → s.width ≠ 0 → s.pixsz ≠ 0 → e ≤ s.cap .dbuf → image ≤ s.cap .raw →
      exec (.filter ign) s = .next { s with row := 0, st := .busy, unit := .fsf, undef := false }) ∧
    (s.st ≠ .idle → exec (.filter ign) s = .next s)

/-- PACK (44_host_commands.md R198, 43_token_packer.md R180). -/
def Obligations.PackStarts : Prop :=
  ∀ (ign : BitVec 24) (s : State),
    let runs := (s.dlen.toNat + 254) / 255
    let total := s.dlen.toNat + runs + (runs + 7) / 8
    (s.st = .idle → s.dlen.toNat ≤ s.cap .dbuf → total ≤ s.cap .strm → exec (.pack ign) s =
      .next { s with spos := 0, dpos := 0, st := .busy, unit := .tsp, undef := false }) ∧
    (s.st = .idle → s.cap .dbuf < s.dlen.toNat ∨ s.cap .strm < total → exec (.pack ign) s =
      .next { s with st := .fault, unit := .tsp, fcode := 6, finfo := 0 }) ∧
    (s.st ≠ .idle → exec (.pack ign) s = .next s)

/-- CLEAR, code 5 (44_host_commands.md R199): in DONE and FAULT it resets STATUS, FCODE and FINFO and nothing else, and
the interrupt output falls; elsewhere it does nothing. -/
def Obligations.ClearAcknowledges : Prop :=
  ∀ (ign : BitVec 24) (s : State),
    (∀ w : Word32, w.toNat % 256 = 5 → exec (commandInstr w) s = exec (.clear ign) s) ∧
    (s.st = .done ∨ s.st = .fault → ∃ t, exec (.clear ign) s = .next t ∧ t.irq = false ∧
      t = { s with st := .idle, unit := .none, undef := false, fcode := 0, finfo := 0 }) ∧
    (s.st = .idle ∨ s.st = .busy → exec (.clear ign) s = .next s)

/-- An illegal code, 6 to 255 (44_host_commands.md R200): BadCommand with the whole written value in IDLE, ignored
elsewhere. -/
def Obligations.IllegalCommandFaults : Prop :=
  ∀ (w : Word32) (s : State), 6 ≤ w.toNat % 256 → ∃ code ign, commandInstr w = .illegalCmd code ign ∧
    (s.st = .idle → exec (.illegalCmd code ign) s =
      .next { s with st := .fault, unit := .none, fcode := 7, finfo := w }) ∧
    (s.st ≠ .idle → exec (.illegalCmd code ign) s = .next s)

/-! ## Host ports -/

/-- A step takes the oldest pending event, whichever it is, and with none pending lets the active unit run, or changes
nothing where no unit is active (the model's form of 44_host_commands.md R197, log 8). A write to CMD runs the command the
value decodes to; the four bytes the value is laid out in for the decoder are the model's choice (log 16). -/
def Obligations.StepRunsEventOrCommand : Prop :=
  ∀ (s : State) (rest : List Event),
    (∀ e, s.events = e :: rest → step s = runEvent e { s with events := rest }) ∧
    (s.events = [] → step s = unitStep s) ∧
    (s.events = .unitStep :: rest → step s = unitStep { s with events := rest }) ∧
    (s.events = [] → s.st ≠ .busy → step s = .next s) ∧
    (∀ v i, s.events = .regWrite 0 v :: rest → decode .command (wordBytes v) = .ok (i, []) →
      step s = exec i { s with events := rest })

/-- While a unit is active every host transaction but Reset leaves the block as it is; RegRead of STATUS answers STATUS;
other reads answer free values (44_host_commands.md R192), whose indices are the model's choice (log 4); a register number
above 13 reads 0 then too (10_state.md R11, vector H17), which the model reads so by inference (log 15). -/
def Obligations.BusyRefusesHost : Prop :=
  ∀ (s : State) (e : Event) (rest : List Event), s.st = .busy → s.events = e :: rest → e ≠ .unitStep → e ≠ .reset →
    ∃ t, step s = .next t ∧ t = { s with events := rest, rdata := t.rdata, portDraws := t.portDraws } ∧
      (e = .regRead 1 → t.rdata = s.statusWord ∧ t.portDraws = s.portDraws) ∧
      (∀ n, e = .regRead n → n ≠ 1 → n ≤ 13 → t.rdata = Config.portWord s.portDraws) ∧
      (∀ n, e = .regRead n → 13 < n → t.rdata = 0 ∧ t.portDraws = s.portDraws) ∧
      (∀ x a, e = .bufRead x a → t.rdata = (Config.portByte s.portDraws).setWidth 32) ∧
      (∀ n v, e = .regWrite n v → t.rdata = s.rdata ∧ t.portDraws = s.portDraws) ∧
      (∀ x a b, e = .bufWrite x a b → t.rdata = s.rdata ∧ t.portDraws = s.portDraws)

/-- Host transactions other than Reset between two unit steps do not change the command's outcome
(44_host_commands.md R197). That a host read does not shift the bytes a unit draws is the model's choice: host reads have a
counter of their own (log 4). -/
def Obligations.InterleavingKeepsOutcome : Prop :=
  ∀ (s t : State) (e : Event) (rest : List Event), s.st = .busy → s.events = e :: .unitStep :: rest →
    e ≠ .unitStep → e ≠ .reset → step { s with events := .unitStep :: rest } = .next t →
    ∃ t', runSteps 2 s = .next t' ∧ t' = { t with rdata := t'.rdata, portDraws := t'.portDraws }

/-- RegRead while no unit is active: no side effect on the block, and the register's value, STATUS assembled from its
fields (10_state.md R11, R13, R31). -/
def Obligations.RegisterReads : Prop :=
  ∀ (s : State) (n : Nat) (rest : List Event), s.st ≠ .busy → s.events = .regRead n :: rest →
    ∃ t, step s = .next t ∧ t = { s with events := rest, rdata := t.rdata } ∧
      (n = 0 ∨ 13 < n → t.rdata = 0) ∧
      (n = 1 → t.rdata.toNat = (match s.st with | .idle => 0 | .busy => 1 | .done => 2 | .fault => 3) +
        4 * (match s.unit with | .none => 0 | .tsd => 1 | .rfr => 2 | .fsf => 3 | .tsp => 4) +
        32 * s.undef.toNat) ∧
      (n = 2 → t.rdata.toNat = s.fcode.toNat) ∧ (n = 3 → t.rdata = s.finfo) ∧ (n = 4 → t.rdata.toNat = s.ien.toNat) ∧
      (n = 5 → t.rdata = s.slen) ∧ (n = 6 → t.rdata = s.dlen) ∧ (n = 7 → t.rdata.toNat = s.width.toNat) ∧
      (n = 8 → t.rdata.toNat = s.height.toNat) ∧ (n = 9 → t.rdata.toNat = s.pixsz.toNat) ∧
      (n = 10 → t.rdata = s.spos) ∧ (n = 11 → t.rdata = s.dpos) ∧ (n = 12 → t.rdata.toNat = s.ctl.toNat) ∧
      (n = 13 → t.rdata.toNat = s.row.toNat)

/-- RegWrite to a register other than CMD while no unit is active changes only the register written; the value is read
back with the register's width; read-only registers and numbers above 13 ignore it (10_state.md R11, R31). -/
def Obligations.RegisterWrites : Prop :=
  ∀ (s : State) (n : Nat) (v : Word32) (rest : List Event), s.st ≠ .busy → n ≠ 0 → s.events = .regWrite n v :: rest →
    ∃ t, step s = .next t ∧
      (n = 4 → t = { s with events := rest, ien := t.ien } ∧ t.ien.toNat = v.toNat % 2) ∧
      (n = 5 → t = { s with events := rest, slen := v }) ∧
      (n = 6 → t = { s with events := rest, dlen := v }) ∧
      (n = 7 → t = { s with events := rest, width := t.width } ∧ t.width.toNat = v.toNat % 65536) ∧
      (n = 8 → t = { s with events := rest, height := t.height } ∧ t.height.toNat = v.toNat % 65536) ∧
      (n = 9 → t = { s with events := rest, pixsz := t.pixsz } ∧ t.pixsz.toNat = v.toNat % 65536) ∧
      (n < 4 ∨ 9 < n → t = { s with events := rest })

/-- The buffer port while no unit is active: a write reaches the byte at its address if the address exists, nothing else
changes, and a read answers the byte, or 0 outside the memory (20_memory.md R49). -/
def Obligations.BufferPortAccess : Prop :=
  ∀ (s : State) (x y : MemId) (a c : Word32) (b : Byte) (rest : List Event), s.st ≠ .busy →
    s.events = .bufWrite x a b :: .bufRead y c :: rest →
    ∃ t, runSteps 2 s = .next t ∧
      t = { s with events := rest, rdata := t.rdata, strm := t.strm, dbuf := t.dbuf, raw := t.raw } ∧
      (s.cap y ≤ c.toNat → t.rdata = 0) ∧
      (c.toNat < s.cap y → (t.rdata.toNat = if x = y ∧ a = c then b.toNat else (s.readByte y c.toNat).toNat)) ∧
      (∀ z d, t.readByte z d = if z = x ∧ d = a.toNat ∧ a.toNat < s.cap x then b else s.readByte z d)

/-- `Reset()` in any state gives every register the value the spec states; the configuration stays; no byte of a memory
counts as written (10_state.md R32, 70_reset_and_hazards.md R240). -/
def Obligations.ResetTransaction : Prop :=
  ∀ (s : State) (rest : List Event), s.events = .reset :: rest → ∃ t, step s = .next t ∧
    t.st = .idle ∧ t.unit = .none ∧ t.undef = false ∧ t.fcode = 0 ∧ t.finfo = 0 ∧ t.ien = 0 ∧ t.irq = false ∧
    t.slen = 0 ∧ t.dlen = 0 ∧ t.width = 0 ∧ t.height = 0 ∧ t.pixsz = 0 ∧ t.spos = 0 ∧ t.dpos = 0 ∧ t.ctl = 2 ∧ t.row = 0 ∧
    t.strmCap = s.strmCap ∧ t.dbufCap = s.dbufCap ∧ t.rawCap = s.rawCap ∧ t.magTab = s.magTab ∧ t.avgTab = s.avgTab ∧
    t.events = rest ∧
    (∀ x a, Memory.lookup (t.mem x) a = none)

/-- The state right after reset has the register values the spec states (10_state.md R32). -/
def Obligations.ResetValues : Prop :=
  State.reset.st = .idle ∧ State.reset.unit = .none ∧ State.reset.undef = false ∧ State.reset.fcode = 0 ∧
  State.reset.finfo = 0 ∧ State.reset.ien = 0 ∧ State.reset.slen = 0 ∧ State.reset.dlen = 0 ∧ State.reset.width = 0 ∧
  State.reset.height = 0 ∧ State.reset.pixsz = 0 ∧ State.reset.spos = 0 ∧ State.reset.dpos = 0 ∧ State.reset.ctl = 2 ∧
  State.reset.row = 0

/-! ## Whole-machine rules -/

/-- The interrupt output is a level: IEN and the end of a command, nothing else (60_exceptions.md R218). -/
def Obligations.InterruptLevel : Prop :=
  ∀ (s : State), s.irq = true ↔ s.ien.toNat = 1 ∧ (s.st = .done ∨ s.st = .fault)

/-- STATUS.STATE changes only by the transitions of 44_host_commands.md R191. -/
def Obligations.StateTransitions : Prop :=
  ∀ (s t : State), step s = .next t → t.st ≠ s.st →
    (∃ rest, s.events = .reset :: rest ∧ t.st = .idle) ∨
    (s.st = .idle ∧ ∃ v rest, s.events = .regWrite 0 v :: rest ∧
      1 ≤ v.toNat % 256 ∧ v.toNat % 256 ≤ 4 ∧ (t.st = .busy ∨ t.st = .fault)) ∨
    (s.st = .idle ∧ ∃ v rest, s.events = .regWrite 0 v :: rest ∧ 6 ≤ v.toNat % 256 ∧ t.st = .fault) ∨
    (s.st = .busy ∧ (s.events = [] ∨ ∃ rest, s.events = .unitStep :: rest) ∧ (t.st = .done ∨ t.st = .fault)) ∨
    ((s.st = .done ∨ s.st = .fault) ∧ ∃ v rest, s.events = .regWrite 0 v :: rest ∧ v.toNat % 256 = 5 ∧ t.st = .idle)

/-- A unit step writes only inside its command's footprint, and only bytes it has not yet passed
(20_memory.md R58). -/
def Obligations.UnitWriteFootprints : Prop :=
  ∀ (s t : State), BlockInv s → s.st = .busy → unitStep s = .next t →
    (s.unit = .tsd → t.strm = s.strm ∧ t.raw = s.raw ∧ t.slen = s.slen ∧ t.dlen = s.dlen ∧
      ∀ a, a < s.dpos.toNat ∨ s.dlen.toNat ≤ a → t.readByte .dbuf a = s.readByte .dbuf a) ∧
    (s.unit = .rfr → t.strm = s.strm ∧ t.dbuf = s.dbuf ∧ t.slen = s.slen ∧ t.dlen = s.dlen ∧
      ∀ a, a < s.row.toNat * s.stride ∨ s.imageBytes ≤ a → t.readByte .raw a = s.readByte .raw a) ∧
    (s.unit = .fsf → t.strm = s.strm ∧ t.raw = s.raw ∧ t.slen = s.slen ∧
      ∀ a, a < 8 + s.row.toNat ∨ (8 + s.height.toNat ≤ a ∧ a < s.pixAddr s.row.toNat 0) ∨ s.expectedLen ≤ a →
        t.readByte .dbuf a = s.readByte .dbuf a) ∧
    (s.unit = .tsp → t.dbuf = s.dbuf ∧ t.raw = s.raw ∧ t.dlen = s.dlen ∧
      ∀ a, a < s.spos.toNat ∨ packedLen s.dlen.toNat ≤ a → t.readByte .strm a = s.readByte .strm a)

/-- The configuration, the capacities, MAG and AVG, is never changed by any step (10_state.md R30). -/
def Obligations.ConfigurationFixed : Prop :=
  ∀ (s t : State), step s = .next t → t.strmCap = s.strmCap ∧ t.dbufCap = s.dbufCap ∧ t.rawCap = s.rawCap ∧
    t.magTab = s.magTab ∧ t.avgTab = s.avgTab

/-- The invariant holds right after reset. -/
def Obligations.ResetMeetsInvariant : Prop := BlockInv State.reset

/-- Every step keeps the invariant: memories stay canonical and inside their capacities, STATUS, FCODE and FINFO stay
consistent, CTL keeps its sentinel, and the cursors of the active unit stay inside its footprint. -/
def Obligations.StepKeepsInvariant : Prop := ∀ (s t : State), BlockInv s → step s = .next t → BlockInv t

/-- From every state that meets the invariant a step answers a next state: the model never stops
(20_memory.md R59: no step of a started command computes an address outside its memory). -/
def Obligations.StepNeverStops : Prop := ∀ (s : State), BlockInv s → stepSafe s

/-! ## Round trips -/

/-- FILTER, then CLEAR, then RECON with the same geometry and the DLEN FILTER wrote: RECON ends in DONE with UNDEF = 0
and RAW holds its original content at every address, for every MAG and AVG (42_filter_selector.md R162). -/
def Obligations.FilterReconRoundTrip : Prop :=
  ∀ (s : State), s.st = .idle → legalGeometry s → s.expectedLen ≤ s.cap .dbuf → s.imageBytes ≤ s.cap .raw →
    s.events = .regWrite 0 3 :: (List.replicate (s.height.toNat + 1) .unitStep ++
      .regWrite 0 5 :: .regWrite 0 2 :: List.replicate (s.height.toNat + 1) .unitStep) →
    ∃ t, runSteps (2 * s.height.toNat + 5) s = .next t ∧ t.events = [] ∧ t.st = .done ∧ t.unit = .rfr ∧
      t.undef = false ∧ ∀ a, t.readByte .raw a = s.readByte .raw a

/-- PACK, then CLEAR, then DECODE with the SLEN PACK wrote and the same DLEN: DECODE ends in DONE with SPOS = SLEN and
DBUF holds its original content at every address (43_token_packer.md R184). -/
def Obligations.PackDecodeRoundTrip : Prop :=
  ∀ (s : State), s.st = .idle → s.dlen.toNat ≤ s.cap .dbuf → packedLen s.dlen.toNat ≤ s.cap .strm →
    s.events = .regWrite 0 4 :: (List.replicate (packBlockCount s.dlen.toNat + 1) .unitStep ++
      .regWrite 0 5 :: .regWrite 0 1 :: List.replicate (packRunCount s.dlen.toNat + 1) .unitStep) →
    ∃ t, runSteps (packBlockCount s.dlen.toNat + packRunCount s.dlen.toNat + 5) s = .next t ∧ t.events = [] ∧
      t.st = .done ∧ t.unit = .tsd ∧ t.spos = t.slen ∧
      ∀ a, t.readByte .dbuf a = s.readByte .dbuf a
end

