-- ==== Sys2Proof/Laws/State.lean ====
section
/-! SUPPORT. The small lemmas of the state record: one per field per named update, so that no proof unfolds a record
update. Every one holds by unfolding alone. -/

namespace Sys2Proof.Machine

/-! `raise`: one lemma per field. -/

@[simp] theorem raise_st (f : FaultCode) (x : BitVec 32) (u : UnitId) (s : State) : (raise f x u s).st = .fault := rfl
@[simp] theorem raise_unit (f : FaultCode) (x : BitVec 32) (u : UnitId) (s : State) : (raise f x u s).unit = u := rfl
@[simp] theorem raise_undef (f : FaultCode) (x : BitVec 32) (u : UnitId) (s : State) : (raise f x u s).undef = s.undef := rfl
@[simp] theorem raise_fcode (f : FaultCode) (x : BitVec 32) (u : UnitId) (s : State) : (raise f x u s).fcode = f.code := rfl
@[simp] theorem raise_finfo (f : FaultCode) (x : BitVec 32) (u : UnitId) (s : State) : (raise f x u s).finfo = x := rfl
@[simp] theorem raise_ien (f : FaultCode) (x : BitVec 32) (u : UnitId) (s : State) : (raise f x u s).ien = s.ien := rfl
@[simp] theorem raise_slen (f : FaultCode) (x : BitVec 32) (u : UnitId) (s : State) : (raise f x u s).slen = s.slen := rfl
@[simp] theorem raise_dlen (f : FaultCode) (x : BitVec 32) (u : UnitId) (s : State) : (raise f x u s).dlen = s.dlen := rfl
@[simp] theorem raise_width (f : FaultCode) (x : BitVec 32) (u : UnitId) (s : State) : (raise f x u s).width = s.width := rfl
@[simp] theorem raise_height (f : FaultCode) (x : BitVec 32) (u : UnitId) (s : State) : (raise f x u s).height = s.height := rfl
@[simp] theorem raise_pixsz (f : FaultCode) (x : BitVec 32) (u : UnitId) (s : State) : (raise f x u s).pixsz = s.pixsz := rfl
@[simp] theorem raise_spos (f : FaultCode) (x : BitVec 32) (u : UnitId) (s : State) : (raise f x u s).spos = s.spos := rfl
@[simp] theorem raise_dpos (f : FaultCode) (x : BitVec 32) (u : UnitId) (s : State) : (raise f x u s).dpos = s.dpos := rfl
@[simp] theorem raise_ctl (f : FaultCode) (x : BitVec 32) (u : UnitId) (s : State) : (raise f x u s).ctl = s.ctl := rfl
@[simp] theorem raise_row (f : FaultCode) (x : BitVec 32) (u : UnitId) (s : State) : (raise f x u s).row = s.row := rfl
@[simp] theorem raise_v (f : FaultCode) (x : BitVec 32) (u : UnitId) (s : State) : (raise f x u s).v = s.v := rfl
@[simp] theorem raise_count (f : FaultCode) (x : BitVec 32) (u : UnitId) (s : State) : (raise f x u s).count = s.count := rfl
@[simp] theorem raise_offset (f : FaultCode) (x : BitVec 32) (u : UnitId) (s : State) : (raise f x u s).offset = s.offset := rfl
@[simp] theorem raise_n (f : FaultCode) (x : BitVec 32) (u : UnitId) (s : State) : (raise f x u s).n = s.n := rfl
@[simp] theorem raise_i (f : FaultCode) (x : BitVec 32) (u : UnitId) (s : State) : (raise f x u s).i = s.i := rfl
@[simp] theorem raise_mode (f : FaultCode) (x : BitVec 32) (u : UnitId) (s : State) : (raise f x u s).mode = s.mode := rfl
@[simp] theorem raise_c (f : FaultCode) (x : BitVec 32) (u : UnitId) (s : State) : (raise f x u s).c = s.c := rfl
@[simp] theorem raise_k (f : FaultCode) (x : BitVec 32) (u : UnitId) (s : State) : (raise f x u s).k = s.k := rfl
@[simp] theorem raise_sraw (f : FaultCode) (x : BitVec 32) (u : UnitId) (s : State) : (raise f x u s).sraw = s.sraw := rfl
@[simp] theorem raise_svert (f : FaultCode) (x : BitVec 32) (u : UnitId) (s : State) : (raise f x u s).svert = s.svert := rfl
@[simp] theorem raise_savg (f : FaultCode) (x : BitVec 32) (u : UnitId) (s : State) : (raise f x u s).savg = s.savg := rfl
@[simp] theorem raise_strm (f : FaultCode) (x : BitVec 32) (u : UnitId) (s : State) : (raise f x u s).strm = s.strm := rfl
@[simp] theorem raise_dbuf (f : FaultCode) (x : BitVec 32) (u : UnitId) (s : State) : (raise f x u s).dbuf = s.dbuf := rfl
@[simp] theorem raise_raw (f : FaultCode) (x : BitVec 32) (u : UnitId) (s : State) : (raise f x u s).raw = s.raw := rfl
@[simp] theorem raise_strmCap (f : FaultCode) (x : BitVec 32) (u : UnitId) (s : State) : (raise f x u s).strmCap = s.strmCap := rfl
@[simp] theorem raise_dbufCap (f : FaultCode) (x : BitVec 32) (u : UnitId) (s : State) : (raise f x u s).dbufCap = s.dbufCap := rfl
@[simp] theorem raise_rawCap (f : FaultCode) (x : BitVec 32) (u : UnitId) (s : State) : (raise f x u s).rawCap = s.rawCap := rfl
@[simp] theorem raise_magTab (f : FaultCode) (x : BitVec 32) (u : UnitId) (s : State) : (raise f x u s).magTab = s.magTab := rfl
@[simp] theorem raise_avgTab (f : FaultCode) (x : BitVec 32) (u : UnitId) (s : State) : (raise f x u s).avgTab = s.avgTab := rfl
@[simp] theorem raise_draws (f : FaultCode) (x : BitVec 32) (u : UnitId) (s : State) : (raise f x u s).draws = s.draws := rfl
@[simp] theorem raise_portDraws (f : FaultCode) (x : BitVec 32) (u : UnitId) (s : State) : (raise f x u s).portDraws = s.portDraws := rfl
@[simp] theorem raise_epoch (f : FaultCode) (x : BitVec 32) (u : UnitId) (s : State) : (raise f x u s).epoch = s.epoch := rfl
@[simp] theorem raise_events (f : FaultCode) (x : BitVec 32) (u : UnitId) (s : State) : (raise f x u s).events = s.events := rfl
@[simp] theorem raise_rdata (f : FaultCode) (x : BitVec 32) (u : UnitId) (s : State) : (raise f x u s).rdata = s.rdata := rfl

/-! `acknowledge`: one lemma per field. -/

@[simp] theorem acknowledge_st (s : State) : (acknowledge s).st = .idle := rfl
@[simp] theorem acknowledge_unit (s : State) : (acknowledge s).unit = .none := rfl
@[simp] theorem acknowledge_undef (s : State) : (acknowledge s).undef = false := rfl
@[simp] theorem acknowledge_fcode (s : State) : (acknowledge s).fcode = 0 := rfl
@[simp] theorem acknowledge_finfo (s : State) : (acknowledge s).finfo = 0 := rfl
@[simp] theorem acknowledge_ien (s : State) : (acknowledge s).ien = s.ien := rfl
@[simp] theorem acknowledge_slen (s : State) : (acknowledge s).slen = s.slen := rfl
@[simp] theorem acknowledge_dlen (s : State) : (acknowledge s).dlen = s.dlen := rfl
@[simp] theorem acknowledge_width (s : State) : (acknowledge s).width = s.width := rfl
@[simp] theorem acknowledge_height (s : State) : (acknowledge s).height = s.height := rfl
@[simp] theorem acknowledge_pixsz (s : State) : (acknowledge s).pixsz = s.pixsz := rfl
@[simp] theorem acknowledge_spos (s : State) : (acknowledge s).spos = s.spos := rfl
@[simp] theorem acknowledge_dpos (s : State) : (acknowledge s).dpos = s.dpos := rfl
@[simp] theorem acknowledge_ctl (s : State) : (acknowledge s).ctl = s.ctl := rfl
@[simp] theorem acknowledge_row (s : State) : (acknowledge s).row = s.row := rfl
@[simp] theorem acknowledge_v (s : State) : (acknowledge s).v = s.v := rfl
@[simp] theorem acknowledge_count (s : State) : (acknowledge s).count = s.count := rfl
@[simp] theorem acknowledge_offset (s : State) : (acknowledge s).offset = s.offset := rfl
@[simp] theorem acknowledge_n (s : State) : (acknowledge s).n = s.n := rfl
@[simp] theorem acknowledge_i (s : State) : (acknowledge s).i = s.i := rfl
@[simp] theorem acknowledge_mode (s : State) : (acknowledge s).mode = s.mode := rfl
@[simp] theorem acknowledge_c (s : State) : (acknowledge s).c = s.c := rfl
@[simp] theorem acknowledge_k (s : State) : (acknowledge s).k = s.k := rfl
@[simp] theorem acknowledge_sraw (s : State) : (acknowledge s).sraw = s.sraw := rfl
@[simp] theorem acknowledge_svert (s : State) : (acknowledge s).svert = s.svert := rfl
@[simp] theorem acknowledge_savg (s : State) : (acknowledge s).savg = s.savg := rfl
@[simp] theorem acknowledge_strm (s : State) : (acknowledge s).strm = s.strm := rfl
@[simp] theorem acknowledge_dbuf (s : State) : (acknowledge s).dbuf = s.dbuf := rfl
@[simp] theorem acknowledge_raw (s : State) : (acknowledge s).raw = s.raw := rfl
@[simp] theorem acknowledge_strmCap (s : State) : (acknowledge s).strmCap = s.strmCap := rfl
@[simp] theorem acknowledge_dbufCap (s : State) : (acknowledge s).dbufCap = s.dbufCap := rfl
@[simp] theorem acknowledge_rawCap (s : State) : (acknowledge s).rawCap = s.rawCap := rfl
@[simp] theorem acknowledge_magTab (s : State) : (acknowledge s).magTab = s.magTab := rfl
@[simp] theorem acknowledge_avgTab (s : State) : (acknowledge s).avgTab = s.avgTab := rfl
@[simp] theorem acknowledge_draws (s : State) : (acknowledge s).draws = s.draws := rfl
@[simp] theorem acknowledge_portDraws (s : State) : (acknowledge s).portDraws = s.portDraws := rfl
@[simp] theorem acknowledge_epoch (s : State) : (acknowledge s).epoch = s.epoch := rfl
@[simp] theorem acknowledge_events (s : State) : (acknowledge s).events = s.events := rfl
@[simp] theorem acknowledge_rdata (s : State) : (acknowledge s).rdata = s.rdata := rfl

/-! `activate`: one lemma per field. -/

@[simp] theorem activate_st (u : UnitId) (s : State) : (activate u s).st = .busy := rfl
@[simp] theorem activate_unit (u : UnitId) (s : State) : (activate u s).unit = u := rfl
@[simp] theorem activate_undef (u : UnitId) (s : State) : (activate u s).undef = false := rfl
@[simp] theorem activate_fcode (u : UnitId) (s : State) : (activate u s).fcode = s.fcode := rfl
@[simp] theorem activate_finfo (u : UnitId) (s : State) : (activate u s).finfo = s.finfo := rfl
@[simp] theorem activate_ien (u : UnitId) (s : State) : (activate u s).ien = s.ien := rfl
@[simp] theorem activate_slen (u : UnitId) (s : State) : (activate u s).slen = s.slen := rfl
@[simp] theorem activate_dlen (u : UnitId) (s : State) : (activate u s).dlen = s.dlen := rfl
@[simp] theorem activate_width (u : UnitId) (s : State) : (activate u s).width = s.width := rfl
@[simp] theorem activate_height (u : UnitId) (s : State) : (activate u s).height = s.height := rfl
@[simp] theorem activate_pixsz (u : UnitId) (s : State) : (activate u s).pixsz = s.pixsz := rfl
@[simp] theorem activate_spos (u : UnitId) (s : State) : (activate u s).spos = s.spos := rfl
@[simp] theorem activate_dpos (u : UnitId) (s : State) : (activate u s).dpos = s.dpos := rfl
@[simp] theorem activate_ctl (u : UnitId) (s : State) : (activate u s).ctl = s.ctl := rfl
@[simp] theorem activate_row (u : UnitId) (s : State) : (activate u s).row = s.row := rfl
@[simp] theorem activate_v (u : UnitId) (s : State) : (activate u s).v = s.v := rfl
@[simp] theorem activate_count (u : UnitId) (s : State) : (activate u s).count = s.count := rfl
@[simp] theorem activate_offset (u : UnitId) (s : State) : (activate u s).offset = s.offset := rfl
@[simp] theorem activate_n (u : UnitId) (s : State) : (activate u s).n = s.n := rfl
@[simp] theorem activate_i (u : UnitId) (s : State) : (activate u s).i = s.i := rfl
@[simp] theorem activate_mode (u : UnitId) (s : State) : (activate u s).mode = s.mode := rfl
@[simp] theorem activate_c (u : UnitId) (s : State) : (activate u s).c = s.c := rfl
@[simp] theorem activate_k (u : UnitId) (s : State) : (activate u s).k = s.k := rfl
@[simp] theorem activate_sraw (u : UnitId) (s : State) : (activate u s).sraw = s.sraw := rfl
@[simp] theorem activate_svert (u : UnitId) (s : State) : (activate u s).svert = s.svert := rfl
@[simp] theorem activate_savg (u : UnitId) (s : State) : (activate u s).savg = s.savg := rfl
@[simp] theorem activate_strm (u : UnitId) (s : State) : (activate u s).strm = s.strm := rfl
@[simp] theorem activate_dbuf (u : UnitId) (s : State) : (activate u s).dbuf = s.dbuf := rfl
@[simp] theorem activate_raw (u : UnitId) (s : State) : (activate u s).raw = s.raw := rfl
@[simp] theorem activate_strmCap (u : UnitId) (s : State) : (activate u s).strmCap = s.strmCap := rfl
@[simp] theorem activate_dbufCap (u : UnitId) (s : State) : (activate u s).dbufCap = s.dbufCap := rfl
@[simp] theorem activate_rawCap (u : UnitId) (s : State) : (activate u s).rawCap = s.rawCap := rfl
@[simp] theorem activate_magTab (u : UnitId) (s : State) : (activate u s).magTab = s.magTab := rfl
@[simp] theorem activate_avgTab (u : UnitId) (s : State) : (activate u s).avgTab = s.avgTab := rfl
@[simp] theorem activate_draws (u : UnitId) (s : State) : (activate u s).draws = s.draws := rfl
@[simp] theorem activate_portDraws (u : UnitId) (s : State) : (activate u s).portDraws = s.portDraws := rfl
@[simp] theorem activate_epoch (u : UnitId) (s : State) : (activate u s).epoch = s.epoch := rfl
@[simp] theorem activate_events (u : UnitId) (s : State) : (activate u s).events = s.events := rfl
@[simp] theorem activate_rdata (u : UnitId) (s : State) : (activate u s).rdata = s.rdata := rfl

/-! `complete`: one lemma per field. -/

@[simp] theorem complete_st (s : State) : (complete s).st = .done := rfl
@[simp] theorem complete_unit (s : State) : (complete s).unit = s.unit := rfl
@[simp] theorem complete_undef (s : State) : (complete s).undef = s.undef := rfl
@[simp] theorem complete_fcode (s : State) : (complete s).fcode = s.fcode := rfl
@[simp] theorem complete_finfo (s : State) : (complete s).finfo = s.finfo := rfl
@[simp] theorem complete_ien (s : State) : (complete s).ien = s.ien := rfl
@[simp] theorem complete_slen (s : State) : (complete s).slen = s.slen := rfl
@[simp] theorem complete_dlen (s : State) : (complete s).dlen = s.dlen := rfl
@[simp] theorem complete_width (s : State) : (complete s).width = s.width := rfl
@[simp] theorem complete_height (s : State) : (complete s).height = s.height := rfl
@[simp] theorem complete_pixsz (s : State) : (complete s).pixsz = s.pixsz := rfl
@[simp] theorem complete_spos (s : State) : (complete s).spos = s.spos := rfl
@[simp] theorem complete_dpos (s : State) : (complete s).dpos = s.dpos := rfl
@[simp] theorem complete_ctl (s : State) : (complete s).ctl = s.ctl := rfl
@[simp] theorem complete_row (s : State) : (complete s).row = s.row := rfl
@[simp] theorem complete_v (s : State) : (complete s).v = s.v := rfl
@[simp] theorem complete_count (s : State) : (complete s).count = s.count := rfl
@[simp] theorem complete_offset (s : State) : (complete s).offset = s.offset := rfl
@[simp] theorem complete_n (s : State) : (complete s).n = s.n := rfl
@[simp] theorem complete_i (s : State) : (complete s).i = s.i := rfl
@[simp] theorem complete_mode (s : State) : (complete s).mode = s.mode := rfl
@[simp] theorem complete_c (s : State) : (complete s).c = s.c := rfl
@[simp] theorem complete_k (s : State) : (complete s).k = s.k := rfl
@[simp] theorem complete_sraw (s : State) : (complete s).sraw = s.sraw := rfl
@[simp] theorem complete_svert (s : State) : (complete s).svert = s.svert := rfl
@[simp] theorem complete_savg (s : State) : (complete s).savg = s.savg := rfl
@[simp] theorem complete_strm (s : State) : (complete s).strm = s.strm := rfl
@[simp] theorem complete_dbuf (s : State) : (complete s).dbuf = s.dbuf := rfl
@[simp] theorem complete_raw (s : State) : (complete s).raw = s.raw := rfl
@[simp] theorem complete_strmCap (s : State) : (complete s).strmCap = s.strmCap := rfl
@[simp] theorem complete_dbufCap (s : State) : (complete s).dbufCap = s.dbufCap := rfl
@[simp] theorem complete_rawCap (s : State) : (complete s).rawCap = s.rawCap := rfl
@[simp] theorem complete_magTab (s : State) : (complete s).magTab = s.magTab := rfl
@[simp] theorem complete_avgTab (s : State) : (complete s).avgTab = s.avgTab := rfl
@[simp] theorem complete_draws (s : State) : (complete s).draws = s.draws := rfl
@[simp] theorem complete_portDraws (s : State) : (complete s).portDraws = s.portDraws := rfl
@[simp] theorem complete_epoch (s : State) : (complete s).epoch = s.epoch := rfl
@[simp] theorem complete_events (s : State) : (complete s).events = s.events := rfl
@[simp] theorem complete_rdata (s : State) : (complete s).rdata = s.rdata := rfl

/-! `releaseWorking`: every field but the working registers, the accumulators and the draw index is kept. -/

@[simp] theorem releaseWorking_st (s : State) : (releaseWorking s).st = s.st := rfl
@[simp] theorem releaseWorking_unit (s : State) : (releaseWorking s).unit = s.unit := rfl
@[simp] theorem releaseWorking_undef (s : State) : (releaseWorking s).undef = s.undef := rfl
@[simp] theorem releaseWorking_fcode (s : State) : (releaseWorking s).fcode = s.fcode := rfl
@[simp] theorem releaseWorking_finfo (s : State) : (releaseWorking s).finfo = s.finfo := rfl
@[simp] theorem releaseWorking_ien (s : State) : (releaseWorking s).ien = s.ien := rfl
@[simp] theorem releaseWorking_slen (s : State) : (releaseWorking s).slen = s.slen := rfl
@[simp] theorem releaseWorking_dlen (s : State) : (releaseWorking s).dlen = s.dlen := rfl
@[simp] theorem releaseWorking_width (s : State) : (releaseWorking s).width = s.width := rfl
@[simp] theorem releaseWorking_height (s : State) : (releaseWorking s).height = s.height := rfl
@[simp] theorem releaseWorking_pixsz (s : State) : (releaseWorking s).pixsz = s.pixsz := rfl
@[simp] theorem releaseWorking_spos (s : State) : (releaseWorking s).spos = s.spos := rfl
@[simp] theorem releaseWorking_dpos (s : State) : (releaseWorking s).dpos = s.dpos := rfl
@[simp] theorem releaseWorking_ctl (s : State) : (releaseWorking s).ctl = s.ctl := rfl
@[simp] theorem releaseWorking_row (s : State) : (releaseWorking s).row = s.row := rfl
@[simp] theorem releaseWorking_strm (s : State) : (releaseWorking s).strm = s.strm := rfl
@[simp] theorem releaseWorking_dbuf (s : State) : (releaseWorking s).dbuf = s.dbuf := rfl
@[simp] theorem releaseWorking_raw (s : State) : (releaseWorking s).raw = s.raw := rfl
@[simp] theorem releaseWorking_strmCap (s : State) : (releaseWorking s).strmCap = s.strmCap := rfl
@[simp] theorem releaseWorking_dbufCap (s : State) : (releaseWorking s).dbufCap = s.dbufCap := rfl
@[simp] theorem releaseWorking_rawCap (s : State) : (releaseWorking s).rawCap = s.rawCap := rfl
@[simp] theorem releaseWorking_magTab (s : State) : (releaseWorking s).magTab = s.magTab := rfl
@[simp] theorem releaseWorking_avgTab (s : State) : (releaseWorking s).avgTab = s.avgTab := rfl
@[simp] theorem releaseWorking_draws (s : State) : (releaseWorking s).draws = s.draws + 1 := rfl
@[simp] theorem releaseWorking_portDraws (s : State) : (releaseWorking s).portDraws = s.portDraws := rfl
@[simp] theorem releaseWorking_epoch (s : State) : (releaseWorking s).epoch = s.epoch := rfl
@[simp] theorem releaseWorking_events (s : State) : (releaseWorking s).events = s.events := rfl
@[simp] theorem releaseWorking_rdata (s : State) : (releaseWorking s).rdata = s.rdata := rfl

/-! `setMem`: the memory named is replaced, every other field is kept. -/

@[simp] theorem setMem_st (s : State) (x : MemId) (m : Memory) : (s.setMem x m).st = s.st := by cases x <;> rfl
@[simp] theorem setMem_unit (s : State) (x : MemId) (m : Memory) : (s.setMem x m).unit = s.unit := by cases x <;> rfl
@[simp] theorem setMem_undef (s : State) (x : MemId) (m : Memory) : (s.setMem x m).undef = s.undef := by cases x <;> rfl
@[simp] theorem setMem_fcode (s : State) (x : MemId) (m : Memory) : (s.setMem x m).fcode = s.fcode := by cases x <;> rfl
@[simp] theorem setMem_finfo (s : State) (x : MemId) (m : Memory) : (s.setMem x m).finfo = s.finfo := by cases x <;> rfl
@[simp] theorem setMem_ien (s : State) (x : MemId) (m : Memory) : (s.setMem x m).ien = s.ien := by cases x <;> rfl
@[simp] theorem setMem_slen (s : State) (x : MemId) (m : Memory) : (s.setMem x m).slen = s.slen := by cases x <;> rfl
@[simp] theorem setMem_dlen (s : State) (x : MemId) (m : Memory) : (s.setMem x m).dlen = s.dlen := by cases x <;> rfl
@[simp] theorem setMem_width (s : State) (x : MemId) (m : Memory) : (s.setMem x m).width = s.width := by cases x <;> rfl
@[simp] theorem setMem_height (s : State) (x : MemId) (m : Memory) : (s.setMem x m).height = s.height := by cases x <;> rfl
@[simp] theorem setMem_pixsz (s : State) (x : MemId) (m : Memory) : (s.setMem x m).pixsz = s.pixsz := by cases x <;> rfl
@[simp] theorem setMem_spos (s : State) (x : MemId) (m : Memory) : (s.setMem x m).spos = s.spos := by cases x <;> rfl
@[simp] theorem setMem_dpos (s : State) (x : MemId) (m : Memory) : (s.setMem x m).dpos = s.dpos := by cases x <;> rfl
@[simp] theorem setMem_ctl (s : State) (x : MemId) (m : Memory) : (s.setMem x m).ctl = s.ctl := by cases x <;> rfl
@[simp] theorem setMem_row (s : State) (x : MemId) (m : Memory) : (s.setMem x m).row = s.row := by cases x <;> rfl
@[simp] theorem setMem_v (s : State) (x : MemId) (m : Memory) : (s.setMem x m).v = s.v := by cases x <;> rfl
@[simp] theorem setMem_count (s : State) (x : MemId) (m : Memory) : (s.setMem x m).count = s.count := by cases x <;> rfl
@[simp] theorem setMem_offset (s : State) (x : MemId) (m : Memory) : (s.setMem x m).offset = s.offset := by cases x <;> rfl
@[simp] theorem setMem_n (s : State) (x : MemId) (m : Memory) : (s.setMem x m).n = s.n := by cases x <;> rfl
@[simp] theorem setMem_i (s : State) (x : MemId) (m : Memory) : (s.setMem x m).i = s.i := by cases x <;> rfl
@[simp] theorem setMem_mode (s : State) (x : MemId) (m : Memory) : (s.setMem x m).mode = s.mode := by cases x <;> rfl
@[simp] theorem setMem_c (s : State) (x : MemId) (m : Memory) : (s.setMem x m).c = s.c := by cases x <;> rfl
@[simp] theorem setMem_k (s : State) (x : MemId) (m : Memory) : (s.setMem x m).k = s.k := by cases x <;> rfl
@[simp] theorem setMem_sraw (s : State) (x : MemId) (m : Memory) : (s.setMem x m).sraw = s.sraw := by cases x <;> rfl
@[simp] theorem setMem_svert (s : State) (x : MemId) (m : Memory) : (s.setMem x m).svert = s.svert := by cases x <;> rfl
@[simp] theorem setMem_savg (s : State) (x : MemId) (m : Memory) : (s.setMem x m).savg = s.savg := by cases x <;> rfl
@[simp] theorem setMem_strm_strm (s : State) (m : Memory) : (s.setMem .strm m).strm = m := rfl
@[simp] theorem setMem_dbuf_strm (s : State) (m : Memory) : (s.setMem .dbuf m).strm = s.strm := rfl
@[simp] theorem setMem_raw_strm (s : State) (m : Memory) : (s.setMem .raw m).strm = s.strm := rfl
@[simp] theorem setMem_strm_dbuf (s : State) (m : Memory) : (s.setMem .strm m).dbuf = s.dbuf := rfl
@[simp] theorem setMem_dbuf_dbuf (s : State) (m : Memory) : (s.setMem .dbuf m).dbuf = m := rfl
@[simp] theorem setMem_raw_dbuf (s : State) (m : Memory) : (s.setMem .raw m).dbuf = s.dbuf := rfl
@[simp] theorem setMem_strm_raw (s : State) (m : Memory) : (s.setMem .strm m).raw = s.raw := rfl
@[simp] theorem setMem_dbuf_raw (s : State) (m : Memory) : (s.setMem .dbuf m).raw = s.raw := rfl
@[simp] theorem setMem_raw_raw (s : State) (m : Memory) : (s.setMem .raw m).raw = m := rfl
@[simp] theorem setMem_strmCap (s : State) (x : MemId) (m : Memory) : (s.setMem x m).strmCap = s.strmCap := by cases x <;> rfl
@[simp] theorem setMem_dbufCap (s : State) (x : MemId) (m : Memory) : (s.setMem x m).dbufCap = s.dbufCap := by cases x <;> rfl
@[simp] theorem setMem_rawCap (s : State) (x : MemId) (m : Memory) : (s.setMem x m).rawCap = s.rawCap := by cases x <;> rfl
@[simp] theorem setMem_magTab (s : State) (x : MemId) (m : Memory) : (s.setMem x m).magTab = s.magTab := by cases x <;> rfl
@[simp] theorem setMem_avgTab (s : State) (x : MemId) (m : Memory) : (s.setMem x m).avgTab = s.avgTab := by cases x <;> rfl
@[simp] theorem setMem_draws (s : State) (x : MemId) (m : Memory) : (s.setMem x m).draws = s.draws := by cases x <;> rfl
@[simp] theorem setMem_portDraws (s : State) (x : MemId) (m : Memory) : (s.setMem x m).portDraws = s.portDraws := by cases x <;> rfl
@[simp] theorem setMem_epoch (s : State) (x : MemId) (m : Memory) : (s.setMem x m).epoch = s.epoch := by cases x <;> rfl
@[simp] theorem setMem_events (s : State) (x : MemId) (m : Memory) : (s.setMem x m).events = s.events := by cases x <;> rfl
@[simp] theorem setMem_rdata (s : State) (x : MemId) (m : Memory) : (s.setMem x m).rdata = s.rdata := by cases x <;> rfl

/-! Selecting a memory and its capacity. -/

@[simp] theorem mem_strm (s : State) : s.mem .strm = s.strm := rfl
@[simp] theorem mem_dbuf (s : State) : s.mem .dbuf = s.dbuf := rfl
@[simp] theorem mem_raw (s : State) : s.mem .raw = s.raw := rfl
@[simp] theorem cap_strm (s : State) : s.cap .strm = s.strmCap.toNat := rfl
@[simp] theorem cap_dbuf (s : State) : s.cap .dbuf = s.dbufCap.toNat := rfl
@[simp] theorem cap_raw (s : State) : s.cap .raw = s.rawCap.toNat := rfl

theorem mem_setMem_same (s : State) (x : MemId) (m : Memory) : (s.setMem x m).mem x = m := by cases x <;> rfl

theorem mem_setMem_other (s : State) {x y : MemId} (h : y ≠ x) (m : Memory) : (s.setMem x m).mem y = s.mem y := by
  cases x <;> cases y <;> first | rfl | exact absurd rfl h

@[simp] theorem cap_setMem (s : State) (x y : MemId) (m : Memory) : (s.setMem x m).cap y = s.cap y := by
  cases x <;> cases y <;> rfl

/-! Outcomes. -/

@[simp] theorem mapNext_next (f : State → State) (s : State) : mapNext f (.next s) = .next (f s) := rfl
@[simp] theorem mapNext_fault (f : State → State) (r : Fault) : mapNext f (.fault r) = .fault r := rfl
@[simp] theorem mapNext_refused (f : State → State) (r : Refusal) : mapNext f (.refused r) = .refused r := rfl

/-- A mapped outcome is a next state exactly when the outcome is, and then it is the mapped state. -/
theorem mapNext_eq_next {f : State → State} {r : Result} {t : State} :
    mapNext f r = .next t ↔ ∃ s, r = .next s ∧ t = f s := by
  cases r <;> simp [mapNext, eq_comm]

end Sys2Proof.Machine
end

