-- ==== Sys2Proof/Laws/Config.lean ====
section
/-! SUPPORT. The configuration functions MAG and AVG: what a table gives, their values in the default configuration, and
that they depend on nothing but their tables. -/

namespace Sys2Proof.Machine

/-! ### Tables -/

@[simp] theorem tableValue_nil {α β : Type} [DecidableEq α] (d : β) (x : α) : tableValue d [] x = d := rfl

/-- The table of a function over some keys gives the function's value at each of them, whatever the default. -/
theorem tableValue_graph {α β : Type} [DecidableEq α] (d : β) (f : α → β) {keys : List α} {x : α} (h : x ∈ keys) :
    tableValue d (keys.map fun k => (k, f k)) x = f x := by
  induction keys with
  | nil => simp at h
  | cons k keys ih =>
    by_cases hk : k = x
    · subst hk; simp [tableValue]
    · simpa [tableValue, hk] using ih (by simpa [Ne.symm hk] using h)

/-- Every byte, in order. -/
def allBytes : List Byte := (List.range 256).map (BitVec.ofNat 8)

theorem mem_allBytes (b : Byte) : b ∈ allBytes :=
  List.mem_map.mpr ⟨b.toNat, List.mem_range.mpr b.isLt, by simp⟩

/-! ### MAG -/

/-- `MAG(0) = 0` in every configuration (42_filter_selector.md R151). -/
@[simp] theorem mag_zero (s : State) : s.mag 0#8 = 0 := rfl

/-- The default MAG (42_filter_selector.md R151). -/
theorem mag_default {s : State} (h : s.magTab = []) (x : Byte) : s.mag x = x.toNat := by
  unfold State.mag
  split_ifs with h0
  · subst h0; rfl
  · rw [h]; rfl

/-- MAG depends on nothing but its table. -/
theorem mag_congr {s t : State} (h : t.magTab = s.magTab) : t.mag = s.mag := by funext x; simp only [State.mag, h]

/-! ### AVG -/

/-- The default AVG (41_row_reconstruct.md R135). -/
theorem avg_default {s : State} (h : s.avgTab = []) (a b : Byte) : s.avg a b = avgDefault a b := by
  rw [State.avg, h]; rfl

/-- AVG depends on nothing but its table. -/
theorem avg_congr {s t : State} (h : t.avgTab = s.avgTab) : t.avg = s.avg := by funext a b; simp only [State.avg, h]

/-- The default AVG halves the exact sum: a byte, without wrapping. -/
@[simp] theorem avgDefault_toNat (a b : Byte) : (avgDefault a b).toNat = (a.toNat + b.toNat) / 2 := by
  have := a.isLt
  have := b.isLt
  simp [avgDefault]; omega

end Sys2Proof.Machine
end

