-- ==== Sys2Proof/Laws/Decode.lean ====
section
/-! SUPPORT. The fields of the encodings as arithmetic: one lemma per field, so that no proof about encodings unfolds a
bit slice. -/

namespace Sys2Proof

/-- Concatenation as arithmetic. -/
theorem append_toNat {p q : Nat} (a : BitVec p) (b : BitVec q) : (a ++ b).toNat = a.toNat * 2 ^ q + b.toNat := by
  rw [BitVec.toNat_append, ← Nat.shiftLeft_add_eq_or_of_lt b.isLt, Nat.shiftLeft_eq]

/-! ### Back-references -/

theorem refValue_toNat (b0 b1 : Byte) : (refValue b0 b1).toNat = b0.toNat + 256 * b1.toNat := by
  rw [refValue, append_toNat]; omega

theorem refOff_toNat (v : BitVec 16) : (refOff v).toNat = v.toNat / 16 := by
  simp only [refOff, BitVec.extractLsb'_toNat, Nat.shiftRight_eq_div_pow]; omega

theorem refC_toNat (v : BitVec 16) : (refC v).toNat = v.toNat % 8 := by
  simp [refC, BitVec.extractLsb'_toNat]

theorem refShort_iff (v : BitVec 16) : refShort v = true ↔ v.toNat / 8 % 2 = 1 := by
  simp [refShort, BitVec.getLsbD, Nat.testBit, Nat.shiftRight_eq_div_pow]

theorem refShort_false_iff (v : BitVec 16) : refShort v = false ↔ v.toNat / 8 % 2 = 0 := by
  rw [← Bool.not_eq_true, refShort_iff]; omega

theorem refWord_toNat (off : BitVec 12) (x : BitVec 1) (c : BitVec 3) :
    (refWord off x c).toNat = off.toNat * 16 + x.toNat * 8 + c.toNat := by
  rw [refWord, append_toNat, append_toNat]; omega

@[simp] theorem refOff_refWord (off : BitVec 12) (x : BitVec 1) (c : BitVec 3) : refOff (refWord off x c) = off := by
  apply BitVec.eq_of_toNat_eq
  rw [refOff_toNat, refWord_toNat]
  have := c.isLt
  have := x.isLt
  omega

@[simp] theorem refC_refWord (off : BitVec 12) (x : BitVec 1) (c : BitVec 3) : refC (refWord off x c) = c := by
  apply BitVec.eq_of_toNat_eq
  rw [refC_toNat, refWord_toNat]
  have := c.isLt
  omega

@[simp] theorem refShort_refWord_one (off : BitVec 12) (c : BitVec 3) : refShort (refWord off 1#1 c) = true := by
  rw [refShort_iff, refWord_toNat]
  have := c.isLt
  have : (1#1 : BitVec 1).toNat = 1 := rfl
  omega

@[simp] theorem refShort_refWord_zero (off : BitVec 12) (c : BitVec 3) : refShort (refWord off 0#1 c) = false := by
  rw [refShort_false_iff, refWord_toNat]
  have := c.isLt
  have : (0#1 : BitVec 1).toNat = 0 := rfl
  omega

/-- The two bytes of a value assemble to it. -/
@[simp] theorem refValue_bytes (v : BitVec 16) : refValue (v.extractLsb' 0 8) (v.extractLsb' 8 8) = v := by
  apply BitVec.eq_of_toNat_eq
  rw [refValue_toNat]
  simp only [BitVec.extractLsb'_toNat, Nat.shiftRight_eq_div_pow]
  have := v.isLt
  omega

/-- The value of two bytes has those bytes. -/
@[simp] theorem refBytes_refValue (b0 b1 : Byte) : refBytes (refValue b0 b1) = [b0, b1] := by
  have h0 := b0.isLt
  have h1 := b1.isLt
  have h := refValue_toNat b0 b1
  simp only [refBytes, List.cons.injEq, and_true]
  constructor <;> apply BitVec.eq_of_toNat_eq <;>
    simp only [BitVec.extractLsb'_toNat, Nat.shiftRight_eq_div_pow, h] <;> omega

/-- A value is made of its three fields. -/
theorem refWord_of_short {v : BitVec 16} (h : refShort v = true) : refWord (refOff v) 1#1 (refC v) = v := by
  apply BitVec.eq_of_toNat_eq
  rw [refShort_iff] at h
  rw [refWord_toNat, refOff_toNat, refC_toNat]
  have : (1#1 : BitVec 1).toNat = 1 := rfl
  omega

theorem refWord_of_long {v : BitVec 16} (h : refShort v = false) : refWord (refOff v) 0#1 (refC v) = v := by
  apply BitVec.eq_of_toNat_eq
  rw [refShort_false_iff] at h
  rw [refWord_toNat, refOff_toNat, refC_toNat]
  have : (0#1 : BitVec 1).toNat = 0 := rfl
  omega

/-! ### Row control bytes -/

theorem rowByte_toNat (ign : BitVec 6) (m1 m0 : BitVec 1) :
    (rowByte ign m1 m0).toNat = ign.toNat * 4 + m1.toNat * 2 + m0.toNat := by
  rw [rowByte, append_toNat, append_toNat]; omega

theorem bit0_iff (b : Byte) : b.getLsbD 0 = true ↔ b.toNat % 2 = 1 := by
  simp [BitVec.getLsbD, Nat.testBit]

theorem bit1_iff (b : Byte) : b.getLsbD 1 = true ↔ b.toNat / 2 % 2 = 1 := by
  simp [BitVec.getLsbD, Nat.testBit, Nat.shiftRight_eq_div_pow]

theorem bit0_false_iff (b : Byte) : b.getLsbD 0 = false ↔ b.toNat % 2 = 0 := by
  rw [← Bool.not_eq_true, bit0_iff]; omega

theorem bit1_false_iff (b : Byte) : b.getLsbD 1 = false ↔ b.toNat / 2 % 2 = 0 := by
  rw [← Bool.not_eq_true, bit1_iff]; omega

theorem ign_toNat (b : Byte) : (b.extractLsb' 2 6).toNat = b.toNat / 4 := by
  have := b.isLt
  simp only [BitVec.extractLsb'_toNat, Nat.shiftRight_eq_div_pow]; omega

theorem m1_toNat (b : Byte) : (b.extractLsb' 1 1).toNat = b.toNat / 2 % 2 := by
  simp only [BitVec.extractLsb'_toNat, Nat.shiftRight_eq_div_pow]

/-- The row instruction of a row control byte, by its low bits. -/
theorem rowInstr_raw {b : Byte} (h : b.toNat % 2 = 1) : rowInstr b = .rowRaw (b.extractLsb' 2 6) (b.extractLsb' 1 1) := by
  simp only [rowInstr, (bit0_iff b).2 h, if_true]

theorem rowInstr_vert {b : Byte} (h : b.toNat % 4 = 2) : rowInstr b = .rowVert (b.extractLsb' 2 6) := by
  simp only [rowInstr, (bit0_false_iff b).2 (by omega), (bit1_iff b).2 (by omega), if_true, Bool.false_eq_true, if_false]

theorem rowInstr_avg {b : Byte} (h : b.toNat % 4 = 0) : rowInstr b = .rowAvg (b.extractLsb' 2 6) := by
  simp only [rowInstr, (bit0_false_iff b).2 (by omega), (bit1_false_iff b).2 (by omega), Bool.false_eq_true, if_false]

/-! ### Command words -/

theorem commandWord_toNat (code : Byte) (ign : BitVec 24) :
    (commandWord code ign).toNat = ign.toNat * 256 + code.toNat := by
  rw [commandWord, append_toNat]; omega

theorem commandCode_toNat (w : Word32) : (w.extractLsb' 0 8 : Byte).toNat = w.toNat % 256 := by
  simp [BitVec.extractLsb'_toNat]

theorem commandIgn_toNat (w : Word32) : (w.extractLsb' 8 24 : BitVec 24).toNat = w.toNat / 256 := by
  have := w.isLt
  simp only [BitVec.extractLsb'_toNat, Nat.shiftRight_eq_div_pow]; omega

/-- Comparing the code field is comparing the value mod 256. -/
theorem commandCode_eq_iff (w : Word32) (c : Byte) : (w.extractLsb' 0 8 : Byte) = c ↔ w.toNat % 256 = c.toNat := by
  rw [← BitVec.toNat_inj, commandCode_toNat]

/-- A command word is its code under its ignored bits. -/
theorem commandWord_fields (w : Word32) : commandWord (w.extractLsb' 0 8) (w.extractLsb' 8 24) = w := by
  apply BitVec.eq_of_toNat_eq
  rw [commandWord_toNat, commandCode_toNat, commandIgn_toNat]; omega

/-- The four bytes of a word assemble to it. -/
theorem wordBytes_append (w : Word32) :
    (w.extractLsb' 24 8 ++ w.extractLsb' 16 8 ++ w.extractLsb' 8 8 ++ w.extractLsb' 0 8 : BitVec (8 + 8 + 8 + 8)) = w := by
  apply BitVec.eq_of_toNat_eq
  rw [append_toNat, append_toNat, append_toNat]
  simp only [BitVec.extractLsb'_toNat, Nat.shiftRight_eq_div_pow]
  have := w.isLt
  omega

/-- The bytes of the word four bytes assemble to are those bytes. -/
theorem wordBytes_of_append (b0 b1 b2 b3 : Byte) : wordBytes (b3 ++ b2 ++ b1 ++ b0) = [b0, b1, b2, b3] := by
  have h : (b3 ++ b2 ++ b1 ++ b0 : BitVec (8 + 8 + 8 + 8)).toNat =
      ((b3.toNat * 256 + b2.toNat) * 256 + b1.toNat) * 256 + b0.toNat := by
    rw [append_toNat, append_toNat, append_toNat]; omega
  have h0 := b0.isLt
  have h1 := b1.isLt
  have h2 := b2.isLt
  have h3 := b3.isLt
  simp only [wordBytes, List.cons.injEq, and_true]
  refine ⟨?_, ?_, ?_, ?_⟩ <;> apply BitVec.eq_of_toNat_eq <;>
    simp only [BitVec.extractLsb'_toNat, Nat.shiftRight_eq_div_pow] <;> rw [h] <;> omega

end Sys2Proof
end

