-- ==== Sys2Proof/Laws/Memory.lean ====
section
/-! SUPPORT. Reading after writing, the canonical form, and the ascending byte loop: what each operation over memories can
do, said once. -/

namespace Sys2Proof.Machine

/-! ### One byte -/

@[simp] theorem lookup_store_same (m : Memory) (a : Nat) (v : Byte) :
    Memory.lookup (Memory.store m a v) a = some v := by
  induction m with
  | nil => simp [Memory.store, Memory.lookup]
  | cons p m ih =>
    obtain ⟨b, w⟩ := p
    simp only [Memory.store]
    split
    · simp [Memory.lookup]
    · split
      · simp [Memory.lookup]
      · next h => simp [Memory.lookup, Ne.symm h, ih]

theorem lookup_store_other (m : Memory) {a c : Nat} (v : Byte) (h : c ≠ a) :
    Memory.lookup (Memory.store m a v) c = Memory.lookup m c := by
  induction m with
  | nil => simp [Memory.store, Memory.lookup, Ne.symm h]
  | cons p m ih =>
    obtain ⟨b, w⟩ := p
    simp only [Memory.store]
    split
    · simp [Memory.lookup, Ne.symm h]
    · split
      · next hab => subst hab; simp [Memory.lookup, Ne.symm h]
      · simp only [Memory.lookup, ih]

/-- What a byte reads after a write anywhere. -/
theorem lookup_store (m : Memory) (a c : Nat) (v : Byte) :
    Memory.lookup (Memory.store m a v) c = if c = a then some v else Memory.lookup m c := by
  split
  · next h => subst h; simp
  · next h => exact lookup_store_other m v h

theorem mem_store {m : Memory} {a : Nat} {v : Byte} {p : Host.Cell} (h : p ∈ Memory.store m a v) :
    p = (a, v) ∨ p ∈ m := by
  induction m with
  | nil => simpa [Memory.store] using h
  | cons q m ih =>
    obtain ⟨b, w⟩ := q
    simp only [Memory.store] at h
    split at h
    · simpa using h
    · split at h
      · rcases List.mem_cons.1 h with h | h
        · exact .inl h
        · exact .inr (List.mem_cons_of_mem _ h)
      · rcases List.mem_cons.1 h with h | h
        · exact .inr (by simp [h])
        · exact (ih h).imp_right (List.mem_cons_of_mem _)

/-- A write keeps the canonical form. -/
theorem store_wf {m : Memory} (h : Memory.wf m) (a : Nat) (v : Byte) : Memory.wf (Memory.store m a v) := by
  induction m with
  | nil => simp [Memory.store, Memory.wf]
  | cons q m ih =>
    obtain ⟨b, w⟩ := q
    obtain ⟨hb, hm⟩ := List.pairwise_cons.1 h
    simp only [Memory.store]
    split
    · next hab =>
      refine List.pairwise_cons.2 ⟨fun p hp => ?_, h⟩
      rcases List.mem_cons.1 hp with rfl | hp
      · exact hab
      · exact hab.trans (hb p hp)
    · split
      · next hab => subst hab; exact List.pairwise_cons.2 ⟨hb, hm⟩
      · refine List.pairwise_cons.2 ⟨fun p hp => ?_, ih hm⟩
        rcases mem_store hp with rfl | hp
        · simp; omega
        · exact hb p hp

/-- A write inside the capacity keeps a memory fitting. -/
theorem store_fits {m : Memory} {cap : Nat} (h : Memory.fits m cap) {a : Nat} (ha : a < cap) (v : Byte) :
    Memory.fits (Memory.store m a v) cap :=
  ⟨store_wf h.1 a v, fun p hp => (mem_store hp).elim (fun e => e ▸ ha) (h.2 p)⟩

theorem fits_nil (cap : Nat) : Memory.fits [] cap := ⟨List.Pairwise.nil, by simp⟩

/-! ### The byte loop -/

@[simp] theorem fillUp_zero (g : Memory → Nat → Byte) (base k : Nat) (m : Memory) : fillUp g base 0 k m = m := rfl

theorem fillUp_succ (g : Memory → Nat → Byte) (base n k : Nat) (m : Memory) :
    fillUp g base (n + 1) k m = fillUp g base n (k + 1) (Memory.store m (base + k) (g m k)) := rfl

/-- A loop is its first part followed by the rest. -/
theorem fillUp_add (g : Memory → Nat → Byte) (base p q k : Nat) (m : Memory) :
    fillUp g base (p + q) k m = fillUp g base q (k + p) (fillUp g base p k m) := by
  induction p generalizing k m with
  | zero => simp
  | succ p ih =>
    rw [show p + 1 + q = (p + q) + 1 by omega, fillUp_succ, ih, fillUp_succ]
    congr 1
    omega

/-- The last iteration. -/
theorem fillUp_last (g : Memory → Nat → Byte) (base n k : Nat) (m : Memory) :
    fillUp g base (n + 1) k m =
      Memory.store (fillUp g base n k m) (base + (k + n)) (g (fillUp g base n k m) (k + n)) := by
  rw [fillUp_add]; rfl

/-- The loop writes only the addresses it runs over. -/
theorem lookup_fillUp_outside (g : Memory → Nat → Byte) (base n k : Nat) (m : Memory) {a : Nat}
    (h : a < base + k ∨ base + k + n ≤ a) : Memory.lookup (fillUp g base n k m) a = Memory.lookup m a := by
  induction n generalizing k m with
  | zero => rfl
  | succ n ih =>
    rw [fillUp_succ, ih (k + 1) _ (by omega), lookup_store_other _ _ (by omega)]

/-- The byte the loop writes at index `j`: what `g` answers on the content the earlier iterations left. -/
theorem lookup_fillUp_inside (g : Memory → Nat → Byte) (base n k : Nat) (m : Memory) {j : Nat}
    (h1 : k ≤ j) (h2 : j < k + n) :
    Memory.lookup (fillUp g base n k m) (base + j) = some (g (fillUp g base (j - k) k m) j) := by
  obtain ⟨p, rfl⟩ : ∃ p, j = k + p := ⟨j - k, by omega⟩
  obtain ⟨q, rfl⟩ : ∃ q, n = (p + 1) + q := ⟨n - (p + 1), by omega⟩
  rw [fillUp_add, lookup_fillUp_outside _ _ _ _ _ (by omega), fillUp_last, lookup_store_same]
  simp

/-- While the loop runs, what lies below the index it has reached is final. -/
theorem lookup_fillUp_prefix (g : Memory → Nat → Byte) (base n k : Nat) (m : Memory) {p a : Nat}
    (hp : p ≤ n) (ha : a < base + (k + p) ∨ base + (k + n) ≤ a) :
    Memory.lookup (fillUp g base p k m) a = Memory.lookup (fillUp g base n k m) a := by
  obtain ⟨q, rfl⟩ : ∃ q, n = p + q := ⟨n - p, by omega⟩
  rw [fillUp_add]
  exact (lookup_fillUp_outside _ _ _ _ _ (by omega)).symm

/-- A loop whose bytes do not depend on the content it writes. -/
theorem lookup_fillUp_const (f : Nat → Byte) (base n k : Nat) (m : Memory) {j : Nat} (h1 : k ≤ j) (h2 : j < k + n) :
    Memory.lookup (fillUp (fun _ i => f i) base n k m) (base + j) = some (f j) :=
  lookup_fillUp_inside _ base n k m h1 h2

/-- Two loops whose bytes agree where they run are one loop. -/
theorem fillUp_congr {g h : Memory → Nat → Byte} {base n k : Nat} {m : Memory}
    (H : ∀ m j, k ≤ j → j < k + n → g m j = h m j) : fillUp g base n k m = fillUp h base n k m := by
  induction n generalizing k m with
  | zero => rfl
  | succ n ih =>
    rw [fillUp_succ, fillUp_succ, H m k (by omega) (by omega)]
    exact ih fun m j h1 h2 => H m j (by omega) (by omega)

theorem fillUp_wf (g : Memory → Nat → Byte) (base n k : Nat) {m : Memory} (h : Memory.wf m) :
    Memory.wf (fillUp g base n k m) := by
  induction n generalizing k m with
  | zero => exact h
  | succ n ih => exact ih _ (store_wf h _ _)

/-- A loop inside the capacity keeps a memory fitting. -/
theorem fillUp_fits (g : Memory → Nat → Byte) {base n k cap : Nat} {m : Memory} (h : Memory.fits m cap)
    (hc : base + k + n ≤ cap) : Memory.fits (fillUp g base n k m) cap := by
  induction n generalizing k m with
  | zero => exact h
  | succ n ih => exact ih (store_fits h (by omega) _) (by omega)

/-! ### Reading -/

theorem readIn_congr {epoch : Nat} {x : MemId} {m m' : Memory} {a : Nat}
    (h : Memory.lookup m a = Memory.lookup m' a) : readIn epoch x m a = readIn epoch x m' a := by
  simp [readIn, h]

theorem readIn_of_lookup {epoch : Nat} {x : MemId} {m : Memory} {a : Nat} {v : Byte}
    (h : Memory.lookup m a = some v) : readIn epoch x m a = v := by simp [readIn, h]

/-- Reading a byte after writing one. -/
theorem readIn_store (epoch : Nat) (x : MemId) (m : Memory) (a c : Nat) (v : Byte) :
    readIn epoch x (Memory.store m a v) c = if c = a then v else readIn epoch x m c := by
  rw [readIn, lookup_store]; split <;> simp [readIn]

theorem readIn_fillUp_outside (epoch : Nat) (x : MemId) (g : Memory → Nat → Byte) (base n k : Nat) (m : Memory) {a : Nat}
    (h : a < base + k ∨ base + k + n ≤ a) : readIn epoch x (fillUp g base n k m) a = readIn epoch x m a :=
  readIn_congr (lookup_fillUp_outside g base n k m h)

theorem readIn_fillUp_inside (epoch : Nat) (x : MemId) (g : Memory → Nat → Byte) (base n k : Nat) (m : Memory) {j : Nat}
    (h1 : k ≤ j) (h2 : j < k + n) :
    readIn epoch x (fillUp g base n k m) (base + j) = g (fillUp g base (j - k) k m) j :=
  readIn_of_lookup (lookup_fillUp_inside g base n k m h1 h2)

theorem readIn_fillUp_const (epoch : Nat) (x : MemId) (f : Nat → Byte) (base n k : Nat) (m : Memory) {j : Nat}
    (h1 : k ≤ j) (h2 : j < k + n) : readIn epoch x (fillUp (fun _ i => f i) base n k m) (base + j) = f j :=
  readIn_fillUp_inside epoch x _ base n k m h1 h2

/-- A read the loop makes below its index is the read of the final content. -/
theorem readIn_fillUp_prefix (epoch : Nat) (x : MemId) (g : Memory → Nat → Byte) (base n k : Nat) (m : Memory) {p a : Nat}
    (hp : p ≤ n) (ha : a < base + (k + p) ∨ base + (k + n) ≤ a) :
    readIn epoch x (fillUp g base p k m) a = readIn epoch x (fillUp g base n k m) a :=
  readIn_congr (lookup_fillUp_prefix g base n k m hp ha)

theorem readByte_eq (s : State) (x : MemId) (a : Nat) : s.readByte x a = readIn s.epoch x (s.mem x) a := rfl

/-- A write is read back. -/
theorem readByte_writeByte_same (s : State) (x : MemId) (a : Nat) (b : Byte) : (s.writeByte x a b).readByte x a = b := by
  cases x <;> simp [State.readByte, State.writeByte, readIn]

/-- A write leaves every other byte of every memory alone. -/
theorem readByte_writeByte_other (s : State) {x y : MemId} {a c : Nat} (b : Byte) (h : y ≠ x ∨ c ≠ a) :
    (s.writeByte x a b).readByte y c = s.readByte y c := by
  cases x <;> cases y <;>
    first
    | rfl
    | (have hc : c ≠ a := h.resolve_left (fun hn => hn rfl)
       simp [State.readByte, State.writeByte, readIn, lookup_store_other _ _ hc])

theorem length_readBytes (s : State) (x : MemId) (a n : Nat) : (s.readBytes x a n).length = n := by
  induction n generalizing a with
  | zero => rfl
  | succ n ih => simp [State.readBytes, ih]

end Sys2Proof.Machine
end

