-- ==== Sys2Proof/Laws/Row.lean ====
section
/-! SUPPORT. The row and filter families' shared operations: where a row's bytes lie, what the loops leave in RAW and in
DBUF, and what each operation can answer. -/

namespace Sys2Proof.Machine

/-! ### Addresses -/

theorem rawAddr_add (s : State) (r k : Nat) : s.rawAddr r k = s.rawAddr r 0 + k := by simp [State.rawAddr]

theorem pixAddr_add (s : State) (r k : Nat) : s.pixAddr r k = s.pixAddr r 0 + k := by simp [State.pixAddr]

/-- A row ends where the next begins. -/
theorem rawAddr_stride (s : State) (r : Nat) : s.rawAddr r s.stride = s.rawAddr (r + 1) 0 := by
  simp [State.rawAddr, Nat.succ_mul]

/-- A row of the image ends inside the raw pixel buffer. -/
theorem rawAddr_le_image {s : State} {r : Nat} (h : r < s.height.toNat) : s.rawAddr r s.stride ≤ s.imageBytes := by
  have : (r + 1) * s.stride ≤ s.height.toNat * s.stride := Nat.mul_le_mul_right _ h
  simp only [State.rawAddr, State.imageBytes]
  rw [Nat.succ_mul] at this
  omega

/-- A row of the image ends inside the decompressed buffer. -/
theorem pixAddr_le_buffer {s : State} {r : Nat} (h : r < s.height.toNat) : s.pixAddr r s.stride ≤ s.expectedLen := by
  have := rawAddr_le_image h
  simp only [State.rawAddr, State.pixAddr, State.expectedLen] at *
  omega

/-- With a legal geometry the first pixel lies inside the row. -/
theorem pixsz_le_stride {s : State} (h : legalGeometry s) : s.pixsz.toNat ≤ s.stride := by
  have := Nat.mul_le_mul_right s.pixsz.toNat h.1
  simpa [State.stride] using this

theorem rowSpan_eq {s : State} (h : legalGeometry s) : s.rowSpan = s.stride :=
  Nat.max_eq_left (pixsz_le_stride h)

/-- `E` as the spec writes it (20_memory.md R48). -/
theorem expectedLen_eq (s : State) :
    s.expectedLen = 8 + s.height.toNat + s.height.toNat * s.width.toNat * s.pixsz.toNat := by
  simp [State.expectedLen, State.imageBytes, State.stride, Nat.mul_assoc]

theorem imageBytes_eq (s : State) : s.imageBytes = s.height.toNat * s.width.toNat * s.pixsz.toNat := by
  simp [State.imageBytes, State.stride, Nat.mul_assoc]

/-! ### Results of the shared operations -/

/-- While RFR runs, every address of a row of the image exists (20_memory.md R59). -/
theorem rowFault_none {s : State} (h : RfrRun s) (hr : s.row.toNat < s.height.toNat) : rowFault s = none := by
  have h1 := pixAddr_le_buffer hr
  have h2 := rawAddr_le_image hr
  have h3 := h.dlen_le
  have h4 := h.image_le
  rw [h.dlen_eq] at h3
  simp only [rowFault, rowSpan_eq h.geometry]
  rw [if_neg (by omega), if_neg (by omega)]

/-- While FSF runs, every address of a row of the image exists (20_memory.md R59). -/
theorem filterFault_none {s : State} (h : FsfRun s) (hr : s.row.toNat < s.height.toNat) : filterFault s = none := by
  have h1 := pixAddr_le_buffer hr
  have h2 := rawAddr_le_image hr
  have h3 := h.buffer_le
  have h4 := h.image_le
  have h5 : ctlAddr s.row.toNat + 1 ≤ s.expectedLen := by simp only [ctlAddr, State.expectedLen]; omega
  simp only [filterFault, rowSpan_eq h.geometry]
  rw [if_neg (by omega), if_neg (by omega), if_neg (by omega)]

theorem execRowRaw_next {ign : BitVec 6} {m1 : BitVec 1} {s : State} (h : rowFault s = none) :
    execRowRaw ign m1 s = .next (rowDone (rowByte ign m1 1#1) .raw false (rowRawMem s) s) := by
  simp only [execRowRaw, h]

theorem execRowVert_next {ign : BitVec 6} {s : State} (h : rowFault s = none) :
    execRowVert ign s =
      .next (rowDone (rowByte ign 1#1 0#1) .vertical (decide (0 < s.stride)) (rowVertMem s) s) := by
  simp only [execRowVert, h]

theorem execRowAvg_next {ign : BitVec 6} {s : State} (h : rowFault s = none) :
    execRowAvg ign s =
      .next (rowDone (rowByte ign 0#1 0#1) .average (decide (s.pixsz.toNat < s.stride)) (rowAvgMem s) s) := by
  simp only [execRowAvg, h]

theorem execFwdRaw_next {s : State} (h : filterFault s = none) :
    execFwdRaw s = .next (filterDone .raw (fwdRawMem s) s) := by
  simp only [execFwdRaw, h]

theorem execFwdVert_next {s : State} (h : filterFault s = none) (hr : s.row.toNat ≠ 0) :
    execFwdVert s = .next (filterDone .vertical (fwdVertMem s) s) := by
  simp only [execFwdVert, h, if_neg hr]

/-- `ROW <- ROW + 1` does not wrap. -/
theorem row_succ_toNat {s : State} (hr : s.row.toNat < s.height.toNat) :
    (BitVec.ofNat 17 (s.row.toNat + 1)).toNat = s.row.toNat + 1 := by
  have := s.height.isLt
  simp; omega

/-! ### What the row loops leave in RAW -/

theorem readIn_firstPixel_outside {s : State} {a : Nat}
    (h : a < s.rawAddr s.row.toNat 0 ∨ s.rawAddr s.row.toNat s.pixsz.toNat ≤ a) :
    readIn s.epoch .raw (firstPixelMem s) a = s.readByte .raw a := by
  rw [rawAddr_add s _ s.pixsz.toNat] at h
  exact readIn_fillUp_outside _ _ _ _ _ _ _ (by omega)

theorem readIn_firstPixel_inside {s : State} {k : Nat} (hk : k < s.pixsz.toNat) :
    readIn s.epoch .raw (firstPixelMem s) (s.rawAddr s.row.toNat k) = s.filteredByte s.row.toNat k := by
  rw [rawAddr_add]
  exact readIn_fillUp_const _ _ _ _ _ _ _ (Nat.zero_le k) (by omega)

/-- The loop over the rest of a row whose byte at `k` is `f` of the output one pixel to the left, as it stands when the
loop reaches `k`: afterwards the same equation holds of the final content. -/
theorem readIn_rest_inside {s : State} {f : Memory → Nat → Byte} {m : Memory} {k : Nat}
    (hf : ∀ m' j, s.pixsz.toNat ≤ j → j < s.stride →
      readIn s.epoch .raw m' (s.rawAddr s.row.toNat (j - s.pixsz.toNat)) =
        readIn s.epoch .raw (fillUp f (s.rawAddr s.row.toNat 0) (s.stride - s.pixsz.toNat) s.pixsz.toNat m)
          (s.rawAddr s.row.toNat (j - s.pixsz.toNat)) →
      (∀ a, a < s.rawAddr s.row.toNat 0 → readIn s.epoch .raw m' a = readIn s.epoch .raw m a) →
      f m' j = f (fillUp f (s.rawAddr s.row.toNat 0) (s.stride - s.pixsz.toNat) s.pixsz.toNat m) j)
    (hp : 1 ≤ s.pixsz.toNat) (h1 : s.pixsz.toNat ≤ k) (h2 : k < s.stride) :
    readIn s.epoch .raw (fillUp f (s.rawAddr s.row.toNat 0) (s.stride - s.pixsz.toNat) s.pixsz.toNat m)
        (s.rawAddr s.row.toNat k) =
      f (fillUp f (s.rawAddr s.row.toNat 0) (s.stride - s.pixsz.toNat) s.pixsz.toNat m) k := by
  rw [rawAddr_add s _ k, readIn_fillUp_inside _ _ _ _ _ _ _ h1 (by omega)]
  refine hf _ k h1 h2 ?_ fun a ha => readIn_fillUp_outside _ _ _ _ _ _ _ (.inl (by omega))
  rw [rawAddr_add s _ (k - s.pixsz.toNat)]
  exact readIn_fillUp_prefix _ _ _ _ _ _ _ (by omega) (by omega)

/-- The rest of a row leaves everything outside it alone. -/
theorem readIn_rest_outside {s : State} (f : Memory → Nat → Byte) (m : Memory) {a : Nat}
    (hp : s.pixsz.toNat ≤ s.stride)
    (h : a < s.rawAddr s.row.toNat s.pixsz.toNat ∨ s.rawAddr s.row.toNat s.stride ≤ a) :
    readIn s.epoch .raw (fillUp f (s.rawAddr s.row.toNat 0) (s.stride - s.pixsz.toNat) s.pixsz.toNat m) a =
      readIn s.epoch .raw m a := by
  rw [rawAddr_add, rawAddr_add s _ s.stride] at h
  exact readIn_fillUp_outside _ _ _ _ _ _ _ (by omega)

/-! ### What the filter loops leave in DBUF -/

theorem readIn_fwdRawMem_rest {s : State} {k : Nat} (h1 : s.pixsz.toNat ≤ k) (h2 : k < s.stride) :
    readIn s.epoch .dbuf (fwdRawMem s) (s.pixAddr s.row.toNat k) = s.resRaw s.row.toNat k := by
  rw [pixAddr_add]
  exact readIn_fillUp_const _ _ _ _ _ _ _ h1 (by omega)

theorem readIn_fwdRawMem_first {s : State} {k : Nat} (h : k < s.pixsz.toNat) :
    readIn s.epoch .dbuf (fwdRawMem s) (s.pixAddr s.row.toNat k) = s.rawByte s.row.toNat k := by
  rw [pixAddr_add, fwdRawMem, readIn_fillUp_outside _ _ _ _ _ _ _ (by omega)]
  exact readIn_fillUp_const _ _ _ _ _ _ _ (Nat.zero_le k) (by omega)

theorem readIn_fwdRawMem_outside {s : State} (hp : s.pixsz.toNat ≤ s.stride) {a : Nat}
    (h : a < s.pixAddr s.row.toNat 0 ∨ s.pixAddr s.row.toNat s.stride ≤ a) :
    readIn s.epoch .dbuf (fwdRawMem s) a = if a = ctlAddr s.row.toNat then 0x01#8 else s.readByte .dbuf a := by
  rw [pixAddr_add s _ s.stride] at h
  rw [fwdRawMem, readIn_fillUp_outside _ _ _ _ _ _ _ (by omega), readIn_fillUp_outside _ _ _ _ _ _ _ (by omega),
    readIn_store]
  rfl

theorem readIn_fwdVertMem_inside {s : State} {k : Nat} (h : k < s.stride) :
    readIn s.epoch .dbuf (fwdVertMem s) (s.pixAddr s.row.toNat k) = s.resVert s.row.toNat k := by
  rw [pixAddr_add]
  exact readIn_fillUp_const _ _ _ _ _ _ _ (Nat.zero_le k) (by omega)

theorem readIn_fwdVertMem_outside {s : State} {a : Nat}
    (h : a < s.pixAddr s.row.toNat 0 ∨ s.pixAddr s.row.toNat s.stride ≤ a) :
    readIn s.epoch .dbuf (fwdVertMem s) a = if a = ctlAddr s.row.toNat then 0x02#8 else s.readByte .dbuf a := by
  rw [pixAddr_add s _ s.stride] at h
  rw [fwdVertMem, readIn_fillUp_outside _ _ _ _ _ _ _ (by omega), readIn_store]
  rfl

/-! ### Sums -/

/-- The loop's sum as a sum over an interval. -/
theorem sumUp_eq_sum (f : Nat → Nat) (n k : Nat) : sumUp f n k = ∑ j ∈ Finset.Ico k (k + n), f j := by
  induction n generalizing k with
  | zero => simp [sumUp]
  | succ n ih =>
    rw [sumUp, ih, Finset.sum_eq_sum_Ico_succ_bot (by omega : k < k + (n + 1)), show k + 1 + n = k + (n + 1) by omega]

end Sys2Proof.Machine
end

