-- ==== Sys2Proof/Laws/Token.lean ====
section
/-! SUPPORT. The token family's shared operations: the control word as arithmetic, what CopyBack leaves in DBUF, and what
each operation can answer, said once. -/

namespace Sys2Proof.Machine

/-! ### The control word -/

@[simp] theorem shiftCtl_toNat (c : BitVec 9) : (shiftCtl c).toNat = c.toNat / 2 := by
  simp [shiftCtl, Nat.shiftRight_eq_div_pow]

theorem exhausted_iff (c : BitVec 9) : exhausted c = true ↔ c.toNat = 1 := by
  rw [exhausted, beq_iff_eq, ← BitVec.toNat_inj]; rfl

theorem exhausted_shift_iff (c : BitVec 9) : exhausted (shiftCtl c) = true ↔ c.toNat / 2 = 1 := by
  rw [exhausted_iff, shiftCtl_toNat]

@[simp] theorem reloadCtl_toNat (b : Byte) : (reloadCtl b).toNat = 256 + b.toNat := by
  rw [reloadCtl, append_toNat]
  have : (1#1 : BitVec 1).toNat = 1 := rfl
  omega

/-! ### Results of the shared operations -/

/-- A TSD fault, written out (60_exceptions.md R215). -/
theorem tsdFault_eq (f : FaultCode) (s : State) :
    tsdFault f s = .next { s with fcode := f.code, finfo := s.spos, st := .fault, unit := .tsd } := rfl

/-- CTLB with a reload due and the stream not at its end (R102). -/
theorem execCtlb_reload {b : Byte} {s : State} (h : s.ctl.toNat / 2 = 1) (hs : s.spos.toNat < s.slen.toNat) :
    execCtlb b s = .next { s with ctl := reloadCtl b, spos := BitVec.ofNat 32 (s.spos.toNat + 1) } := by
  rw [execCtlb, if_pos ((exhausted_shift_iff _).2 h), if_neg (by omega)]

/-- CTLB with a reload due at the end of the stream (R102). -/
theorem execCtlb_truncated {b : Byte} {s : State} (h : s.ctl.toNat / 2 = 1) (hs : s.slen.toNat ≤ s.spos.toNat) :
    execCtlb b s = tsdFault .truncatedStream s := by
  rw [execCtlb, if_pos ((exhausted_shift_iff _).2 h), if_pos hs]

/-- CTLB with no reload due (R102). -/
theorem execCtlb_shift {b : Byte} {s : State} (h : s.ctl.toNat / 2 ≠ 1) :
    execCtlb b s = .next { s with ctl := shiftCtl s.ctl } := by
  rw [execCtlb, if_neg (by rw [exhausted_shift_iff]; exact h)]

/-- Everything LIT can answer (R104): a fault of the block, the model's stop, or the copied run. -/
theorem execLit_cases (data : List Byte) (s : State) :
    (s.slen.toNat < s.spos.toNat + 1 + data.length ∧ execLit data s = tsdFault .truncatedStream s) ∨
    (s.spos.toNat + 1 + data.length ≤ s.slen.toNat ∧ s.dlen.toNat < s.dpos.toNat + data.length ∧
      execLit data s = tsdFault .outputOverrun s) ∨
    (s.spos.toNat + 1 + data.length ≤ s.slen.toNat ∧ s.dpos.toNat + data.length ≤ s.dlen.toNat ∧
      s.cap .dbuf < s.dpos.toNat + data.length ∧ execLit data s = .fault (.noSuchAddress .dbuf)) ∨
    (s.spos.toNat + 1 + data.length ≤ s.slen.toNat ∧ s.dpos.toNat + data.length ≤ s.dlen.toNat ∧
      s.dpos.toNat + data.length ≤ s.cap .dbuf ∧ execLit data s = .next (literalDone data s)) := by
  unfold execLit
  split_ifs with h1 h2 h3 h4
  · exact .inl ⟨by omega, rfl⟩
  · exact .inl ⟨by omega, rfl⟩
  · exact .inr (.inl ⟨by omega, h3, rfl⟩)
  · exact .inr (.inr (.inl ⟨by omega, by omega, h4, rfl⟩))
  · exact .inr (.inr (.inr ⟨by omega, by omega, by omega, rfl⟩))

/-- Everything CopyBack can answer (R107). -/
theorem copyBack_cases (v : BitVec 16) (off cnt len : Nat) (s : State) :
    ((off = 0 ∨ s.dpos.toNat < off) ∧ copyBack v off cnt len s = tsdFault .badReference s) ∨
    (1 ≤ off ∧ off ≤ s.dpos.toNat ∧ s.dlen.toNat < s.dpos.toNat + cnt ∧
      copyBack v off cnt len s = tsdFault .outputOverrun s) ∨
    (1 ≤ off ∧ off ≤ s.dpos.toNat ∧ s.dpos.toNat + cnt ≤ s.dlen.toNat ∧ s.cap .dbuf < s.dpos.toNat + cnt ∧
      copyBack v off cnt len s = .fault (.noSuchAddress .dbuf)) ∨
    (1 ≤ off ∧ off ≤ s.dpos.toNat ∧ s.dpos.toNat + cnt ≤ s.dlen.toNat ∧ s.dpos.toNat + cnt ≤ s.cap .dbuf ∧
      copyBack v off cnt len s = .next (copied v off cnt len s)) := by
  unfold copyBack
  split_ifs with h1 h2 h3
  · exact .inl ⟨h1, rfl⟩
  · exact .inr (.inl ⟨by omega, by omega, h2, rfl⟩)
  · exact .inr (.inr (.inl ⟨by omega, by omega, by omega, h3, rfl⟩))
  · exact .inr (.inr (.inr ⟨by omega, by omega, by omega, by omega, rfl⟩))

/-- Everything REF.S can answer: the stream's end, or what CopyBack answers (R105). -/
theorem execRefS_cases (off : BitVec 12) (c : BitVec 3) (s : State) :
    (s.slen.toNat < s.spos.toNat + 2 ∧ execRefS off c s = tsdFault .truncatedStream s) ∨
    (s.spos.toNat + 2 ≤ s.slen.toNat ∧
      execRefS off c s = copyBack (refWord off 1#1 c) off.toNat (countShort c) 2 s) := by
  unfold execRefS
  split_ifs with h
  · exact .inl ⟨h, rfl⟩
  · exact .inr ⟨by omega, rfl⟩

/-- Everything REF.L can answer (R106). -/
theorem execRefL_cases (off : BitVec 12) (c : BitVec 3) (e : Byte) (s : State) :
    (s.slen.toNat < s.spos.toNat + 3 ∧ execRefL off c e s = tsdFault .truncatedStream s) ∨
    (s.spos.toNat + 3 ≤ s.slen.toNat ∧
      execRefL off c e s = copyBack (refWord off 0#1 c) off.toNat (countLong c e) 3 s) := by
  unfold execRefL
  split_ifs with h h'
  · exact .inl ⟨by omega, rfl⟩
  · exact .inl ⟨by omega, rfl⟩
  · exact .inr ⟨by omega, rfl⟩

/-- Counts are within their ranges (30_encoding.md R76). -/
theorem countShort_le (c : BitVec 3) : countShort c ≤ 11 := by have := c.isLt; unfold countShort; omega
theorem countLong_le (c : BitVec 3) (e : Byte) : countLong c e ≤ 2051 := by
  have := c.isLt
  have := e.isLt
  unfold countLong; omega

/-! ### What CopyBack leaves in DBUF -/

/-- Outside the copied range nothing changes. -/
theorem readIn_copyBackMem_outside (off cnt : Nat) (s : State) {a : Nat}
    (h : a < s.dpos.toNat ∨ s.dpos.toNat + cnt ≤ a) :
    readIn s.epoch .dbuf (copyBackMem off cnt s) a = s.readByte .dbuf a :=
  readIn_fillUp_outside _ _ _ _ _ _ _ (by omega)

/-- Each copied byte is the byte OFFSET before it in the final content: the loop sees its own writes (R107). -/
theorem readIn_copyBackMem_step {off cnt : Nat} {s : State} (h1 : 1 ≤ off) (h2 : off ≤ s.dpos.toNat) {j : Nat}
    (hj : j < cnt) :
    readIn s.epoch .dbuf (copyBackMem off cnt s) (s.dpos.toNat + j) =
      readIn s.epoch .dbuf (copyBackMem off cnt s) (s.dpos.toNat - off + j) := by
  conv_lhs => rw [copyBackMem, readIn_fillUp_inside _ _ _ _ _ _ _ (Nat.zero_le j) (by omega)]
  exact readIn_fillUp_prefix _ _ _ _ _ _ _ (by omega) (by omega)

/-! ### A literal run -/

theorem readIn_literal_inside (data : List Byte) (s : State) {j : Nat} (hj : j < data.length) :
    (literalDone data s).readByte .dbuf (s.dpos.toNat + j) = data.getD j 0#8 :=
  readIn_fillUp_const _ _ (fun k => data.getD k 0#8) _ _ _ _ (Nat.zero_le j) (by omega)

theorem readIn_literal_outside (data : List Byte) (s : State) {a : Nat}
    (h : a < s.dpos.toNat ∨ s.dpos.toNat + data.length ≤ a) :
    (literalDone data s).readByte .dbuf a = s.readByte .dbuf a :=
  readIn_fillUp_outside _ _ _ _ _ _ _ (by omega)

end Sys2Proof.Machine
end

