-- ==== Sys2Proof/Laws/Window.lean ====
section
/-! SUPPORT. What the token decompressor sees of the stream: the window of bytes it may look at decodes as the whole
stream from SPOS does, because no token is longer than the window. -/

namespace Sys2Proof.Machine

/-! ### Reading several bytes -/

/-- The first bytes of several. -/
theorem take_readBytes (s : State) (x : MemId) (a n m : Nat) :
    (s.readBytes x a n).take m = s.readBytes x a (min m n) := by
  induction n generalizing a m with
  | zero => simp [State.readBytes]
  | succ n ih =>
    cases m with
    | zero => simp [State.readBytes]
    | succ m => rw [Nat.succ_min_succ]; simp [State.readBytes, ih]

/-- Two states whose bytes agree in a range read the same bytes there. -/
theorem readBytes_congr {s s' : State} {x : MemId} {a n : Nat}
    (h : ∀ c, a ≤ c → c < a + n → s'.readByte x c = s.readByte x c) : s'.readBytes x a n = s.readBytes x a n := by
  induction n generalizing a with
  | zero => rfl
  | succ n ih =>
    rw [State.readBytes, State.readBytes, h a (by omega) (by omega), ih fun c h1 h2 => h c (by omega) (by omega)]

/-- The window is the beginning of the stream from SPOS to SLEN. -/
theorem streamWindow_eq_take (s : State) :
    streamWindow s = (s.readBytes .strm s.spos.toNat (s.slen.toNat - s.spos.toNat)).take longestToken := by
  rw [take_readBytes]; rfl

/-- The first byte of the window. -/
theorem streamWindow_cons {s : State} (h : s.spos.toNat < s.slen.toNat) :
    ∃ rest, streamWindow s = s.readByte .strm s.spos.toNat :: rest := by
  obtain ⟨n, hn⟩ : ∃ n, windowLength s = n + 1 := ⟨windowLength s - 1, by unfold windowLength longestToken; omega⟩
  exact ⟨_, by rw [streamWindow, hn, State.readBytes]⟩

theorem streamWindow_nil {s : State} (h : s.slen.toNat ≤ s.spos.toNat) : streamWindow s = [] := by
  have : windowLength s = 0 := by unfold windowLength; omega
  rw [streamWindow, this, State.readBytes]

/-! ### Decoding the window -/

/-- A token decodes the same from the first `longestToken` bytes. -/
theorem decode_token_take_ok {d : Bool} {bytes rest : List Byte} {i : Instr}
    (h : decode (.token d) bytes = .ok (i, rest)) :
    ∃ rest', decode (.token d) (bytes.take longestToken) = .ok (i, rest') := by
  cases d with
  | false =>
    cases bytes with
    | nil => simp [decode, decodeLit] at h
    | cons n bytes =>
      have := n.isLt
      simp only [decode, decodeLit] at h ⊢
      rw [show longestToken = 255 + 1 from rfl, List.take_succ_cons]
      simp only
      split_ifs at h with h1
      simp only [Except.ok.injEq, Prod.mk.injEq] at h
      refine ⟨(bytes.take 255).drop n.toNat, ?_⟩
      rw [if_neg (by simp only [List.length_take]; omega), List.take_take, Nat.min_eq_left (by omega), h.1]
  | true =>
    match bytes, h with
    | b0 :: b1 :: [], h => exact ⟨rest, h⟩
    | b0 :: b1 :: e :: bytes, h =>
      simp only [decode, decodeRef] at h ⊢
      rw [show longestToken = 253 + 1 + 1 + 1 from rfl, List.take_succ_cons, List.take_succ_cons, List.take_succ_cons]
      simp only
      split_ifs at h ⊢ <;> simp only [Except.ok.injEq, Prod.mk.injEq] at h
      · exact ⟨_, by rw [h.1]⟩
      · exact ⟨_, by rw [h.1]⟩

/-- What does not decode does not decode from its first `longestToken` bytes. -/
theorem decode_token_take_error {d : Bool} {bytes : List Byte} {e : DecodeError}
    (h : decode (.token d) bytes = .error e) : decode (.token d) (bytes.take longestToken) = .error e := by
  cases d with
  | false =>
    cases bytes with
    | nil => exact h
    | cons n bytes =>
      have := n.isLt
      simp only [decode, decodeLit] at h ⊢
      rw [show longestToken = 255 + 1 from rfl, List.take_succ_cons]
      simp only
      split_ifs at h with h1
      rw [if_pos (by simp only [List.length_take]; omega)]
      exact h
  | true =>
    match bytes, h with
    | [], h => exact h
    | [_], h => exact h
    | b0 :: b1 :: [], h => exact h
    | b0 :: b1 :: x :: bytes, h =>
      simp only [decode, decodeRef] at h
      split_ifs at h

/-- The token fetched is the one the stream from SPOS decodes to. -/
theorem fetchItem_token_some {d : Bool} {s : State} {i : Instr} {rest : List Byte}
    (h : decode (.token d) (s.readBytes .strm s.spos.toNat (s.slen.toNat - s.spos.toNat)) = .ok (i, rest)) :
    fetchItem (.token d) s = some i := by
  obtain ⟨rest', h'⟩ := decode_token_take_ok h
  rw [fetchItem, streamWindow_eq_take, h']

/-- No token is fetched when the stream from SPOS decodes to none. -/
theorem fetchItem_token_none {d : Bool} {s : State} {e : DecodeError}
    (h : decode (.token d) (s.readBytes .strm s.spos.toNat (s.slen.toNat - s.spos.toNat)) = .error e) :
    fetchItem (.token d) s = none := by
  rw [fetchItem, streamWindow_eq_take, decode_token_take_error h]

/-- The control byte fetched is the byte at SPOS. -/
theorem fetchItem_ctl_some {s : State} (h : s.spos.toNat < s.slen.toNat) :
    fetchItem .ctl s = some (.ctlb (s.readByte .strm s.spos.toNat)) := by
  obtain ⟨rest, hr⟩ := streamWindow_cons h
  rw [fetchItem, hr]; rfl

theorem fetchItem_ctl_none {s : State} (h : s.slen.toNat ≤ s.spos.toNat) : fetchItem .ctl s = none := by
  rw [fetchItem, streamWindow_nil h]; rfl

/-- The item fetched in the token space is a literal run of at most 255 bytes or a back-reference. -/
theorem fetchItem_token_shape {d : Bool} {s : State} {i : Instr} (h : fetchItem (.token d) s = some i) :
    (∃ data, data.length ≤ 255 ∧ i = .lit data) ∨ (∃ off c, i = .refS off c) ∨ (∃ off c e, i = .refL off c e) := by
  unfold fetchItem at h
  cases d with
  | false =>
    simp only [decode] at h
    cases hw : streamWindow s with
    | nil => rw [hw] at h; simp [decodeLit] at h
    | cons n rest =>
      have := n.isLt
      rw [hw] at h
      simp only [decodeLit] at h
      split_ifs at h with h1
      simp only [Option.some.injEq] at h
      exact .inl ⟨_, by rw [List.length_take]; omega, h.symm⟩
  | true =>
    simp only [decode] at h
    match hw : streamWindow s with
    | [] => rw [hw] at h; simp [decodeRef] at h
    | [_] => rw [hw] at h; simp [decodeRef] at h
    | b0 :: b1 :: [] =>
      rw [hw] at h
      simp only [decodeRef] at h
      split_ifs at h with h1
      simp only [Option.some.injEq] at h
      exact .inr (.inl ⟨_, _, h.symm⟩)
    | b0 :: b1 :: e :: rest =>
      rw [hw] at h
      simp only [decodeRef] at h
      split_ifs at h with h1
      · simp only [Option.some.injEq] at h
        exact .inr (.inl ⟨_, _, h.symm⟩)
      · simp only [Option.some.injEq] at h
        exact .inr (.inr ⟨_, _, _, h.symm⟩)

end Sys2Proof.Machine
end

