-- ==== Sys2Proof/Laws/Units.lean ====
section
/-! SUPPORT. Everything a unit's step can do, said once per unit. -/

namespace Sys2Proof.Machine

/-- A number no greater than a 32-bit value fits in 32 bits. -/
theorem toNat_ofNat_of_le {n : Nat} (x : BitVec 32) (h : n ≤ x.toNat) : (BitVec.ofNat 32 n).toNat = n := by
  have := x.isLt
  simp; omega

/-! ### TSD -/

/-- The faults a TSD step can raise (40_token_decompressor.md R114). -/
def tokenFault (f : FaultCode) : Prop := f = .truncatedStream ∨ f = .badReference ∨ f = .outputOverrun

/-- What a token does when it succeeds: `cnt` bytes of output, at least one byte of stream consumed. -/
structure TokenDone (s t : State) : Prop where
  frame : t = { s with
    v := t.v, count := t.count, offset := t.offset, n := t.n, i := t.i, dbuf := t.dbuf, spos := t.spos, dpos := t.dpos }
  output : ∃ g cnt, t.dbuf = fillUp g s.dpos.toNat cnt 0 s.dbuf ∧ t.dpos.toNat = s.dpos.toNat + cnt ∧
    s.dpos.toNat + cnt ≤ s.dlen.toNat ∧ s.dpos.toNat + cnt ≤ s.cap .dbuf
  consumed : s.spos.toNat < t.spos.toNat ∧ t.spos.toNat ≤ s.slen.toNat

/-- Everything CopyBack can answer, in the terms of a token. -/
theorem copyBack_done {v : BitVec 16} {off cnt len : Nat} {s : State} (hl : 1 ≤ len)
    (hs : s.spos.toNat + len ≤ s.slen.toNat) :
    (∃ f, tokenFault f ∧ copyBack v off cnt len s = tsdFault f s) ∨
    (s.cap .dbuf < s.dlen.toNat ∧ copyBack v off cnt len s = .fault (.noSuchAddress .dbuf)) ∨
    ∃ t, copyBack v off cnt len s = .next t ∧ TokenDone s t := by
  rcases copyBack_cases v off cnt len s with ⟨_, e⟩ | ⟨_, _, _, e⟩ | ⟨_, _, h1, h2, e⟩ | ⟨_, _, h1, h2, e⟩
  · exact .inl ⟨_, .inr (.inl rfl), e⟩
  · exact .inl ⟨_, .inr (.inr rfl), e⟩
  · exact .inr (.inl ⟨by omega, e⟩)
  · have hsp : (copied v off cnt len s).spos.toNat = s.spos.toNat + len := toNat_ofNat_of_le _ hs
    exact .inr (.inr ⟨_, e, rfl, ⟨_, cnt, rfl, toNat_ofNat_of_le _ h1, h1, h2⟩, by omega, by omega⟩)

/-- Everything a token fetched by TSD can answer. -/
theorem exec_token_cases {d : Bool} {s s' : State} {i : Instr} (h : fetchItem (.token d) s' = some i) :
    (∃ f, tokenFault f ∧ exec i s = tsdFault f s) ∨
    (s.cap .dbuf < s.dlen.toNat ∧ exec i s = .fault (.noSuchAddress .dbuf)) ∨
    ∃ t, exec i s = .next t ∧ TokenDone s t := by
  rcases fetchItem_token_shape h with ⟨data, _, rfl⟩ | ⟨off, c, rfl⟩ | ⟨off, c, e, rfl⟩
  · rcases execLit_cases data s with ⟨_, e⟩ | ⟨_, _, e⟩ | ⟨_, h1, h2, e⟩ | ⟨h0, h1, h2, e⟩
    · exact .inl ⟨_, .inl rfl, e⟩
    · exact .inl ⟨_, .inr (.inr rfl), e⟩
    · exact .inr (.inl ⟨by omega, e⟩)
    · have hsp : (literalDone data s).spos.toNat = s.spos.toNat + 1 + data.length := toNat_ofNat_of_le _ h0
      exact .inr (.inr ⟨_, e, rfl, ⟨_, data.length, rfl, toNat_ofNat_of_le _ h1, h1, h2⟩, by omega, by omega⟩)
  · rcases execRefS_cases off c s with ⟨_, e⟩ | ⟨h0, e⟩
    · exact .inl ⟨_, .inl rfl, e⟩
    · rw [show exec (.refS off c) s = _ from e]; exact copyBack_done (by omega) h0
  · rcases execRefL_cases off c e s with ⟨_, e⟩ | ⟨h0, e⟩
    · exact .inl ⟨_, .inl rfl, e⟩
    · rw [show exec (.refL off c _) s = _ from e]; exact copyBack_done (by omega) h0

/-- Everything the fetch of the dispatch bit can answer (R102). -/
theorem fetchDispatch_cases (s : State) :
    (s.ctl.toNat / 2 ≠ 1 ∧ fetchDispatch s = .next { s with ctl := shiftCtl s.ctl }) ∨
    (s.ctl.toNat / 2 = 1 ∧ s.spos.toNat < s.slen.toNat ∧ fetchDispatch s = .next
      { s with ctl := reloadCtl (s.readByte .strm s.spos.toNat), spos := BitVec.ofNat 32 (s.spos.toNat + 1) }) ∨
    (s.ctl.toNat / 2 = 1 ∧ s.slen.toNat ≤ s.spos.toNat ∧ fetchDispatch s = tsdFault .truncatedStream s) := by
  by_cases h : s.ctl.toNat / 2 = 1
  · have he := (exhausted_shift_iff s.ctl).2 h
    rcases Nat.lt_or_ge s.spos.toNat s.slen.toNat with hs | hs
    · refine .inr (.inl ⟨h, hs, ?_⟩)
      rw [fetchDispatch, if_pos he, runItem, fetchItem_ctl_some hs]
      exact execCtlb_reload h hs
    · refine .inr (.inr ⟨h, hs, ?_⟩)
      rw [fetchDispatch, if_pos he, runItem, fetchItem_ctl_none hs]
  · refine .inl ⟨h, ?_⟩
    rw [fetchDispatch, if_neg (by rw [exhausted_shift_iff]; exact h)]

/-- Everything running the token at SPOS can answer (R103, R113). -/
theorem runItem_token_cases (d : Bool) (s : State) :
    (∃ f, tokenFault f ∧ runItem (.token d) s = tsdFault f s) ∨
    (s.cap .dbuf < s.dlen.toNat ∧ runItem (.token d) s = .fault (.noSuchAddress .dbuf)) ∨
    ∃ t, runItem (.token d) s = .next t ∧ TokenDone s t := by
  unfold runItem
  cases h : fetchItem (.token d) s with
  | none => exact .inl ⟨_, .inl rfl, rfl⟩
  | some i => exact exec_token_cases h

/-- What a TSD step does when it succeeds: CTL and SPOS after the dispatch bit, then the token. -/
structure TsdDone (s t : State) : Prop where
  frame : t = { s with
    ctl := t.ctl, v := t.v, count := t.count, offset := t.offset, n := t.n, i := t.i, dbuf := t.dbuf, spos := t.spos,
    dpos := t.dpos }
  ctl : 1 ≤ s.ctl.toNat / 2 → 2 ≤ t.ctl.toNat
  output : ∃ g cnt, t.dbuf = fillUp g s.dpos.toNat cnt 0 s.dbuf ∧ t.dpos.toNat = s.dpos.toNat + cnt ∧
    s.dpos.toNat + cnt ≤ s.dlen.toNat ∧ s.dpos.toNat + cnt ≤ s.cap .dbuf
  consumed : s.spos.toNat < t.spos.toNat ∧ t.spos.toNat ≤ s.slen.toNat

/-- The state a faulting TSD step leaves (60_exceptions.md R216). -/
def tsdFaulted (f : FaultCode) (s : State) : State :=
  { s with fcode := f.code, finfo := s.spos, st := .fault, unit := .tsd }

/-- Taking back a step that ended in a TSD fault of some state of the step. -/
theorem preciseFault_tsdFault (s u : State) (f : FaultCode) :
    preciseFault s (tsdFault f u) = .next (tsdFaulted f s) := rfl

theorem runToken_tsdFault (f : FaultCode) (u : State) : runToken (tsdFault f u) = tsdFault f u := by
  simp [runToken, tsdFault]

theorem runToken_next {u : State} (h : u.st ≠ .fault) : runToken (.next u) = runItem (.token (dispatchBit u.ctl)) u := by
  simp [runToken, h]

theorem preciseFault_next {s t : State} (h : t.st ≠ .fault) : preciseFault s (.next t) = .next t := by
  simp [preciseFault, h]

/-- A fault of the token leaves the step's start state but for STATUS, FCODE and FINFO. -/
theorem preciseFault_fault {s t : State} (h : t.st = .fault) :
    preciseFault s (.next t) = .next { s with fcode := t.fcode, finfo := s.spos, st := .fault, unit := t.unit } := by
  simp [preciseFault, h]

/-- Everything the TSD step can answer while the run is not complete and the stream lies in memory. -/
theorem tsdStep_cases {s : State} (hst : s.st ≠ .fault) (hd : s.dpos ≠ s.dlen) (hc : s.slen.toNat ≤ s.cap .strm) :
    (∃ f, tokenFault f ∧ tsdStep s = .next (tsdFaulted f s)) ∨
    (s.cap .dbuf < s.dlen.toNat ∧ tsdStep s = .fault (.noSuchAddress .dbuf)) ∨
    ∃ t, tsdStep s = .next t ∧ TsdDone s t := by
  rw [tsdStep, if_neg hd, if_neg (by omega)]
  rcases fetchDispatch_cases s with ⟨h, e⟩ | ⟨h, hs, e⟩ | ⟨h, hs, e⟩ <;> rw [e]
  · rw [runToken_next (by exact hst)]
    rcases runItem_token_cases (dispatchBit (shiftCtl s.ctl)) { s with ctl := shiftCtl s.ctl } with
      ⟨f, hf, e⟩ | ⟨hb, e⟩ | ⟨t, e, ht⟩ <;> simp only [e]
    · exact .inl ⟨f, hf, rfl⟩
    · exact .inr (.inl ⟨hb, rfl⟩)
    · have hfr := ht.frame
      refine .inr (.inr ⟨t, preciseFault_next (by rw [hfr]; exact hst), ?_, fun hctl => ?_, ht.output, ht.consumed⟩)
      · rw [hfr]
      · rw [hfr]; simp only [shiftCtl_toNat]; omega
  · rw [runToken_next (by exact hst)]
    rcases runItem_token_cases (dispatchBit (reloadCtl (s.readByte .strm s.spos.toNat)))
      { s with ctl := reloadCtl (s.readByte .strm s.spos.toNat), spos := BitVec.ofNat 32 (s.spos.toNat + 1) } with
      ⟨f, hf, e⟩ | ⟨hb, e⟩ | ⟨t, e, ht⟩ <;> simp only [e]
    · exact .inl ⟨f, hf, rfl⟩
    · exact .inr (.inl ⟨hb, rfl⟩)
    · have hfr := ht.frame
      have hcn := ht.consumed
      simp only [toNat_ofNat_of_le s.slen hs] at hcn
      refine .inr (.inr ⟨t, preciseFault_next (by rw [hfr]; exact hst), ?_, fun _ => ?_, ht.output, by omega, hcn.2⟩)
      · rw [hfr]
      · rw [hfr]; simp only [reloadCtl_toNat]; omega
  · exact .inl ⟨_, .inl rfl, by rw [runToken_tsdFault]; rfl⟩

/-- The TSD step at the end of the run (R109). -/
theorem tsdStep_complete {s : State} (h : s.dpos = s.dlen) : tsdStep s = .next (complete s) := by
  rw [tsdStep, if_pos h]

/-! ### RFR -/

/-- What a row step does when it succeeds. -/
structure RowDone (s t : State) : Prop where
  frame : t = { s with
    c := t.c, mode := t.mode, k := t.k, raw := t.raw, row := t.row, undef := t.undef, draws := t.draws }
  row : t.row = BitVec.ofNat 17 (s.row.toNat + 1)
  undef : t.undef = true → s.undef = true ∨ (s.row.toNat = 0 ∧ (s.readByte .dbuf 8).toNat % 2 = 0)
  outside : s.pixsz.toNat ≤ s.stride → ∀ a, a < s.rawAddr s.row.toNat 0 ∨ s.rawAddr s.row.toNat s.stride ≤ a →
    readIn s.epoch .raw t.raw a = s.readByte .raw a
  fits : s.pixsz.toNat ≤ s.stride → Memory.fits s.raw (s.cap .raw) → Memory.fits t.raw (s.cap .raw)

theorem rowFault_none_iff {s : State} : rowFault s = none ↔
    s.pixAddr s.row.toNat s.rowSpan ≤ s.cap .dbuf ∧ s.rawAddr s.row.toNat s.rowSpan ≤ s.cap .raw := by
  unfold rowFault
  split_ifs <;> simp [-cap_dbuf, -cap_raw] <;> omega

/-- The bytes a row's meaning writes lie in the row, and in RAW. -/
theorem rowLoops_outside {s : State} (hp : s.pixsz.toNat ≤ s.stride) (f : Memory → Nat → Byte) {a : Nat}
    (h : a < s.rawAddr s.row.toNat 0 ∨ s.rawAddr s.row.toNat s.stride ≤ a) :
    readIn s.epoch .raw (fillUp f (s.rawAddr s.row.toNat 0) (s.stride - s.pixsz.toNat) s.pixsz.toNat (firstPixelMem s)) a
      = s.readByte .raw a := by
  rw [rawAddr_add s _ s.stride] at h
  rw [readIn_fillUp_outside _ _ _ _ _ _ _ (by omega)]
  exact readIn_fillUp_outside _ _ _ _ _ _ _ (by omega)

theorem rowLoops_fits {s : State} (hp : s.pixsz.toNat ≤ s.stride) (f : Memory → Nat → Byte)
    (hc : s.rawAddr s.row.toNat s.rowSpan ≤ s.cap .raw) (h : Memory.fits s.raw (s.cap .raw)) :
    Memory.fits (fillUp f (s.rawAddr s.row.toNat 0) (s.stride - s.pixsz.toNat) s.pixsz.toNat (firstPixelMem s))
      (s.cap .raw) := by
  rw [State.rowSpan, Nat.max_eq_left hp, rawAddr_add] at hc
  exact fillUp_fits _ (fillUp_fits _ h (by omega)) (by omega)

/-- Everything a row instruction decoded from the row's control byte can answer. -/
theorem exec_row_cases (s : State) :
    (∃ x, rowFault s = some (.noSuchAddress x) ∧ exec (fetchRow s) s = .fault (.noSuchAddress x)) ∨
    ∃ t, rowFault s = none ∧ exec (fetchRow s) s = .next t ∧ RowDone s t := by
  cases hf : rowFault s with
  | some f =>
    obtain ⟨x, rfl⟩ : ∃ x, f = .noSuchAddress x := by
      unfold rowFault at hf
      split_ifs at hf <;> exact ⟨_, (Option.some.inj hf).symm⟩
    refine .inl ⟨x, rfl, ?_⟩
    unfold fetchRow rowInstr
    split_ifs <;> simp only [exec, execRowRaw, execRowVert, execRowAvg, hf]
  | none =>
    refine .inr ?_
    have hc := rowFault_none_iff.1 hf
    have hb : ∀ r, s.row.toNat = r → r = 0 → ctlAddr s.row.toNat = 8 := by intro r h1 h2; rw [h1, h2]; rfl
    unfold fetchRow rowInstr
    split_ifs with h0 h1
    · refine ⟨_, rfl, execRowRaw_next hf, rfl, rfl, fun h => ?_, fun hp a ha => rowLoops_outside hp _ ha,
        fun hp hm => rowLoops_fits hp _ hc.2 hm⟩
      simp only [rowDone, Bool.and_false, Bool.or_false] at h
      exact .inl h
    · refine ⟨_, rfl, execRowVert_next hf, rfl, rfl, fun h => ?_, fun hp a ha => ?_, fun hp hm => ?_⟩
      · simp only [rowDone, Bool.or_eq_true, Bool.and_eq_true, decide_eq_true_eq] at h
        refine h.imp_right fun h => ⟨h.1, ?_⟩
        rw [hb _ rfl h.1, bit0_iff] at h0
        omega
      · rw [rawAddr_add s _ s.stride] at ha
        exact readIn_fillUp_outside _ _ _ _ _ _ _ (by omega)
      · have := hc.2
        rw [State.rowSpan, Nat.max_eq_left hp, rawAddr_add] at this
        exact fillUp_fits _ hm (by omega)
    · refine ⟨_, rfl, execRowAvg_next hf, rfl, rfl, fun h => ?_, fun hp a ha => rowLoops_outside hp _ ha,
        fun hp hm => rowLoops_fits hp _ hc.2 hm⟩
      simp only [rowDone, Bool.or_eq_true, Bool.and_eq_true, decide_eq_true_eq] at h
      refine h.imp_right fun h => ⟨h.1, ?_⟩
      rw [hb _ rfl h.1, bit0_iff] at h0
      omega

/-- The RFR step at the end of the run (R138). -/
theorem rfrStep_complete {s : State} (h : s.row.toNat = s.height.toNat) : rfrStep s = .next (complete s) := by
  rw [rfrStep, if_pos h]

/-- The RFR step within the run: the model's stop, or one row. -/
theorem rfrStep_cases {s : State} (h : s.row.toNat ≠ s.height.toNat) :
    (∃ x, rfrStep s = .fault (.noSuchAddress x)) ∨ ∃ t, rfrStep s = .next t ∧ RowDone s t := by
  rw [rfrStep, if_neg h]
  split_ifs
  · exact .inl ⟨_, rfl⟩
  · rcases exec_row_cases s with ⟨x, _, e⟩ | ⟨t, _, e, ht⟩
    · exact .inl ⟨x, e⟩
    · exact .inr ⟨t, e, ht⟩

/-- While RFR runs, the row step succeeds. -/
theorem rfrStep_next {s : State} (h : RfrRun s) (hr : s.row.toNat < s.height.toNat) :
    ∃ t, rfrStep s = .next t ∧ RowDone s t := by
  have h1 := h.dlen_le
  rw [h.dlen_eq] at h1
  have h2 : ctlAddr s.row.toNat + 1 ≤ s.expectedLen := by simp only [ctlAddr, State.expectedLen]; omega
  rw [rfrStep, if_neg (by omega), if_neg (by omega)]
  rcases exec_row_cases s with ⟨x, hf, _⟩ | ⟨t, _, e, ht⟩
  · rw [rowFault_none h hr] at hf; exact absurd hf (by simp)
  · exact ⟨t, e, ht⟩

/-! ### FSF -/

/-- What a filter step does when it succeeds. -/
structure FilterDone (s t : State) : Prop where
  frame : t = { s with
    mode := t.mode, k := t.k, dbuf := t.dbuf, row := t.row, sraw := t.sraw, svert := t.svert, savg := t.savg }
  row : t.row = BitVec.ofNat 17 (s.row.toNat + 1)
  outside : s.pixsz.toNat ≤ s.stride → ∀ a, a ≠ ctlAddr s.row.toNat →
    a < s.pixAddr s.row.toNat 0 ∨ s.pixAddr s.row.toNat s.stride ≤ a →
    readIn s.epoch .dbuf t.dbuf a = s.readByte .dbuf a
  fits : s.pixsz.toNat ≤ s.stride → Memory.fits s.dbuf (s.cap .dbuf) → Memory.fits t.dbuf (s.cap .dbuf)

theorem filterFault_none_iff {s : State} : filterFault s = none ↔
    ctlAddr s.row.toNat + 1 ≤ s.cap .dbuf ∧ s.pixAddr s.row.toNat s.rowSpan ≤ s.cap .dbuf ∧
      s.rawAddr s.row.toNat s.rowSpan ≤ s.cap .raw := by
  unfold filterFault
  split_ifs <;> simp [-cap_dbuf, -cap_raw] <;> omega

/-- The bytes of DBUF a forward filter leaves fit where they did. -/
theorem fwdRawMem_fits {s : State} (hp : s.pixsz.toNat ≤ s.stride) (hf : filterFault s = none)
    (h : Memory.fits s.dbuf (s.cap .dbuf)) : Memory.fits (fwdRawMem s) (s.cap .dbuf) := by
  obtain ⟨h1, h2, _⟩ := filterFault_none_iff.1 hf
  rw [State.rowSpan, Nat.max_eq_left hp, pixAddr_add] at h2
  exact fillUp_fits _ (fillUp_fits _ (store_fits h (by omega) _) (by omega)) (by omega)

theorem fwdVertMem_fits {s : State} (hp : s.pixsz.toNat ≤ s.stride) (hf : filterFault s = none)
    (h : Memory.fits s.dbuf (s.cap .dbuf)) : Memory.fits (fwdVertMem s) (s.cap .dbuf) := by
  obtain ⟨h1, h2, _⟩ := filterFault_none_iff.1 hf
  rw [State.rowSpan, Nat.max_eq_left hp, pixAddr_add] at h2
  exact fillUp_fits _ (store_fits h (by omega) _) (by omega)

/-- Scoring writes the three accumulators only. -/
theorem scoreRow_frame (s : State) : scoreRow s =
    { s with sraw := (scoreRow s).sraw, svert := (scoreRow s).svert, savg := (scoreRow s).savg } := by
  unfold scoreRow; split_ifs <;> rfl

/-- Everything a filter step within the run can answer. -/
theorem fsfStep_cases {s : State} (h : s.row.toNat ≠ s.height.toNat) :
    (∃ x, filterFault s = some (.noSuchAddress x) ∧ fsfStep s = .fault (.noSuchAddress x)) ∨
    ∃ t, filterFault s = none ∧ fsfStep s = .next t ∧ FilterDone s t := by
  rw [fsfStep, if_neg h, scoreRow_frame s]
  generalize (scoreRow s).sraw = a
  generalize (scoreRow s).svert = b
  generalize (scoreRow s).savg = c
  have hff : filterFault { s with sraw := a, svert := b, savg := c } = filterFault s := rfl
  cases hf : filterFault s with
  | some f =>
    obtain ⟨x, rfl⟩ : ∃ x, f = .noSuchAddress x := by
      unfold filterFault at hf
      split_ifs at hf <;> exact ⟨_, (Option.some.inj hf).symm⟩
    refine .inl ⟨x, rfl, ?_⟩
    unfold chosenFilter
    split_ifs with h0 h1
    · simp only [exec, execFwdRaw, hff, hf]
    · simp only [exec, execFwdVert, hff, hf]
      rw [if_neg h0]
    · simp only [exec, execFwdRaw, hff, hf]
  | none =>
    refine .inr ?_
    have hn := hff.trans hf
    have raw : exec .fwdRaw { s with sraw := a, svert := b, savg := c } =
        .next (filterDone .raw (fwdRawMem s) { s with sraw := a, svert := b, savg := c }) := execFwdRaw_next hn
    unfold chosenFilter
    split_ifs with h0 h1
    · exact ⟨_, rfl, raw, rfl, rfl, fun hp x hx ha => (readIn_fwdRawMem_outside hp ha).trans (if_neg hx),
        fun hp => fwdRawMem_fits hp hf⟩
    · exact ⟨_, rfl, execFwdVert_next hn h0, rfl, rfl,
        fun _ x hx ha => (readIn_fwdVertMem_outside (s := s) ha).trans (if_neg hx), fun hp => fwdVertMem_fits (s := s) hp hf⟩
    · exact ⟨_, rfl, raw, rfl, rfl, fun hp x hx ha => (readIn_fwdRawMem_outside hp ha).trans (if_neg hx),
        fun hp => fwdRawMem_fits hp hf⟩

/-- The FSF step at the end of the run (R163). -/
theorem fsfStep_complete {s : State} (h : s.row.toNat = s.height.toNat) : fsfStep s = .next (filterComplete s) := by
  rw [fsfStep, if_pos h]

/-- While FSF runs, the filter step succeeds. -/
theorem fsfStep_next {s : State} (h : FsfRun s) (hr : s.row.toNat < s.height.toNat) :
    ∃ t, fsfStep s = .next t ∧ FilterDone s t := by
  rcases fsfStep_cases (s := s) (by omega) with ⟨x, hf, _⟩ | ⟨t, _, e, ht⟩
  · rw [filterFault_none h hr] at hf; exact absurd hf (by simp)
  · exact ⟨t, e, ht⟩

/-! ### The unit's turn -/

theorem unitStep_tsd {s : State} (h : s.st = .busy) (hu : s.unit = .tsd) :
    unitStep s = mapNext releaseWorking (tsdStep s) := by simp only [unitStep, h, hu, if_true]

theorem unitStep_rfr {s : State} (h : s.st = .busy) (hu : s.unit = .rfr) :
    unitStep s = mapNext releaseWorking (rfrStep s) := by simp only [unitStep, h, hu, if_true]

theorem unitStep_fsf {s : State} (h : s.st = .busy) (hu : s.unit = .fsf) :
    unitStep s = mapNext releaseWorking (fsfStep s) := by simp only [unitStep, h, hu, if_true]

theorem unitStep_tsp {s : State} (h : s.st = .busy) (hu : s.unit = .tsp) :
    unitStep s = mapNext releaseWorking (tspStep s) := by simp only [unitStep, h, hu, if_true]

/-- With no unit active nothing changes. -/
theorem unitStep_inactive {s : State} (h : s.st ≠ .busy) : unitStep s = .next s := by rw [unitStep, if_neg h]

theorem unitStep_none {s : State} (hu : s.unit = .none) : unitStep s = .next s := by
  unfold unitStep
  split_ifs
  · rw [hu]
  · rfl

end Sys2Proof.Machine
end

