-- ==== Sys2Proof/Laws/Pack.lean ====
section
/-! SUPPORT. The packer: the arithmetic of the stream length, and everything one block can leave in STRM. -/

namespace Sys2Proof.Machine

/-! ### The stream length -/

/-- The stream of a prefix of whole blocks, and of what follows it (43_token_packer.md R180). -/
theorem packedLen_add {a b : Nat} (ha : a % 2040 = 0) : packedLen (a + b) = packedLen a + packedLen b := by
  unfold packedLen packBlockCount packRunCount
  omega

theorem packedLen_mono {a b : Nat} (h : a ≤ b) : packedLen a ≤ packedLen b := by
  unfold packedLen packBlockCount packRunCount
  omega

/-- One block: its control byte, its length bytes and its bytes. -/
theorem packedLen_block {n : Nat} (h1 : 1 ≤ n) (h2 : n ≤ 2040) : packedLen n = 1 + packRunCount n + n := by
  unfold packedLen packBlockCount packRunCount
  omega

theorem packBlockCount_pos {n : Nat} (h : 1 ≤ n) : packBlockCount n = packBlockCount (n - min 2040 n) + 1 := by
  unfold packBlockCount packRunCount
  omega

/-! ### Runs -/

/-- What `len` bytes packed into runs leave: the cursors advanced, each run behind its length byte, everything else as it
was. -/
structure RunsDone (len : Nat) (s t : State) : Prop where
  frame : t = { s with strm := t.strm, spos := t.spos, dpos := t.dpos }
  dpos : t.dpos.toNat = s.dpos.toNat + len
  spos : t.spos.toNat = s.spos.toNat + len + packRunCount len
  lengths : ∀ j, 255 * j < len →
    (readIn s.epoch .strm t.strm (s.spos.toNat + 256 * j)).toNat = min 255 (len - 255 * j)
  bytes : ∀ j i, 255 * j < len → i < min 255 (len - 255 * j) →
    readIn s.epoch .strm t.strm (s.spos.toNat + 256 * j + 1 + i) = s.readByte .dbuf (s.dpos.toNat + 255 * j + i)
  outside : ∀ a, a < s.spos.toNat ∨ s.spos.toNat + len + packRunCount len ≤ a →
    readIn s.epoch .strm t.strm a = s.readByte .strm a
  fits : s.spos.toNat + len + packRunCount len ≤ s.cap .strm → Memory.fits s.strm (s.cap .strm) →
    Memory.fits t.strm (s.cap .strm)

/-- One run (R181). -/
theorem packRun_done {s : State} (h : s.dpos.toNat < s.dlen.toNat)
    (hs : s.spos.toNat + 1 + runLength s ≤ s.cap .strm) : RunsDone (runLength s) s (packRun s) := by
  have hl : 1 ≤ runLength s ∧ runLength s ≤ 255 ∧ runLength s ≤ s.dlen.toNat - s.dpos.toNat := by
    unfold runLength; omega
  have hc : packRunCount (runLength s) = 1 := by unfold packRunCount; omega
  have e : packRun s = { s with
      strm := runMem s
      spos := BitVec.ofNat 32 (s.spos.toNat + 1 + runLength s)
      dpos := BitVec.ofNat 32 (s.dpos.toNat + runLength s) } := by rw [packRun, if_neg (by omega)]
  rw [e]
  refine ⟨rfl, toNat_ofNat_of_le s.dlen (by omega), ?_, fun j hj => ?_, fun j i hj hi => ?_, fun a ha => ?_,
    fun hc hf => ?_⟩
  · rw [hc]
    exact (toNat_ofNat_of_le s.strmCap hs).trans (by omega)
  · obtain rfl : j = 0 := by omega
    simp only [runMem]
    rw [readIn_fillUp_outside _ _ _ _ _ _ _ (by omega), readIn_store]
    simp only [Nat.mul_zero, Nat.add_zero, if_true, BitVec.toNat_ofNat]
    omega
  · obtain rfl : j = 0 := by omega
    simp only [runMem]
    rw [show s.spos.toNat + 256 * 0 + 1 + i = s.spos.toNat + 1 + i by omega]
    exact readIn_fillUp_const _ _ (fun k => s.readByte .dbuf (s.dpos.toNat + k)) _ _ _ _ (Nat.zero_le i) (by omega)
  · simp only [runMem]
    rw [readIn_fillUp_outside _ _ _ _ _ _ _ (by omega), readIn_store, if_neg (by omega)]
    rfl
  · exact fillUp_fits _ (store_fits hf (by omega) _) (by omega)

/-- Nothing left to pack. -/
theorem packRun_idle {s : State} (h : s.dlen.toNat ≤ s.dpos.toNat) : packRun s = s := by rw [packRun, if_pos h]

theorem packRuns_idle (n : Nat) {s : State} (h : s.dlen.toNat ≤ s.dpos.toNat) : packRuns n s = s := by
  induction n with
  | zero => rfl
  | succ n ih => rw [packRuns, packRun_idle h, ih]

/-- Nothing packed. -/
theorem RunsDone.refl (s : State) : RunsDone 0 s s :=
  ⟨rfl, rfl, rfl, fun j hj => by omega, fun j i hj => by omega, fun _ _ => rfl, fun _ h => h⟩

/-- A full run and then more. -/
theorem RunsDone.trans {s t u : State} {len : Nat} (h1 : RunsDone 255 s t) (h2 : RunsDone len t u) :
    RunsDone (255 + len) s u := by
  have hc1 : packRunCount 255 = 1 := rfl
  have hc : packRunCount (255 + len) = packRunCount len + 1 := by unfold packRunCount; omega
  have hep : t.epoch = s.epoch := by rw [h1.frame]
  have hd : t.dbuf = s.dbuf := by rw [h1.frame]
  have hcap : t.cap .strm = s.cap .strm := by rw [h1.frame]; rfl
  have hdb : ∀ a, t.readByte .dbuf a = s.readByte .dbuf a := fun a => by simp only [readByte_eq, mem_dbuf, hep, hd]
  have hst : ∀ a, t.readByte .strm a = readIn s.epoch .strm t.strm a := fun a => by
    simp only [readByte_eq, mem_strm, hep]
  have e1 := h1.spos
  have e2 := h2.spos
  have e3 := h1.dpos
  rw [hc1] at e1
  refine ⟨by rw [h2.frame, h1.frame], by rw [h2.dpos, h1.dpos]; omega, by omega, fun j hj => ?_, fun j i hj hi => ?_,
    fun a ha => ?_, fun hle hf => ?_⟩
  · cases j with
    | zero =>
      have h := h2.outside s.spos.toNat (by omega)
      rw [hst, hep] at h
      have h' := h1.lengths 0 (by omega)
      simp only [Nat.mul_zero, Nat.add_zero] at h' ⊢
      rw [h, h']; omega
    | succ j =>
      have h := h2.lengths j (by omega)
      rw [hep, e1] at h
      rw [show s.spos.toNat + 256 * (j + 1) = s.spos.toNat + 255 + 1 + 256 * j by omega, h]
      omega
  · cases j with
    | zero =>
      have h := h2.outside (s.spos.toNat + 256 * 0 + 1 + i) (by omega)
      rw [hst, hep] at h
      rw [h, h1.bytes 0 i (by omega) (by omega)]
    | succ j =>
      have h := h2.bytes j i (by omega) (by omega)
      rw [hep, hdb, e1, e3] at h
      rw [show s.spos.toNat + 256 * (j + 1) + 1 + i = s.spos.toNat + 255 + 1 + 256 * j + 1 + i by omega, h]
      congr 1; omega
  · have h := h2.outside a (by omega)
    rw [hst, hep] at h
    rw [h, h1.outside a (by omega)]
  · have := h2.fits (by rw [hcap]; omega) (by rw [hcap]; exact h1.fits (by omega) hf)
    rwa [hcap] at this

/-- At most `n` runs (R181): greedily, the longest first. -/
theorem packRuns_done (n : Nat) {s : State} (hd : s.dpos.toNat ≤ s.dlen.toNat) :
    ∀ len, len = min (255 * n) (s.dlen.toNat - s.dpos.toNat) →
      s.spos.toNat + len + packRunCount len ≤ s.cap .strm → RunsDone len s (packRuns n s) := by
  induction n generalizing s with
  | zero =>
    intro len hlen _
    obtain rfl : len = 0 := by omega
    exact RunsDone.refl s
  | succ n ih =>
    intro len hlen hs
    rw [packRuns]
    by_cases h0 : s.dlen.toNat ≤ s.dpos.toNat
    · obtain rfl : len = 0 := by omega
      rw [packRun_idle h0, packRuns_idle n h0]
      exact RunsDone.refl s
    · have hr : runLength s = min 255 (s.dlen.toNat - s.dpos.toNat) := rfl
      unfold packRunCount at hs
      have h1 := packRun_done (by omega) (by omega : s.spos.toNat + 1 + runLength s ≤ s.cap .strm)
      have hdl : (packRun s).dlen = s.dlen := by rw [h1.frame]
      have hdp := h1.dpos
      have hsp := h1.spos
      have hcap : (packRun s).cap .strm = s.cap .strm := by rw [h1.frame]; rfl
      by_cases h2 : s.dlen.toNat - s.dpos.toNat ≤ 255
      · rw [packRuns_idle n (by rw [hdl]; omega)]
        rwa [show len = runLength s by omega]
      · rw [show runLength s = 255 by omega] at h1 hdp hsp
        have hc1 : packRunCount 255 = 1 := rfl
        have h3 := ih (s := packRun s) (by rw [hdl]; omega) (len - 255) (by rw [hdl]; omega)
          (by unfold packRunCount; rw [hcap]; omega)
        have := h1.trans h3
        rwa [show 255 + (len - 255) = len by omega] at this

/-! ### One block -/

/-- What one block of `len` bytes leaves: the control byte, then the runs. -/
structure BlockDone (len : Nat) (s t : State) : Prop where
  frame : t = { s with strm := t.strm, spos := t.spos, dpos := t.dpos }
  dpos : t.dpos.toNat = s.dpos.toNat + len
  spos : t.spos.toNat = s.spos.toNat + 1 + len + packRunCount len
  control : readIn s.epoch .strm t.strm s.spos.toNat = 0x00#8
  lengths : ∀ j, 255 * j < len →
    (readIn s.epoch .strm t.strm (s.spos.toNat + 1 + 256 * j)).toNat = min 255 (len - 255 * j)
  bytes : ∀ j i, 255 * j < len → i < min 255 (len - 255 * j) →
    readIn s.epoch .strm t.strm (s.spos.toNat + 1 + 256 * j + 1 + i) = s.readByte .dbuf (s.dpos.toNat + 255 * j + i)
  outside : ∀ a, a < s.spos.toNat ∨ s.spos.toNat + 1 + len + packRunCount len ≤ a →
    readIn s.epoch .strm t.strm a = s.readByte .strm a
  fits : Memory.fits s.strm (s.cap .strm) → Memory.fits t.strm (s.cap .strm)

theorem block_done {s : State} (hd : s.dpos.toNat ≤ s.dlen.toNat)
    (hs : s.spos.toNat + 1 + packRunCount (blockBytes s) + blockBytes s ≤ s.cap .strm) :
    BlockDone (blockBytes s) s (packRuns 8 (blockControl s)) := by
  have hsp : (blockControl s).spos.toNat = s.spos.toNat + 1 :=
    toNat_ofNat_of_le s.strmCap (by simp only [cap_strm] at hs; omega)
  have hcap : (blockControl s).cap .strm = s.cap .strm := rfl
  have h := packRuns_done 8 (s := blockControl s) hd (blockBytes s) rfl (by rw [hsp, hcap]; omega)
  have hrb : ∀ a, (blockControl s).readByte .strm a = if a = s.spos.toNat then 0x00#8 else s.readByte .strm a :=
    fun a => readIn_store _ _ _ _ _ _
  have f1 := h.spos
  have f2 := h.lengths
  have f3 := h.bytes
  have f4 := h.outside
  have f5 := h.fits
  rw [hsp] at f1 f2 f3 f4 f5
  rw [hcap] at f5
  refine ⟨h.frame, h.dpos, f1, ?_, f2, f3, fun a ha => ?_, fun hf => f5 (by omega) (store_fits hf (by omega) _)⟩
  · exact (f4 _ (by omega)).trans ((hrb _).trans (if_pos rfl))
  · exact (f4 _ (by omega)).trans ((hrb _).trans (if_neg (by omega)))

/-- Runs change STRM and the cursors only. -/
theorem packRuns_frame (n : Nat) (s : State) : packRuns n s =
    { s with strm := (packRuns n s).strm, spos := (packRuns n s).spos, dpos := (packRuns n s).dpos } := by
  induction n generalizing s with
  | zero => rfl
  | succ n ih =>
    have h : packRun s = { s with strm := (packRun s).strm, spos := (packRun s).spos, dpos := (packRun s).dpos } := by
      unfold packRun; split_ifs <;> rfl
    rw [packRuns]
    exact (ih (packRun s)).trans (by rw [h])

/-- The TSP step writes nothing but STRM, SPOS, DPOS and, at its end, SLEN and STATE. -/
theorem tspStep_frame {s t : State} (h : tspStep s = .next t) :
    t = packComplete s ∨ t = { s with strm := t.strm, spos := t.spos, dpos := t.dpos } := by
  rw [show tspStep s = execPkblk s from rfl, execPkblk] at h
  split_ifs at h <;> simp only [Host.Outcome.next.injEq] at h
  · exact .inl h.symm
  · rw [← h]
    exact .inr ((packRuns_frame 8 (blockControl s)).trans rfl)

/-- The TSP step at the end of the run (R182). -/
theorem tspStep_complete {s : State} (h : s.dpos = s.dlen) : tspStep s = .next (packComplete s) := by
  show execPkblk s = _
  rw [execPkblk, if_pos h]

/-- Everything the TSP step within the run can answer. -/
theorem tspStep_cases {s : State} (h : s.dpos ≠ s.dlen) (hd : s.dpos.toNat ≤ s.dlen.toNat) :
    (∃ x, tspStep s = .fault (.noSuchAddress x)) ∨
    ∃ t, tspStep s = .next t ∧ BlockDone (blockBytes s) s t := by
  show (∃ x, execPkblk s = _) ∨ ∃ t, execPkblk s = _ ∧ _
  rw [execPkblk, if_neg h]
  split_ifs
  · exact .inl ⟨_, rfl⟩
  · exact .inl ⟨_, rfl⟩
  · exact .inr ⟨_, rfl, block_done hd (by omega)⟩

/-- DPOS has not reached DLEN: there is a byte to pack. -/
theorem pos_left {s : State} (h : s.dpos ≠ s.dlen) (hd : s.dpos.toNat ≤ s.dlen.toNat) :
    1 ≤ s.dlen.toNat - s.dpos.toNat := by
  have : s.dpos.toNat ≠ s.dlen.toNat := fun e => h (BitVec.eq_of_toNat_eq e)
  omega

/-- While TSP runs, the block fits below the length computed at the start (R180). -/
theorem tspRun_room {s : State} (h : TspRun s) (hne : s.dpos ≠ s.dlen) :
    s.spos.toNat + 1 + packRunCount (blockBytes s) + blockBytes s = packedLen (s.dpos.toNat + blockBytes s) ∧
    packedLen (s.dpos.toNat + blockBytes s) ≤ packedLen s.dlen.toNat := by
  have hl := pos_left hne h.dpos_le
  have hb : blockBytes s = min 2040 (s.dlen.toNat - s.dpos.toNat) := rfl
  have hm : s.dpos.toNat % 2040 = 0 := h.full_blocks.resolve_right (by omega)
  rw [packedLen_add hm, h.spos_eq, packedLen_block (n := blockBytes s) (by omega) (by omega)]
  refine ⟨by omega, ?_⟩
  have := packedLen_mono (a := s.dpos.toNat + blockBytes s) (b := s.dlen.toNat) (by omega)
  rw [packedLen_add hm, packedLen_block (n := blockBytes s) (by omega) (by omega)] at this
  omega

/-- While TSP runs, the block succeeds. -/
theorem tspStep_next {s : State} (h : TspRun s) (hne : s.dpos ≠ s.dlen) :
    ∃ t, tspStep s = .next t ∧ BlockDone (blockBytes s) s t := by
  have hl := pos_left hne h.dpos_le
  have hb : blockBytes s = min 2040 (s.dlen.toNat - s.dpos.toNat) := rfl
  obtain ⟨h1, h2⟩ := tspRun_room h hne
  have h3 := h.stream_le
  have h4 := h.dlen_le
  refine ⟨_, ?_, block_done h.dpos_le (by omega)⟩
  show execPkblk s = _
  rw [execPkblk, if_neg hne, if_neg (by omega), if_neg (by omega)]

end Sys2Proof.Machine
end

