-- ==== Sys2Proof/Laws/PerInstr.lean ====
section
/-! SUPPORT. Statements about every instruction as syntax, one lemma per constructor. -/

/-- The encoding of an instruction has the length the spec gives it (30_encoding.md R82, R87). -/
def Sys2Proof.Laws.EncodeLength.Statement (i : Sys2Proof.Instr) : Prop :=
  (Sys2Proof.encode i).length = i.byteLength

namespace Sys2Proof.Laws

open Sys2Proof

theorem EncodeLength.ctlb (bits : Byte) : EncodeLength.Statement (.ctlb bits) := rfl
theorem EncodeLength.lit (data : List Byte) : EncodeLength.Statement (.lit data) := by
  simp [EncodeLength.Statement, encode, Instr.byteLength, Nat.add_comm]
theorem EncodeLength.refS (off : BitVec 12) (c : BitVec 3) : EncodeLength.Statement (.refS off c) := rfl
theorem EncodeLength.refL (off : BitVec 12) (c : BitVec 3) (e : Byte) : EncodeLength.Statement (.refL off c e) := rfl
theorem EncodeLength.rowRaw (ign : BitVec 6) (m1 : BitVec 1) : EncodeLength.Statement (.rowRaw ign m1) := rfl
theorem EncodeLength.rowVert (ign : BitVec 6) : EncodeLength.Statement (.rowVert ign) := rfl
theorem EncodeLength.rowAvg (ign : BitVec 6) : EncodeLength.Statement (.rowAvg ign) := rfl
theorem EncodeLength.fwdRaw : EncodeLength.Statement .fwdRaw := rfl
theorem EncodeLength.fwdVert : EncodeLength.Statement .fwdVert := rfl
theorem EncodeLength.pkblk : EncodeLength.Statement .pkblk := rfl
theorem EncodeLength.nop (ign : BitVec 24) : EncodeLength.Statement (.nop ign) := rfl
theorem EncodeLength.decode (ign : BitVec 24) : EncodeLength.Statement (.decode ign) := rfl
theorem EncodeLength.recon (ign : BitVec 24) : EncodeLength.Statement (.recon ign) := rfl
theorem EncodeLength.filter (ign : BitVec 24) : EncodeLength.Statement (.filter ign) := rfl
theorem EncodeLength.pack (ign : BitVec 24) : EncodeLength.Statement (.pack ign) := rfl
theorem EncodeLength.clear (ign : BitVec 24) : EncodeLength.Statement (.clear ign) := rfl
theorem EncodeLength.illegalCmd (code : Byte) (ign : BitVec 24) : EncodeLength.Statement (.illegalCmd code ign) := rfl

end Sys2Proof.Laws
end

