-- ==== Sys2Proof/Laws/Ports.lean ====
section
/-! SUPPORT. Everything a command word and a host transaction can do, and what a step is. -/

namespace Sys2Proof.Machine

/-! ### Commands -/

/-- A command in IDLE is accepted. -/
theorem whenIdle_idle {s : State} (h : s.st = .idle) (t : State) : whenIdle s t = .next t := by rw [whenIdle, if_pos h]

/-- A command in any other state is dropped (44_host_commands.md R191). -/
theorem whenIdle_other {s : State} (h : s.st ≠ .idle) (t : State) : whenIdle s t = .next s := by rw [whenIdle, if_neg h]

/-- Everything DECODE's start can leave (R100). -/
theorem startDecode_cases (s : State) :
    (s.cap .strm < s.slen.toNat ∨ s.cap .dbuf < s.dlen.toNat) ∧ startDecode s = raise .capacity 0 .tsd s ∨
    s.slen.toNat ≤ s.cap .strm ∧ s.dlen.toNat ≤ s.cap .dbuf ∧
      startDecode s = activate .tsd { s with spos := 0, dpos := 0, ctl := 2 } := by
  unfold startDecode
  split_ifs with h
  · exact .inl ⟨h, rfl⟩
  · exact .inr ⟨by omega, by omega, rfl⟩

/-- A 16-bit register that is not 0 is at least 1. -/
theorem one_le_toNat {x : BitVec 16} (h : x ≠ 0) : 1 ≤ x.toNat := by
  have : x.toNat ≠ 0 := fun e => h (BitVec.eq_of_toNat_eq e)
  omega

/-- Everything RECON's start can leave (R130). -/
theorem startRecon_cases (s : State) :
    (s.width = 0 ∨ s.pixsz = 0) ∧ startRecon s = raise .badGeometry 0 .rfr s ∨
    legalGeometry s ∧ (s.cap .dbuf < s.dlen.toNat ∨ s.cap .raw < s.imageBytes) ∧
      startRecon s = raise .capacity 0 .rfr s ∨
    legalGeometry s ∧ s.dlen.toNat ≤ s.cap .dbuf ∧ s.imageBytes ≤ s.cap .raw ∧ s.dlen.toNat ≠ s.expectedLen ∧
      startRecon s = raise .sizeInvariant (BitVec.ofNat 32 s.expectedLen) .rfr s ∨
    legalGeometry s ∧ s.dlen.toNat ≤ s.cap .dbuf ∧ s.imageBytes ≤ s.cap .raw ∧ s.dlen.toNat = s.expectedLen ∧
      startRecon s = activate .rfr { s with row := 0 } := by
  unfold startRecon
  split_ifs with h1 h2 h3
  · exact .inl ⟨h1, rfl⟩
  all_goals
    rw [not_or] at h1
    have hg : legalGeometry s := ⟨one_le_toNat h1.1, one_le_toNat h1.2⟩
  · exact .inr (.inl ⟨hg, h2, rfl⟩)
  · exact .inr (.inr (.inl ⟨hg, by omega, by omega, h3, rfl⟩))
  · exact .inr (.inr (.inr ⟨hg, by omega, by omega, by omega, rfl⟩))

/-- Everything FILTER's start can leave (R150). -/
theorem startFilter_cases (s : State) :
    (s.width = 0 ∨ s.pixsz = 0) ∧ startFilter s = raise .badGeometry 0 .fsf s ∨
    legalGeometry s ∧ (s.cap .dbuf < s.expectedLen ∨ s.cap .raw < s.imageBytes) ∧
      startFilter s = raise .capacity 0 .fsf s ∨
    legalGeometry s ∧ s.expectedLen ≤ s.cap .dbuf ∧ s.imageBytes ≤ s.cap .raw ∧
      startFilter s = activate .fsf { s with row := 0 } := by
  unfold startFilter
  split_ifs with h1 h2
  · exact .inl ⟨h1, rfl⟩
  all_goals
    rw [not_or] at h1
    have hg : legalGeometry s := ⟨one_le_toNat h1.1, one_le_toNat h1.2⟩
  · exact .inr (.inl ⟨hg, h2, rfl⟩)
  · exact .inr (.inr ⟨hg, by omega, by omega, rfl⟩)

/-- Everything PACK's start can leave (R180). -/
theorem startPack_cases (s : State) :
    (s.cap .dbuf < s.dlen.toNat ∨ s.cap .strm < packedLen s.dlen.toNat) ∧ startPack s = raise .capacity 0 .tsp s ∨
    s.dlen.toNat ≤ s.cap .dbuf ∧ packedLen s.dlen.toNat ≤ s.cap .strm ∧
      startPack s = activate .tsp { s with spos := 0, dpos := 0 } := by
  unfold startPack
  split_ifs with h
  · exact .inl ⟨h, rfl⟩
  · exact .inr ⟨by omega, by omega, rfl⟩

/-- The instruction of a command word, by its code (30_encoding.md R81). -/
theorem commandInstr_cases (w : Word32) :
    w.toNat % 256 = 0 ∧ commandInstr w = .nop (w.extractLsb' 8 24) ∨
    w.toNat % 256 = 1 ∧ commandInstr w = .decode (w.extractLsb' 8 24) ∨
    w.toNat % 256 = 2 ∧ commandInstr w = .recon (w.extractLsb' 8 24) ∨
    w.toNat % 256 = 3 ∧ commandInstr w = .filter (w.extractLsb' 8 24) ∨
    w.toNat % 256 = 4 ∧ commandInstr w = .pack (w.extractLsb' 8 24) ∨
    w.toNat % 256 = 5 ∧ commandInstr w = .clear (w.extractLsb' 8 24) ∨
    6 ≤ w.toNat % 256 ∧ commandInstr w = .illegalCmd (w.extractLsb' 0 8) (w.extractLsb' 8 24) := by
  simp only [commandInstr, commandCode_eq_iff, BitVec.toNat_ofNat, Nat.reducePow, Nat.reduceMod]
  split_ifs <;> simp <;> omega

/-- Everything writing a command word can do: nothing, a start's transition, CLEAR's, or an illegal code's
(44_host_commands.md R191). -/
theorem exec_command_cases (w : Word32) (s : State) :
    exec (commandInstr w) s = .next s ∨
    (s.st = .idle ∧ w.toNat % 256 = 1 ∧ exec (commandInstr w) s = .next (startDecode s)) ∨
    (s.st = .idle ∧ w.toNat % 256 = 2 ∧ exec (commandInstr w) s = .next (startRecon s)) ∨
    (s.st = .idle ∧ w.toNat % 256 = 3 ∧ exec (commandInstr w) s = .next (startFilter s)) ∨
    (s.st = .idle ∧ w.toNat % 256 = 4 ∧ exec (commandInstr w) s = .next (startPack s)) ∨
    ((s.st = .done ∨ s.st = .fault) ∧ w.toNat % 256 = 5 ∧ exec (commandInstr w) s = .next (acknowledge s)) ∨
    (s.st = .idle ∧ 6 ≤ w.toNat % 256 ∧ exec (commandInstr w) s = .next (raise .badCommand w .none s)) := by
  have hw := commandWord_fields w
  by_cases hi : s.st = .idle
  · rcases commandInstr_cases w with ⟨h, e⟩ | ⟨h, e⟩ | ⟨h, e⟩ | ⟨h, e⟩ | ⟨h, e⟩ | ⟨h, e⟩ | ⟨h, e⟩ <;> rw [e] <;>
      simp only [exec, execNop, execDecode, execRecon, execFilter, execPack, execClear, execIllegalCmd, whenIdle_idle hi, hw,
        hi, h] <;> simp
  · rcases commandInstr_cases w with ⟨h, e⟩ | ⟨h, e⟩ | ⟨h, e⟩ | ⟨h, e⟩ | ⟨h, e⟩ | ⟨h, e⟩ | ⟨h, e⟩
    case' inr.inr.inr.inr.inr.inl =>
      by_cases hd : s.st = .done ∨ s.st = .fault
      · exact .inr (.inr (.inr (.inr (.inr (.inl ⟨hd, h, by rw [e]; simp only [exec, execClear, if_pos hd]⟩)))))
      · exact .inl (by rw [e]; simp only [exec, execClear, if_neg hd])
    all_goals
      left
      rw [e]
      simp only [exec, execNop, execDecode, execRecon, execFilter, execPack, execIllegalCmd, whenIdle_other hi]

/-! ### The step -/

theorem step_unit {s : State} (h : s.events = []) : step s = unitStep s := by simp only [step, stepOnce, h]

theorem step_event {s : State} {e : Event} {rest : List Event} (h : s.events = e :: rest) :
    step s = runEvent e { s with events := rest } := by simp only [step, stepOnce, h]

end Sys2Proof.Machine
end

