-- ==== Sys2Proof/Laws/Runs.lean ====
section
/-! SUPPORT. What every answered step of a unit is, whatever the state it starts from; what a step keeps of a run; and
which fields a host transaction can touch. -/

namespace Sys2Proof.Machine

/-! ### Every answer of a unit's step -/

/-- An answered TSD step: the completion, a fault, or a token. -/
theorem tsdStep_answers {s t : State} (hst : s.st = .busy) (h : tsdStep s = .next t) :
    t = complete s ∧ s.dpos = s.dlen ∨ (∃ f, tokenFault f ∧ t = tsdFaulted f s) ∨ TsdDone s t := by
  by_cases hd : s.dpos = s.dlen
  · rw [tsdStep_complete hd] at h; cases h; exact .inl ⟨rfl, hd⟩
  · by_cases hc : s.slen.toNat ≤ s.cap .strm
    · rcases tsdStep_cases (by simp [hst]) hd hc with ⟨f, hf, e⟩ | ⟨_, e⟩ | ⟨t, e, ht⟩ <;> rw [h] at e <;> cases e
      · exact .inr (.inl ⟨f, hf, rfl⟩)
      · exact .inr (.inr ht)
    · rw [tsdStep, if_neg hd, if_pos (by omega)] at h; cases h

/-- An answered RFR step: the completion or a row. -/
theorem rfrStep_answers {s t : State} (h : rfrStep s = .next t) : t = complete s ∨ RowDone s t := by
  by_cases hr : s.row.toNat = s.height.toNat
  · rw [rfrStep_complete hr] at h; cases h; exact .inl rfl
  · rcases rfrStep_cases hr with ⟨x, e⟩ | ⟨t, e, ht⟩ <;> rw [h] at e <;> cases e; exact .inr ht

/-- An answered FSF step: the completion or a row. -/
theorem fsfStep_answers {s t : State} (h : fsfStep s = .next t) : t = filterComplete s ∨ FilterDone s t := by
  by_cases hr : s.row.toNat = s.height.toNat
  · rw [fsfStep_complete hr] at h; cases h; exact .inl rfl
  · rcases fsfStep_cases hr with ⟨x, _, e⟩ | ⟨t, _, e, ht⟩ <;> rw [h] at e <;> cases e; exact .inr ht

/-! ### What a step keeps of a run -/

theorem rfrRun_row {s t : State} (h : RfrRun s) (hr : s.row.toNat < s.height.toNat) (hd : RowDone s t) :
    RfrRun (releaseWorking t) ∧ (releaseWorking t).row.toNat = s.row.toNat + 1 := by
  have hf := hd.frame
  have e : t.row.toNat = s.row.toNat + 1 := by rw [hd.row]; exact row_succ_toNat hr
  refine ⟨⟨by rw [hf]; exact h.geometry, by rw [hf]; exact h.dlen_eq, by rw [hf]; exact h.dlen_le,
    by rw [hf]; exact h.image_le, ?_⟩, e⟩
  show t.row.toNat ≤ t.height.toNat
  rw [e, hf]; exact hr

theorem fsfRun_row {s t : State} (h : FsfRun s) (hr : s.row.toNat < s.height.toNat) (hd : FilterDone s t) :
    FsfRun (releaseWorking t) ∧ (releaseWorking t).row.toNat = s.row.toNat + 1 := by
  have hf := hd.frame
  have e : t.row.toNat = s.row.toNat + 1 := by rw [hd.row]; exact row_succ_toNat hr
  refine ⟨⟨by rw [hf]; exact h.geometry, by rw [hf]; exact h.buffer_le, by rw [hf]; exact h.image_le, ?_⟩, e⟩
  show t.row.toNat ≤ t.height.toNat
  rw [e, hf]; exact hr

theorem tspRun_block {s t : State} (h : TspRun s) (hne : s.dpos ≠ s.dlen) (hd : BlockDone (blockBytes s) s t) :
    TspRun (releaseWorking t) := by
  have hf := hd.frame
  have hl := pos_left hne h.dpos_le
  have hb : blockBytes s = min 2040 (s.dlen.toNat - s.dpos.toNat) := rfl
  have e1 : (releaseWorking t).dlen = s.dlen := by rw [hf]; rfl
  have e2 : (releaseWorking t).dpos.toNat = s.dpos.toNat + blockBytes s := hd.dpos
  have e3 : ∀ x, (releaseWorking t).cap x = s.cap x := by intro x; rw [hf]; cases x <;> rfl
  have e4 : (releaseWorking t).spos.toNat = _ := hd.spos
  have hm : s.dpos.toNat % 2040 = 0 := h.full_blocks.resolve_right (by omega)
  have := tspRun_room h hne
  exact ⟨by rw [e1, e3]; exact h.dlen_le, by rw [e1, e3]; exact h.stream_le, by rw [e1, e2]; omega,
    by rw [e4, e2]; omega, by rw [e1, e2]; omega⟩

theorem tsdRun_token {s t : State} (h : TsdRun s) (hd : TsdDone s t) : TsdRun (releaseWorking t) := by
  have hf := hd.frame
  obtain ⟨g, cnt, h1, h2, h3, h4⟩ := hd.output
  have e1 : (releaseWorking t).dlen = s.dlen := by rw [hf]; rfl
  have e2 : (releaseWorking t).slen = s.slen := by rw [hf]; rfl
  have e3 : ∀ x, (releaseWorking t).cap x = s.cap x := by intro x; rw [hf]; cases x <;> rfl
  refine ⟨by rw [e2]; exact hd.consumed.2, by rw [e2, e3]; exact h.slen_le, ?_, by rw [e1, e3]; exact h.dlen_le⟩
  rw [e1]
  show t.dpos.toNat ≤ _
  omega

/-! ### Frames of the host transactions -/

theorem regRead_frame (n : Nat) (s : State) :
    regRead n s = { s with rdata := (regRead n s).rdata, portDraws := (regRead n s).portDraws } := by
  unfold regRead; split_ifs <;> rfl

theorem bufRead_frame (x : MemId) (a : Word32) (s : State) :
    bufRead x a s = { s with rdata := (bufRead x a s).rdata, portDraws := (bufRead x a s).portDraws } := by
  unfold bufRead; split_ifs <;> rfl

theorem bufWrite_frame (x : MemId) (a : Word32) (b : Byte) (s : State) :
    bufWrite x a b s =
      { s with strm := (bufWrite x a b s).strm, dbuf := (bufWrite x a b s).dbuf, raw := (bufWrite x a b s).raw } := by
  unfold bufWrite; split_ifs
  · rfl
  · cases x <;> rfl
  · rfl

theorem setRegister_frame (n : Nat) (v : Word32) (s : State) :
    setRegister n v s =
      { s with
        ien := (setRegister n v s).ien
        slen := (setRegister n v s).slen
        dlen := (setRegister n v s).dlen
        width := (setRegister n v s).width
        height := (setRegister n v s).height
        pixsz := (setRegister n v s).pixsz } := by
  unfold setRegister; split <;> rfl

/-- Every memory of the state right after reset has the canonical form. -/
theorem reset_memories_wf (x : MemId) : Memory.wf (State.reset.mem x) := by cases x <;> exact List.Pairwise.nil

/-- A write to a memory keeps its canonical form. -/
theorem writeByte_wf {s : State} (h : ∀ x, Memory.wf (s.mem x)) (y x : MemId) (a : Nat) (b : Byte) :
    Memory.wf ((s.writeByte x a b).mem y) := by
  by_cases hxy : y = x
  · subst hxy; rw [State.writeByte, mem_setMem_same]; exact store_wf (h y) a b
  · rw [State.writeByte, mem_setMem_other s hxy]; exact h y

end Sys2Proof.Machine
end

