-- ==== Sys2Proof/Tests/Slice0.lean ====
section
/-! SUPPORT. Tests: words written out from the spec's encodings, one-step tests from the vectors of 95_test_vectors.md (each
names its vector), and a witness for the hypotheses of every statement that has some, each clause at a boundary. -/

namespace Sys2Proof.Tests

open Sys2Proof Sys2Proof.Machine

/-- The result is a next state with a property. -/
def holds (r : Result) (p : State → Bool) : Bool :=
  match r with
  | .next t => p t
  | .fault _ => false
  | .refused _ => false

/-- TSD running on a stream with a target length, from the start of DECODE (R100). -/
def tsd (bytes : List Byte) (dlen : Nat) : State :=
  { State.reset with
    strm := placeBytes bytes 0 []
    slen := BitVec.ofNat 32 bytes.length
    dlen := BitVec.ofNat 32 dlen
    st := .busy
    unit := .tsd }

/-- TSD running on the same, at given cursors, with bytes already produced. -/
def tsdAt (bytes : List Byte) (dlen spos : Nat) (ctl : BitVec 9) (out : List Byte) : State :=
  { tsd bytes dlen with
    spos := BitVec.ofNat 32 spos
    ctl := ctl
    dbuf := placeBytes out 0 []
    dpos := BitVec.ofNat 32 out.length }

/-- RFR running at a row, DBUF holding control bytes and filtered bytes from address 8, RAW the rows before (R130). -/
def rfr (w h ps row : Nat) (bytes raw : List Byte) : State :=
  { State.reset with
    dbuf := placeBytes bytes 8 []
    raw := placeBytes raw 0 []
    width := BitVec.ofNat 16 w
    height := BitVec.ofNat 16 h
    pixsz := BitVec.ofNat 16 ps
    dlen := BitVec.ofNat 32 (8 + h + h * w * ps)
    row := BitVec.ofNat 17 row
    st := .busy
    unit := .rfr }

/-- FSF running at a row of a raw image (R150). -/
def fsf (w h ps row : Nat) (raw : List Byte) : State :=
  { State.reset with
    raw := placeBytes raw 0 []
    width := BitVec.ofNat 16 w
    height := BitVec.ofNat 16 h
    pixsz := BitVec.ofNat 16 ps
    row := BitVec.ofNat 17 row
    st := .busy
    unit := .fsf }

/-- TSP running on a buffer, from the start of PACK (R180). -/
def tsp (bytes : List Byte) : State :=
  { State.reset with
    dbuf := placeBytes bytes 0 []
    dlen := BitVec.ofNat 32 bytes.length
    st := .busy
    unit := .tsp }

/-- An idle block with a geometry, a buffer length and a stream length. -/
def idle (w h ps dlen slen : Nat) : State :=
  { State.reset with
    width := BitVec.ofNat 16 w
    height := BitVec.ofNat 16 h
    pixsz := BitVec.ofNat 16 ps
    dlen := BitVec.ofNat 32 dlen
    slen := BitVec.ofNat 32 slen }

/-! ### WellFormed: each check refuses an ill-formed term -/

theorem test_wf_refuses_long_run : (Instr.lit (List.replicate 256 0#8)).wf = false := by
  simp only [Instr.wf, List.length_replicate]; decide
theorem test_wf_takes_longest_run : (Instr.lit (List.replicate 255 0#8)).wf = true := by
  simp only [Instr.wf, List.length_replicate]; decide
theorem test_wf_refuses_legal_code : (Instr.illegalCmd 5#8 0#24).wf = false := by decide
theorem test_wf_takes_first_illegal_code : (Instr.illegalCmd 6#8 0#24).wf = true := by decide

/-! ### Words written out from 30_encoding.md, one per constructor -/

theorem test_decode_ctlb : decode .ctl [0x02#8] = .ok (.ctlb 0x02#8, []) := rfl
/-- Program P1: `lit 61 62 63`. -/
theorem test_decode_lit :
    decode (.token false) [0x03#8, 0x61#8, 0x62#8, 0x63#8] = .ok (.lit [0x61#8, 0x62#8, 0x63#8], []) := rfl
/-- Program P1: `ref.s off=3, cnt=5` is 39 00. -/
theorem test_decode_refS : decode (.token true) [0x39#8, 0x00#8] = .ok (.refS 3#12 1#3, []) := rfl
/-- Vector T2: `ref.l off=2, cnt=300` is 21 00 28. -/
theorem test_decode_refL : decode (.token true) [0x21#8, 0x00#8, 0x28#8] = .ok (.refL 2#12 1#3 0x28#8, []) := rfl
/-- Vector V5: 03 has bits 0 and 1 set and is Raw; FE is Vertical; FC is Average. -/
theorem test_decode_rowRaw : decode .row [0x03#8] = .ok (.rowRaw 0#6 1#1, []) := rfl
theorem test_decode_rowVert : decode .row [0xFE#8] = .ok (.rowVert 0x3F#6, []) := rfl
theorem test_decode_rowAvg : decode .row [0xFC#8] = .ok (.rowAvg 0x3F#6, []) := rfl
theorem test_decode_fwdRaw : decode .rowOut [0x01#8] = .ok (.fwdRaw, []) := rfl
theorem test_decode_fwdVert : decode .rowOut [0x02#8] = .ok (.fwdVert, []) := rfl
theorem test_decode_pkblk : decode .packOut [0x00#8] = .ok (.pkblk, []) := rfl
theorem test_decode_nop : commandInstr 0x00000000#32 = .nop 0#24 := rfl
/-- Vector H5: bits 31:8 are ignored. -/
theorem test_decode_decode : commandInstr 0x00000101#32 = .decode 1#24 := rfl
theorem test_decode_recon : commandInstr 0x00000002#32 = .recon 0#24 := rfl
theorem test_decode_filter : commandInstr 0x00000003#32 = .filter 0#24 := rfl
theorem test_decode_pack : commandInstr 0x00000004#32 = .pack 0#24 := rfl
theorem test_decode_clear : commandInstr 0x00000005#32 = .clear 0#24 := rfl
/-- Vector H6. -/
theorem test_decode_illegal : commandInstr 0x00000106#32 = .illegalCmd 6#8 1#24 := rfl
/-- A row control byte FSF never emits is refused by name, and so is a short token. -/
theorem test_decode_refuses :
    decode .rowOut [0x00#8] = .error (.neverEmitted 0x00#8) ∧ decode .packOut [0x01#8] = .error (.neverEmitted 0x01#8) ∧
    decode (.token true) [0x21#8, 0x00#8] = .error .truncated ∧
    decode (.token false) [0x02#8, 0x41#8] = .error .truncated := ⟨rfl, rfl, rfl, rfl⟩
/-- The words of spec/opcode_table.json (log 14). -/
theorem test_table_words :
    decodeTableWord 16 0x001E = some (.refS 1#12 6#3) ∧ decodeTableWord 24 0x280021 = some (.refL 2#12 1#3 0x28#8) ∧
    decodeTableWord 8 0x00 = some .pkblk ∧ decodeTableWord 8 0x01 = some .fwdRaw ∧ decodeTableWord 8 0x02 = some .fwdVert ∧
    decodeTableWord 8 0x03 = some (.rowRaw 0#6 1#1) ∧ decodeTableWord 8 0x06 = some (.rowVert 1#6) ∧
    decodeTableWord 8 0x04 = some (.rowAvg 1#6) ∧ decodeTableWord 32 0x05 = some (.clear 0#24) := by decide

/-! ### One step each, from the vectors -/

/-- T1: CTL 0x002 is exhausted; the control byte 02 gives 0x102. -/
theorem test_ctlb_reload :
    holds (exec (.ctlb 0x02#8) (tsd [0x02#8] 1)) (fun t => t.ctl == 0x102#9 && t.spos == 1#32) = true := by decide
/-- F1: no control byte. -/
theorem test_ctlb_truncated : holds (exec (.ctlb 0#8) (tsd [] 1))
    (fun t => t.statusWord == 0x07#32 && t.fcode == 1#8 && t.finfo == 0#32 && t.ctl == 2#9) = true := by decide
/-- P1, step 1. -/
theorem test_lit_step : holds (step (tsd [0x02#8, 0x03#8, 0x61#8, 0x62#8, 0x63#8, 0x39#8, 0x00#8, 0x01#8, 0x21#8] 9))
    (fun t => t.spos == 5#32 && t.dpos == 3#32 && t.ctl == 0x102#9 &&
      t.readBytes .dbuf 0 3 == [0x61#8, 0x62#8, 0x63#8]) = true := by decide
/-- F12: a literal both cut short and too long is TruncatedStream, and the control byte is un-fetched. -/
theorem test_lit_fault : holds (step (tsd [0x00#8, 0x05#8, 0x41#8, 0x42#8] 2))
    (fun t => t.statusWord == 0x07#32 && t.fcode == 1#8 && t.spos == 0#32 && t.dpos == 0#32 && t.ctl == 2#9) = true := by
  decide
/-- P1, step 2: OFFSET 3 is smaller than COUNT 5. -/
theorem test_refS_step : holds (step (tsdAt [0x02#8, 0x03#8, 0x61#8, 0x62#8, 0x63#8, 0x39#8, 0x00#8, 0x01#8, 0x21#8] 9 5
      0x102#9 [0x61#8, 0x62#8, 0x63#8]))
    (fun t => t.spos == 7#32 && t.dpos == 8#32 && t.ctl == 0x081#9 &&
      t.readBytes .dbuf 0 8 == [0x61#8, 0x62#8, 0x63#8, 0x61#8, 0x62#8, 0x63#8, 0x61#8, 0x62#8]) = true := by decide
/-- F9: offset 0. -/
theorem test_refS_fault : holds (step (tsdAt [0x02#8, 0x01#8, 0x5A#8, 0x08#8, 0x00#8] 5 3 0x102#9 [0x5A#8]))
    (fun t => t.statusWord == 0x07#32 && t.fcode == 2#8 && t.finfo == 3#32 && t.spos == 3#32 && t.ctl == 0x102#9) = true := by
  decide
/-- T8, step 2: the long form of count 4. -/
theorem test_refL_step : holds (step (tsdAt [0x02#8, 0x01#8, 0x5A#8, 0x10#8, 0x00#8, 0x00#8] 5 3 0x102#9 [0x5A#8]))
    (fun t => t.spos == 6#32 && t.dpos == 5#32 && t.ctl == 0x081#9 &&
      t.readBytes .dbuf 0 5 == [0x5A#8, 0x5A#8, 0x5A#8, 0x5A#8, 0x5A#8]) = true := by decide
/-- F6: the extension byte is missing. -/
theorem test_refL_fault : holds (step (tsdAt [0x02#8, 0x01#8, 0x5A#8, 0x10#8, 0x00#8] 5 3 0x102#9 [0x5A#8]))
    (fun t => t.fcode == 1#8 && t.finfo == 3#32 && t.spos == 3#32 && t.dpos == 1#32) = true := by decide
/-- V1: a row of two three-byte pixels. -/
theorem test_rowRaw_step : holds (step (rfr 2 1 3 0 [0x01#8, 0x10#8, 0x20#8, 0x30#8, 0x05#8, 0x05#8, 0x05#8] []))
    (fun t => t.row == 1#17 && !t.undef &&
      t.readBytes .raw 0 6 == [0x10#8, 0x20#8, 0x30#8, 0x0B#8, 0x1B#8, 0x2B#8]) = true := by decide
/-- V10, row 1: Vertical of one pixel. -/
theorem test_rowVert_step : holds (step (rfr 1 3 1 1 [0x01#8, 0x02#8, 0x00#8, 0xAA#8, 0x01#8, 0x02#8] [0xAA#8]))
    (fun t => t.row == 2#17 && t.readBytes .raw 0 2 == [0xAA#8, 0xA9#8]) = true := by decide
/-- V7: Vertical in row 0 sets UNDEF and goes on. -/
theorem test_rowVert_rowZero : holds (step (rfr 2 1 1 0 [0x02#8, 0x01#8, 0x02#8] []))
    (fun t => t.undef && t.row == 1#17 && t.draws == 3) = true := by decide
/-- V4, row 1: the averaged sum 0x12C does not wrap. -/
theorem test_rowAvg_step : holds (step (rfr 3 2 1 1 [0x01#8, 0x00#8, 0xC8#8, 0x64#8, 0x03#8, 0xC8#8, 0x08#8, 0x00#8]
      [0xC8#8, 0x64#8, 0x61#8]))
    (fun t => t.row == 2#17 && t.readBytes .raw 3 3 == [0xC8#8, 0x8E#8, 0x77#8]) = true := by decide
/-- S5, row 1: Raw is the strict minimum. -/
theorem test_fwdRaw_step : holds (step (fsf 2 2 1 1 [0x07#8, 0x09#8, 0x07#8, 0x03#8]))
    (fun t => t.row == 2#17 && t.readByte .dbuf 9 == 0x01#8 && t.readBytes .dbuf 12 2 == [0x07#8, 0x04#8]) = true := by
  decide
/-- S1, row 1: all scores tie and Vertical is chosen. -/
theorem test_fwdVert_step : holds (step (fsf 3 2 1 1 [0x0A#8, 0x0A#8, 0x0A#8, 0x0A#8, 0x0A#8, 0x0A#8]))
    (fun t => t.row == 2#17 && t.readByte .dbuf 9 == 0x02#8 && t.readBytes .dbuf 13 3 == [0#8, 0#8, 0#8]) = true := by
  decide
/-- S6: the scores of row 1 are (576, 12, 674). -/
theorem test_scores :
    let s := scoreRow (fsf 2 2 3 1
      [0x10#8, 0x20#8, 0x30#8, 0x40#8, 0x60#8, 0x80#8, 0x0F#8, 0x1E#8, 0x2D#8, 0x3F#8, 0x5E#8, 0x7D#8])
    s.sraw = 576 ∧ s.svert = 12 ∧ s.savg = 674 := by decide
/-- MAG(x) = min(x, 256 - x), the alternative of 93_implementation_defined.md U4, as a table. -/
def altMag : List (Byte × Nat) := (List.range 127).map fun i => (BitVec.ofNat 8 (129 + i), 127 - i)
/-- S8 under the alternative MAG: the scores of row 1 are (180, 12, 87). -/
theorem test_scores_altMag :
    let s := scoreRow { fsf 2 2 3 1 [0x10#8, 0x20#8, 0x30#8, 0x40#8, 0x60#8, 0x80#8, 0x12#8, 0x22#8, 0x32#8, 0x3E#8, 0x5E#8,
      0x7E#8] with magTab := altMag }
    s.sraw = 180 ∧ s.svert = 12 ∧ s.savg = 87 := by decide
/-- An AVG whose sum wraps at 8 bits gives 0x48 for (0xC8, 0xC8) (41_row_reconstruct.md R135); ROW.AVG uses it. -/
theorem test_rowAvg_altAvg : holds (exec (.rowAvg 0#6) { rfr 2 2 1 1 [0x01#8, 0x00#8, 0x00#8, 0x00#8, 0xC8#8, 0x08#8]
      [0x00#8, 0xC8#8] with avgTab := [((0xC8#8, 0xC8#8), 0x48#8)] })
    (fun t => t.readBytes .raw 2 2 == [0xC8#8, 0x40#8]) = true := by decide
/-- K3. -/
theorem test_pkblk_step : holds (step (tsp [0x61#8, 0x62#8, 0x63#8]))
    (fun t => t.spos == 5#32 && t.dpos == 3#32 &&
      t.readBytes .strm 0 5 == [0x00#8, 0x03#8, 0x61#8, 0x62#8, 0x63#8]) = true := by decide
/-- H2: NOP; H3: CLEAR in IDLE. -/
theorem test_nop : holds (exec (.nop 7#24) (tsd [] 1)) (fun t => t == tsd [] 1) = true := by decide
/-- H5. -/
theorem test_decode : holds (exec (.decode 1#24) (idle 0 0 0 5 4)) (fun t => t.statusWord == 0x05#32 && t.ctl == 2#9) = true := by
  decide
/-- G3: the size invariant fails with the expected length in FINFO. -/
theorem test_recon_size : holds (exec (.recon 0#24) (idle 2 2 3 21 0))
    (fun t => t.statusWord == 0x0B#32 && t.fcode == 5#8 && t.finfo == 22#32) = true := by decide
/-- G5: the sizes are exact, and Capacity comes before SizeInvariant. -/
theorem test_recon_capacity : holds (exec (.recon 0#24) { idle 65535 65535 65535 0 0 with rawCap := 4096#32 })
    (fun t => t.statusWord == 0x0B#32 && t.fcode == 6#8 && t.finfo == 0#32) = true := by decide
/-- FILTER with WIDTH = 0: BadGeometry in FSF. -/
theorem test_filter_geometry : holds (exec (.filter 0#24) (idle 0 1 1 0 0))
    (fun t => t.statusWord == 0x0F#32 && t.fcode == 4#8) = true := by decide
/-- TSP start fault: STRM_CAP = 256 and 255 bytes need 257. -/
theorem test_pack_capacity : holds (exec (.pack 0#24) { idle 0 0 0 255 0 with strmCap := 256#32 })
    (fun t => t.statusWord == 0x13#32 && t.fcode == 6#8) = true := by decide
/-- CLEAR after a fault. -/
theorem test_clear : holds (exec (.clear 0#24) (raise .badReference 3 .tsd (tsd [] 1)))
    (fun t => t.statusWord == 0#32 && t.fcode == 0#8 && t.finfo == 0#32 && t.dlen == 1#32) = true := by decide
/-- H4. -/
theorem test_illegal : holds (exec (commandInstr 0x17#32) State.reset)
    (fun t => t.statusWord == 0x03#32 && t.fcode == 7#8 && t.finfo == 0x17#32) = true := by decide
/-- H1 and H16. -/
theorem test_registers :
    (regRead 12 State.reset).rdata = 2#32 ∧ (regRead 7 (setRegister 7 0x12345#32 State.reset)).rdata = 0x2345#32 := by
  decide

/-! ### Words placed after reset run at the next step (log 14) -/

theorem test_place_refS : holds (step (State.reset.withFetchWord 16 0x0008)) (fun t => t.st == .fault && t.fcode == 2#8) = true := by
  decide
theorem test_place_row : holds (step (State.reset.withFetchWord 8 0x03)) (fun t => t.row == 1#17 && !t.undef) = true := by
  decide
theorem test_place_fwdVert : holds (step (State.reset.withFetchWord 8 0x02)) (fun t => t.readByte .dbuf 9 == 0x02#8) = true := by
  decide
theorem test_place_pkblk : holds (step (State.reset.withFetchWord 8 0x00)) (fun t => t.spos == 3#32) = true := by decide
theorem test_place_command : holds (step (State.reset.withFetchWord 32 0x06)) (fun t => t.fcode == 7#8) = true := by decide

/-! ### Witnesses: each meets the hypotheses of the statement it names, one per clause, at a boundary -/

theorem witness_DecodeUndoesEncode : (Instr.lit (List.replicate 255 0x41#8)).wf = true := by
  simp only [Instr.wf, List.length_replicate]; decide
theorem witness_EncodeUndoesDecode : decode .row [0xFF#8, 0x41#8] = .ok (.rowRaw 0x3F#6 1#1, [0x41#8]) := rfl
theorem witness_BackReferenceOperands :
    ((0xFF#8).toNat + 256 * (0xFF#8).toNat) / 8 % 2 = 1 ∧ ((0xF7#8).toNat + 256 * (0xFF#8).toNat) / 8 % 2 = 0 ∧
    (0x02#8).toNat ≤ [0x41#8, 0x42#8].length := by decide
theorem witness_RowControlByteModes :
    (0xFF#8).toNat % 2 = 1 ∧ (0xFE#8).toNat % 4 = 2 ∧ (0xFC#8).toNat % 4 = 0 := by decide
theorem witness_CommandWordCodes :
    (0xFFFFFF00#32).toNat % 256 = 0 ∧ (0xFFFFFF01#32).toNat % 256 = 1 ∧ (2#32).toNat % 256 = 2 ∧ (3#32).toNat % 256 = 3 ∧
    (4#32).toNat % 256 = 4 ∧ (5#32).toNat % 256 = 5 ∧ 6 ≤ (6#32).toNat % 256 ∧ 6 ≤ (0xFF#32).toNat % 256 := by decide
theorem witness_ControlByteFetch :
    ((tsd [0x02#8] 1).ctl.toNat / 2 = 1 ∧ (tsd [0x02#8] 1).spos.toNat < (tsd [0x02#8] 1).slen.toNat) ∧
    ((tsd [] 1).ctl.toNat / 2 = 1 ∧ (tsd [] 1).slen.toNat ≤ (tsd [] 1).spos.toNat) ∧
    (tsdAt [0x02#8] 2 1 0x102#9 []).ctl.toNat / 2 ≠ 1 := by decide
theorem witness_DispatchBitsInOrder : (7 : Nat) < 8 := by decide

/-- The stream ends one byte into the run; the run fits the stream and passes DLEN by one; it fits both exactly. -/
theorem witness_LiteralRun :
    ([1#8, 2#8, 3#8].length ≤ 255 ∧ (idle 0 0 0 9 3).dlen.toNat ≤ (idle 0 0 0 9 3).cap .dbuf ∧
      (idle 0 0 0 9 3).slen.toNat < (idle 0 0 0 9 3).spos.toNat + 1 + [1#8, 2#8, 3#8].length) ∧
    ((idle 0 0 0 2 4).dlen.toNat ≤ (idle 0 0 0 2 4).cap .dbuf ∧
      (idle 0 0 0 2 4).spos.toNat + 1 + [1#8, 2#8, 3#8].length ≤ (idle 0 0 0 2 4).slen.toNat ∧
      (idle 0 0 0 2 4).dlen.toNat < (idle 0 0 0 2 4).dpos.toNat + [1#8, 2#8, 3#8].length) ∧
    ((List.replicate 255 0#8).length ≤ 255 ∧ (idle 0 0 0 255 256).dlen.toNat ≤ (idle 0 0 0 255 256).cap .dbuf ∧
      (idle 0 0 0 255 256).spos.toNat + 1 + (List.replicate 255 0#8).length ≤ (idle 0 0 0 255 256).slen.toNat ∧
      (idle 0 0 0 255 256).dpos.toNat + (List.replicate 255 0#8).length ≤ (idle 0 0 0 255 256).dlen.toNat) := by
  simp only [List.length_replicate]; decide

/-- A stream of `slen` bytes, four bytes produced, `dlen` in all. -/
def produced (slen dlen : Nat) : State := { idle 0 0 0 dlen slen with dpos := 4#32 }

theorem witness_ShortBackReference :
    ((produced 1 8).dlen.toNat ≤ (produced 1 8).cap .dbuf ∧ (produced 1 8).slen.toNat < (produced 1 8).spos.toNat + 2) ∧
    ((produced 2 8).spos.toNat + 2 ≤ (produced 2 8).slen.toNat ∧ (0#12).toNat = 0 ∧
      (produced 2 8).dpos.toNat < (5#12).toNat) ∧
    ((produced 2 7).spos.toNat + 2 ≤ (produced 2 7).slen.toNat ∧ 1 ≤ (4#12).toNat ∧
      (4#12).toNat ≤ (produced 2 7).dpos.toNat ∧
      (produced 2 7).dlen.toNat < (produced 2 7).dpos.toNat + ((0#3).toNat + 4)) ∧
    ((produced 2 8).spos.toNat + 2 ≤ (produced 2 8).slen.toNat ∧ (4#12).toNat ≤ (produced 2 8).dpos.toNat ∧
      (produced 2 8).dpos.toNat + ((0#3).toNat + 4) ≤ (produced 2 8).dlen.toNat) := by decide

theorem witness_LongBackReference :
    ((produced 2 8).dlen.toNat ≤ (produced 2 8).cap .dbuf ∧ (produced 2 8).slen.toNat < (produced 2 8).spos.toNat + 3) ∧
    ((produced 3 8).spos.toNat + 3 ≤ (produced 3 8).slen.toNat ∧ (0#12).toNat = 0 ∧
      (produced 3 8).dpos.toNat < (5#12).toNat) ∧
    ((produced 3 2054).spos.toNat + 3 ≤ (produced 3 2054).slen.toNat ∧ 1 ≤ (4#12).toNat ∧
      (4#12).toNat ≤ (produced 3 2054).dpos.toNat ∧
      (produced 3 2054).dlen.toNat < (produced 3 2054).dpos.toNat + ((7#3).toNat * 256 + (255#8).toNat + 4)) ∧
    ((produced 3 2055).spos.toNat + 3 ≤ (produced 3 2055).slen.toNat ∧
      (produced 3 2055).dpos.toNat + ((7#3).toNat * 256 + (255#8).toNat + 4) ≤ (produced 3 2055).dlen.toNat) := by decide

theorem witness_NonCanonicalLongForm : (produced 3 8).spos.toNat + 3 ≤ (produced 3 8).slen.toNat := by decide

/-- Program P1's stream. -/
def p1 : List Byte := [0x02#8, 0x03#8, 0x61#8, 0x62#8, 0x63#8, 0x39#8, 0x00#8, 0x01#8, 0x21#8]

/-- P1 before its step 2: no reload is due, and a back-reference follows. -/
def p1Second : State := tsdAt p1 9 5 0x102#9 [0x61#8, 0x62#8, 0x63#8]

theorem witness_TokenStepRunsDecoded_shift :
    p1Second.events = [] ∧ p1Second.st = .busy ∧ p1Second.unit = .tsd ∧ p1Second.dpos ≠ p1Second.dlen ∧
    p1Second.slen.toNat ≤ p1Second.cap .strm ∧ p1Second.ctl.toNat / 2 ≠ 1 ∧
    decode (.token (dispatchBit (shiftCtl p1Second.ctl)))
      ({ p1Second with ctl := shiftCtl p1Second.ctl }.readBytes .strm 5 4) = .ok (.refS 3#12 1#3, [0x01#8, 0x21#8]) ∧
    holds (exec (.refS 3#12 1#3) { p1Second with ctl := shiftCtl p1Second.ctl }) (fun t => t.st == .busy) = true := by
  refine ⟨rfl, rfl, rfl, by decide, by decide, by decide, rfl, by decide⟩

theorem witness_TokenStepRunsDecoded_reload :
    (tsd p1 9).events = [] ∧ (tsd p1 9).dpos ≠ (tsd p1 9).dlen ∧ (tsd p1 9).ctl.toNat / 2 = 1 ∧
    (tsd p1 9).spos.toNat < (tsd p1 9).slen.toNat ∧
    exec (.ctlb ((tsd p1 9).readByte .strm (tsd p1 9).spos.toNat)) (tsd p1 9) =
      .next { tsd p1 9 with ctl := 0x102#9, spos := 1#32 } ∧
    decode (.token (dispatchBit 0x102#9)) ({ tsd p1 9 with ctl := 0x102#9, spos := 1#32 }.readBytes .strm 1 8) =
      .ok (.lit [0x61#8, 0x62#8, 0x63#8], [0x39#8, 0x00#8, 0x01#8, 0x21#8]) ∧
    holds (exec (.lit [0x61#8, 0x62#8, 0x63#8]) { tsd p1 9 with ctl := 0x102#9, spos := 1#32 })
      (fun t => t.st == .busy) = true := by
  refine ⟨rfl, by decide, by decide, by decide, rfl, rfl, by decide⟩

/-- F9 before its faulting step. -/
def f9 : State := tsdAt [0x02#8, 0x01#8, 0x5A#8, 0x08#8, 0x00#8] 5 3 0x102#9 [0x5A#8]

theorem witness_TokenStepRunsDecoded_fault :
    f9.ctl.toNat / 2 ≠ 1 ∧
    decode (.token (dispatchBit (shiftCtl f9.ctl))) ({ f9 with ctl := shiftCtl f9.ctl }.readBytes .strm 3 2) =
      .ok (.refS 0#12 0#3, []) ∧
    holds (exec (.refS 0#12 0#3) { f9 with ctl := shiftCtl f9.ctl }) (fun t => t.st == .fault) = true := by
  refine ⟨by decide, rfl, by decide⟩

/-- F1, F6 and F2. -/
theorem witness_TokenStepTruncated :
    ((tsd [] 1).dpos ≠ (tsd [] 1).dlen ∧ (tsd [] 1).ctl.toNat / 2 = 1 ∧ (tsd [] 1).slen.toNat ≤ (tsd [] 1).spos.toNat) ∧
    (let s := tsdAt [0x02#8, 0x01#8, 0x5A#8, 0x10#8, 0x00#8] 5 3 0x102#9 [0x5A#8]
     s.ctl.toNat / 2 ≠ 1 ∧ decode (.token (dispatchBit (shiftCtl s.ctl)))
       ({ s with ctl := shiftCtl s.ctl }.readBytes .strm 3 2) = .error .truncated) ∧
    ((tsd [0x00#8] 1).ctl.toNat / 2 = 1 ∧ (tsd [0x00#8] 1).spos.toNat < (tsd [0x00#8] 1).slen.toNat ∧
      decode (.token (dispatchBit (reloadCtl 0x00#8))) ({ tsd [0x00#8] 1 with spos := 1#32 }.readBytes .strm 1 0) =
        .error .truncated) :=
  ⟨by decide, ⟨by decide, rfl⟩, by decide, by decide, rfl⟩

theorem witness_TokenFaultsPrecise :
    f9.events = [] ∧ f9.st = .busy ∧ f9.unit = .tsd ∧ holds (step f9) (fun t => t.st == .fault) = true := by decide

/-- A stream with another byte beyond SLEN. -/
theorem witness_StreamReadsBelowSlen :
    f9.st = .busy ∧ f9.unit = .tsd ∧
    (∀ a, a < f9.slen.toNat → Memory.lookup (Memory.store f9.strm 5 0xEE#8) a = Memory.lookup f9.strm a) := by decide

/-- A buffer with another byte at DPOS. -/
theorem witness_DecodeIgnoresOldBuffer :
    let s := { p1Second with dbuf := Memory.store p1Second.dbuf 3 0xEE#8 }
    p1Second.st = .busy ∧ p1Second.unit = .tsd ∧ s = { p1Second with dbuf := s.dbuf } ∧
    (∀ a, a < p1Second.dpos.toNat → s.readByte .dbuf a = p1Second.readByte .dbuf a) ∧
    holds (unitStep p1Second) (fun t => t.dpos == 8#32) = true := by
  refine ⟨rfl, rfl, rfl, ?_, by decide⟩
  intro a ha
  have h : a = 0 ∨ a = 1 ∨ a = 2 := by have : p1Second.dpos.toNat = 3 := rfl; omega
  rcases h with rfl | rfl | rfl <;> rfl

/-- Row 0 and the last row of an image of 2 by 3 one-byte pixels, and an image of one pixel. -/
theorem witness_rowRun_first : RfrRun (rfr 2 3 1 0 [] []) ∧ (rfr 2 3 1 0 [] []).row.toNat < (rfr 2 3 1 0 [] []).height.toNat :=
  ⟨⟨⟨by decide, by decide⟩, by decide, by decide, by decide, by decide⟩, by decide⟩
theorem witness_rowRun_last : RfrRun (rfr 2 3 1 2 [] []) ∧ (rfr 2 3 1 2 [] []).row.toNat < (rfr 2 3 1 2 [] []).height.toNat :=
  ⟨⟨⟨by decide, by decide⟩, by decide, by decide, by decide, by decide⟩, by decide⟩
theorem witness_rowRun_pixel : RfrRun (rfr 1 1 1 0 [] []) ∧ (rfr 1 1 1 0 [] []).row.toNat < (rfr 1 1 1 0 [] []).height.toNat :=
  ⟨⟨⟨by decide, by decide⟩, by decide, by decide, by decide, by decide⟩, by decide⟩

theorem witness_RowStepRunsDecoded :
    let s := rfr 1 3 1 1 [0x01#8, 0x02#8, 0x00#8, 0xAA#8, 0x01#8, 0x02#8] [0xAA#8]
    s.events = [] ∧ s.st = .busy ∧ s.unit = .rfr ∧ s.row.toNat ≠ s.height.toNat ∧ 8 + s.row.toNat < s.cap .dbuf ∧
    decode .row [s.readByte .dbuf (8 + s.row.toNat)] = .ok (.rowVert 0#6, []) :=
  ⟨rfl, rfl, rfl, by decide, by decide, rfl⟩

theorem witness_UndefSetOnlyInRowZero :
    (rfr 2 1 1 0 [0x02#8, 0x01#8, 0x02#8] []).undef = false ∧
    holds (step (rfr 2 1 1 0 [0x02#8, 0x01#8, 0x02#8] [])) (fun t => t.undef) = true := by decide

/-- Row 0, the last row, and an image of one pixel. -/
theorem witness_filterRun_first : FsfRun (fsf 2 3 1 0 []) ∧ (fsf 2 3 1 0 []).row.toNat < (fsf 2 3 1 0 []).height.toNat :=
  ⟨⟨⟨by decide, by decide⟩, by decide, by decide, by decide⟩, by decide⟩
theorem witness_filterRun_last :
    FsfRun (fsf 2 3 1 2 []) ∧ 1 ≤ (fsf 2 3 1 2 []).row.toNat ∧ (fsf 2 3 1 2 []).row.toNat < (fsf 2 3 1 2 []).height.toNat :=
  ⟨⟨⟨by decide, by decide⟩, by decide, by decide, by decide⟩, by decide, by decide⟩
theorem witness_VerticalFilterNeedsRowAbove : (fsf 2 3 1 0 []).row.toNat = 0 := by decide

/-- The default configuration, and a function that is 0 at 0. -/
theorem witness_configuration :
    State.reset.avgTab = [] ∧ State.reset.magTab = [] ∧ (fun x : Byte => min x.toNat (256 - x.toNat)) 0#8 = 0 := by decide

/-- Row 0; a tie (S1); a row where Raw is the strict minimum (S5). -/
theorem witness_FilterStepSelects :
    (fsf 2 3 1 0 []).events = [] ∧ (fsf 2 3 1 0 []).row.toNat = 0 ∧
    (let s := scoreRow (fsf 3 2 1 1 [10#8, 10#8, 10#8, 10#8, 10#8, 10#8])
     s.row.toNat < s.height.toNat ∧ 1 ≤ s.row.toNat ∧ s.svert ≤ s.sraw ∧ s.svert ≤ s.savg) ∧
    (let s := scoreRow (fsf 2 2 1 1 [7#8, 9#8, 7#8, 3#8])
     s.row.toNat < s.height.toNat ∧ 1 ≤ s.row.toNat ∧ ¬ (s.svert ≤ s.sraw ∧ s.svert ≤ s.savg)) := by decide

/-- TSP at the start of a full block, and with one byte left after one. -/
def tspAt (dlen spos dpos : Nat) : State :=
  { tsp [] with dlen := BitVec.ofNat 32 dlen, spos := BitVec.ofNat 32 spos, dpos := BitVec.ofNat 32 dpos }

theorem witness_packRun_full : TspRun (tspAt 2040 0 0) ∧ (tspAt 2040 0 0).dpos ≠ (tspAt 2040 0 0).dlen :=
  ⟨⟨by decide, by decide, by decide, by decide, by decide⟩, by decide⟩
theorem witness_packRun_last : TspRun (tspAt 2041 2049 2040) ∧ (tspAt 2041 2049 2040).dpos ≠ (tspAt 2041 2049 2040).dlen :=
  ⟨⟨by decide, by decide, by decide, by decide, by decide⟩, by decide⟩
theorem witness_PackStepRunsBlock : (tsp [0x5A#8]).events = [] ∧ (tsp [0x5A#8]).st = .busy ∧ (tsp [0x5A#8]).unit = .tsp := by
  decide

theorem witness_UnitsComplete :
    ((tsd [] 0).events = [] ∧ (tsd [] 0).st = .busy ∧ (tsd [] 0).unit = .tsd ∧ (tsd [] 0).dpos = (tsd [] 0).dlen) ∧
    ((rfr 2 0 3 0 [] []).unit = .rfr ∧ (rfr 2 0 3 0 [] []).row.toNat = (rfr 2 0 3 0 [] []).height.toNat) ∧
    ((fsf 2 3 1 3 []).unit = .fsf ∧ (fsf 2 3 1 3 []).row.toNat = (fsf 2 3 1 3 []).height.toNat) ∧
    ((tsp []).unit = .tsp ∧ (tsp []).dpos = (tsp []).dlen) := by decide
theorem witness_UnitsComplete_filter : FsfRun (fsf 2 3 1 3 []) :=
  ⟨⟨by decide, by decide⟩, by decide, by decide, by decide⟩

/-- Each kind of stop met one byte beyond a memory. -/
theorem witness_AbsentAddressStops :
    (let s := { idle 0 0 0 3 4 with dbufCap := 2#32 }
     s.spos.toNat + 1 + [1#8, 2#8, 3#8].length ≤ s.slen.toNat ∧ s.dpos.toNat + [1#8, 2#8, 3#8].length ≤ s.dlen.toNat ∧
       s.cap .dbuf < s.dpos.toNat + [1#8, 2#8, 3#8].length) ∧
    (let s := { produced 3 8 with dbufCap := 7#32 }
     s.spos.toNat + 2 ≤ s.slen.toNat ∧ s.spos.toNat + 3 ≤ s.slen.toNat ∧ (4#12).toNat ≤ s.dpos.toNat ∧
       s.dpos.toNat + ((0#3).toNat + 4) ≤ s.dlen.toNat ∧ s.cap .dbuf < s.dpos.toNat + ((0#3).toNat + 4)) ∧
    (let s := { rfr 2 1 1 0 [] [] with dbufCap := 10#32 }
     s.cap .dbuf < s.pixAddr s.row.toNat s.rowSpan) ∧
    (let s := { rfr 2 1 1 0 [] [] with dbufCap := 11#32, rawCap := 1#32 }
     s.pixAddr s.row.toNat s.rowSpan ≤ s.cap .dbuf ∧ s.cap .raw < s.rawAddr s.row.toNat s.rowSpan) ∧
    (let s := { fsf 2 2 1 1 [] with dbufCap := 9#32 }
     s.cap .dbuf < 9 + s.row.toNat ∧ 1 ≤ s.row.toNat) ∧
    (let s := { fsf 2 2 1 1 [] with dbufCap := 14#32, rawCap := 3#32 }
     9 + s.row.toNat ≤ s.cap .dbuf ∧ s.pixAddr s.row.toNat s.rowSpan ≤ s.cap .dbuf ∧
       s.cap .raw < s.rawAddr s.row.toNat s.rowSpan ∧ 1 ≤ s.row.toNat) ∧
    (let s := { tsp [] with dlen := 2#32, dbufCap := 1#32 }
     s.dpos ≠ s.dlen ∧ s.cap .dbuf < s.dpos.toNat + min 2040 (s.dlen.toNat - s.dpos.toNat)) ∧
    (let s := { tsp [] with dlen := 2#32, dbufCap := 2#32, strmCap := 3#32 }
     s.dpos ≠ s.dlen ∧ s.dpos.toNat + min 2040 (s.dlen.toNat - s.dpos.toNat) ≤ s.cap .dbuf ∧
       s.cap .strm < s.spos.toNat + 1 + packRunCount (min 2040 (s.dlen.toNat - s.dpos.toNat)) +
         min 2040 (s.dlen.toNat - s.dpos.toNat)) := by decide

/-- At the end of the image, and TSD with its stream and buffer exactly in their memories. -/
theorem witness_ReconTerminates : (rfr 2 3 1 3 [] []).st = .busy ∧ RfrRun (rfr 2 3 1 3 [] []) :=
  ⟨rfl, ⟨by decide, by decide⟩, by decide, by decide, by decide, by decide⟩
theorem witness_DecodeTerminates : (tsd p1 9).events = [] ∧ (tsd p1 9).st = .busy ∧ (tsd p1 9).unit = .tsd ∧ TsdRun (tsd p1 9) :=
  ⟨rfl, rfl, rfl, by decide, by decide, by decide, by decide⟩

/-- Each start: accepted at the exact capacities, refused one byte beyond, dropped while BUSY. -/
theorem witness_DecodeStarts :
    (let s := { idle 0 0 0 9 5 with strmCap := 5#32, dbufCap := 9#32 }
     s.st = .idle ∧ s.slen.toNat ≤ s.cap .strm ∧ s.dlen.toNat ≤ s.cap .dbuf) ∧
    (let s := { idle 0 0 0 9 5 with strmCap := 4#32, dbufCap := 9#32 }
     s.st = .idle ∧ s.cap .strm < s.slen.toNat) ∧ (tsd p1 9).st ≠ .idle := by decide
theorem witness_ReconStarts :
    ((idle 0 2 3 10 0).st = .idle ∧ (idle 0 2 3 10 0).width = 0 ∧ (idle 2 2 0 10 0).pixsz = 0) ∧
    (let s := { idle 2 2 3 22 0 with dbufCap := 22#32, rawCap := 11#32 }
     s.st = .idle ∧ s.width ≠ 0 ∧ s.pixsz ≠ 0 ∧ s.cap .raw < s.height.toNat * s.width.toNat * s.pixsz.toNat) ∧
    (let s := idle 2 2 3 21 0
     s.st = .idle ∧ s.width ≠ 0 ∧ s.pixsz ≠ 0 ∧ s.dlen.toNat ≤ s.cap .dbuf ∧
       s.height.toNat * s.width.toNat * s.pixsz.toNat ≤ s.cap .raw ∧
       s.dlen.toNat ≠ 8 + s.height.toNat + s.height.toNat * s.width.toNat * s.pixsz.toNat) ∧
    (let s := { idle 2 2 3 22 0 with dbufCap := 22#32, rawCap := 12#32 }
     s.st = .idle ∧ s.width ≠ 0 ∧ s.pixsz ≠ 0 ∧ s.dlen.toNat ≤ s.cap .dbuf ∧
       s.height.toNat * s.width.toNat * s.pixsz.toNat ≤ s.cap .raw ∧
       s.dlen.toNat = 8 + s.height.toNat + s.height.toNat * s.width.toNat * s.pixsz.toNat) ∧
    (rfr 1 1 1 0 [] []).st ≠ .idle := by decide
theorem witness_FilterStarts :
    ((idle 0 2 3 0 0).st = .idle ∧ (idle 0 2 3 0 0).width = 0) ∧
    (let s := { idle 2 2 3 0 0 with dbufCap := 21#32, rawCap := 12#32 }
     s.st = .idle ∧ s.width ≠ 0 ∧ s.pixsz ≠ 0 ∧
       s.cap .dbuf < 8 + s.height.toNat + s.height.toNat * s.width.toNat * s.pixsz.toNat) ∧
    (let s := { idle 2 2 3 0 0 with dbufCap := 22#32, rawCap := 12#32 }
     s.st = .idle ∧ s.width ≠ 0 ∧ s.pixsz ≠ 0 ∧
       8 + s.height.toNat + s.height.toNat * s.width.toNat * s.pixsz.toNat ≤ s.cap .dbuf ∧
       s.height.toNat * s.width.toNat * s.pixsz.toNat ≤ s.cap .raw) ∧ (fsf 1 1 1 0 []).st ≠ .idle := by decide
theorem witness_PackStarts :
    (let s := { idle 0 0 0 255 0 with dbufCap := 255#32, strmCap := 257#32 }
     s.st = .idle ∧ s.dlen.toNat ≤ s.cap .dbuf ∧
       s.dlen.toNat + (s.dlen.toNat + 254) / 255 + ((s.dlen.toNat + 254) / 255 + 7) / 8 ≤ s.cap .strm) ∧
    (let s := { idle 0 0 0 255 0 with dbufCap := 255#32, strmCap := 256#32 }
     s.st = .idle ∧ s.cap .strm < s.dlen.toNat + (s.dlen.toNat + 254) / 255 + ((s.dlen.toNat + 254) / 255 + 7) / 8) ∧
    (tsp []).st ≠ .idle := by decide
theorem witness_NopHasNoEffect : (0xFFFFFF00#32).toNat % 256 = 0 := by decide
theorem witness_ClearAcknowledges :
    (0xFFFFFF05#32).toNat % 256 = 5 ∧
    (complete (tsd [] 0)).st = .done ∧ (tsdFaulted .badReference (tsd [] 1)).st = .fault ∧ State.reset.st = .idle ∧
    (tsd [] 1).st = .busy := by decide
theorem witness_IllegalCommandFaults :
    6 ≤ (6#32).toNat % 256 ∧ 6 ≤ (0xFFFFFFFF#32).toNat % 256 ∧ State.reset.st = .idle ∧ (tsd [] 1).st ≠ .idle := by decide

/-- A state with pending events. -/
def withEvents (s : State) (es : List Event) : State := { s with events := es }

theorem witness_StepRunsEventOrCommand :
    (withEvents (tsd [] 1) [.unitStep]).events = [.unitStep] ∧
    (withEvents (tsd [] 1) [.bufRead .dbuf 0#32]).events = [.bufRead .dbuf 0#32] ∧ (tsd [] 1).events = [] ∧
    (State.reset.events = [] ∧ State.reset.st ≠ .busy) ∧
    (withEvents State.reset [.regWrite 0 1#32]).events = [.regWrite 0 1#32] ∧
    decode .command (wordBytes 1#32) = .ok (.decode 0#24, []) := ⟨rfl, rfl, rfl, ⟨rfl, by decide⟩, rfl, rfl⟩
theorem witness_BusyRefusesHost :
    (∀ e ∈ [Event.regRead 1, .regRead 0, .regRead 13, .regRead 14, .bufRead .dbuf 0#32, .regWrite 0 5#32,
      .bufWrite .dbuf 0#32 0#8], (withEvents (tsd [] 1) [e]).st = .busy ∧ (withEvents (tsd [] 1) [e]).events = [e] ∧
      e ≠ .unitStep ∧ e ≠ .reset) := by decide
theorem witness_InterleavingKeepsOutcome :
    let s := withEvents (tsd p1 9) [.regWrite 6 1#32, .unitStep]
    s.st = .busy ∧ s.events = .regWrite 6 1#32 :: .unitStep :: [] ∧
    holds (step { s with events := [.unitStep] }) (fun t => t.dpos == 3#32) = true := ⟨rfl, rfl, by decide⟩
theorem witness_RegisterReads :
    ∀ n ∈ [0, 1, 2, 3, 4, 5, 6, 7, 8, 9, 10, 11, 12, 13, 14],
      (withEvents State.reset [.regRead n]).st ≠ .busy ∧ (withEvents State.reset [.regRead n]).events = [.regRead n] := by
  decide
theorem witness_RegisterWrites :
    ∀ n ∈ [1, 3, 4, 5, 6, 7, 8, 9, 10, 14], (withEvents State.reset [.regWrite n 0xFFFFFFFF#32]).st ≠ .busy ∧ n ≠ 0 ∧
      (withEvents State.reset [.regWrite n 0xFFFFFFFF#32]).events = [.regWrite n 0xFFFFFFFF#32] := by decide
/-- The last address that exists and the first that does not. -/
theorem witness_BufferPortAccess :
    let s := withEvents State.reset [.bufWrite .raw 0xFFFFFFFE#32 7#8, .bufRead .raw 0xFFFFFFFE#32]
    s.st ≠ .busy ∧ (0xFFFFFFFE#32).toNat < s.cap .raw ∧ s.cap .raw ≤ (0xFFFFFFFF#32).toNat := by decide
theorem witness_ResetTransaction : (withEvents (tsd [] 1) [.reset]).events = [.reset] := rfl
/-- One step of each kind of transition. -/
theorem witness_StateTransitions :
    holds (step (withEvents (tsd [] 1) [.reset])) (fun t => t.st == .idle) = true ∧
    holds (step (withEvents State.reset [.regWrite 0 1#32])) (fun t => t.st == .busy) = true ∧
    holds (step (withEvents State.reset [.regWrite 0 6#32])) (fun t => t.st == .fault) = true ∧
    holds (step (tsd [] 0)) (fun t => t.st == .done) = true ∧
    holds (step (withEvents (complete (tsd [] 0)) [.regWrite 0 5#32])) (fun t => t.st == .idle) = true := by decide
theorem witness_ConfigurationFixed : holds (step (tsd p1 9)) (fun _ => true) = true := by decide

/-- A running unit's STATUS is consistent while no fault or UNDEF is recorded. -/
theorem status_running {s : State} (h1 : s.st = .busy) (h2 : s.unit ≠ .none) (h3 : s.undef = false) (h4 : s.fcode = 0)
    (h5 : s.finfo = 0) : StatusOk s := by
  constructor <;> simp_all

theorem witness_inv_tsd : BlockInv p1Second ∧ p1Second.st = .busy ∧ p1Second.unit = .tsd ∧
    holds (unitStep p1Second) (fun _ => true) = true :=
  ⟨⟨⟨by decide, by decide⟩, ⟨by decide, by decide⟩, ⟨by decide, by decide⟩,
    status_running rfl (by decide) rfl rfl rfl, by decide, fun _ _ => ⟨by decide, by decide, by decide, by decide⟩,
    fun _ h => absurd h (by decide), fun _ h => absurd h (by decide), fun _ h => absurd h (by decide)⟩, rfl, rfl, by decide⟩

/-- An image of 2 by 3 one-byte pixels at its row 1, which is Raw. -/
def rawRowOne : State := rfr 2 3 1 1 [0x01#8, 0x01#8, 0x01#8, 0x05#8, 0x01#8, 0x06#8, 0x02#8, 0x07#8, 0x03#8] [0x05#8, 0x04#8]

theorem witness_inv_rfr : BlockInv rawRowOne ∧ rawRowOne.st = .busy ∧ rawRowOne.unit = .rfr ∧
    holds (unitStep rawRowOne) (fun _ => true) = true :=
  ⟨⟨⟨by decide, by decide⟩, ⟨by decide, by decide⟩, ⟨by decide, by decide⟩,
    status_running rfl (by decide) rfl rfl rfl, by decide, fun _ h => absurd h (by decide),
    fun _ _ => ⟨⟨by decide, by decide⟩, by decide, by decide, by decide, by decide⟩,
    fun _ h => absurd h (by decide), fun _ h => absurd h (by decide)⟩, rfl, rfl, by decide⟩

theorem witness_inv_fsf : BlockInv (fsf 2 3 1 0 []) ∧ holds (unitStep (fsf 2 3 1 0 [])) (fun _ => true) = true :=
  ⟨⟨⟨by decide, by decide⟩, ⟨by decide, by decide⟩, ⟨by decide, by decide⟩,
    status_running rfl (by decide) rfl rfl rfl, by decide, fun _ h => absurd h (by decide),
    fun _ h => absurd h (by decide), fun _ _ => ⟨⟨by decide, by decide⟩, by decide, by decide, by decide⟩,
    fun _ h => absurd h (by decide)⟩, by decide⟩

theorem witness_inv_tsp : BlockInv (tsp [0x5A#8]) ∧ holds (unitStep (tsp [0x5A#8])) (fun _ => true) = true :=
  ⟨⟨⟨by decide, by decide⟩, ⟨by decide, by decide⟩, ⟨by decide, by decide⟩,
    status_running rfl (by decide) rfl rfl rfl, by decide, fun _ h => absurd h (by decide),
    fun _ h => absurd h (by decide), fun _ h => absurd h (by decide),
    fun _ _ => ⟨by decide, by decide, by decide, by decide, by decide⟩⟩, by decide⟩

/-- An image of three rows, and one of none. -/
theorem witness_FilterReconRoundTrip :
    (idle 2 3 1 0 0).st = .idle ∧ legalGeometry (idle 2 3 1 0 0) ∧
    (idle 2 3 1 0 0).expectedLen ≤ (idle 2 3 1 0 0).cap .dbuf ∧ (idle 2 3 1 0 0).imageBytes ≤ (idle 2 3 1 0 0).cap .raw ∧
    legalGeometry (idle 1 0 1 0 0) := ⟨rfl, ⟨by decide, by decide⟩, by decide, by decide, by decide, by decide⟩
/-- Exactly the stream capacity of 2041 bytes, and an empty buffer. -/
theorem witness_PackDecodeRoundTrip :
    (let s := { idle 0 0 0 2041 0 with strmCap := 2052#32, dbufCap := 2041#32 }
     s.st = .idle ∧ s.dlen.toNat ≤ s.cap .dbuf ∧ packedLen s.dlen.toNat ≤ s.cap .strm) ∧
    packedLen (idle 0 0 0 0 0).dlen.toNat ≤ (idle 0 0 0 0 0).cap .strm := by decide

end Sys2Proof.Tests
end

/-! PROOFS. The state family (10_state.md): what every answered step of the block is, said once, and from it what a step
does to the configuration (R30) and to UNDEF (R13); the register port (R11, R31); Reset (R32). -/

namespace Sys2Proof.Machine

/-! ### Every answered step of the block -/

/-- What an answered step of a unit leaves before the working registers are released: the completion, a TSD fault, or the
unit's token, row or block (44_host_commands.md R197). -/
inductive UnitAnswer (s : State) : State → Prop where
  | tsdComplete (hu : s.unit = .tsd) (hd : s.dpos = s.dlen) : UnitAnswer s (complete s)
  | tsdFault (hu : s.unit = .tsd) (f : FaultCode) (hf : tokenFault f) : UnitAnswer s (tsdFaulted f s)
  | token {t : State} (hu : s.unit = .tsd) (ht : TsdDone s t) : UnitAnswer s t
  | rfrComplete (hu : s.unit = .rfr) : UnitAnswer s (complete s)
  | row {t : State} (hu : s.unit = .rfr) (ht : RowDone s t) : UnitAnswer s t
  | fsfComplete (hu : s.unit = .fsf) : UnitAnswer s (filterComplete s)
  | filter {t : State} (hu : s.unit = .fsf) (ht : FilterDone s t) : UnitAnswer s t
  | tspComplete (hu : s.unit = .tsp) : UnitAnswer s (packComplete s)
  | block {t : State} (hu : s.unit = .tsp) (ht : t = { s with strm := t.strm, spos := t.spos, dpos := t.dpos }) :
      UnitAnswer s t

/-- A unit step that answers changes nothing, or is the active unit's step. -/
theorem unitStep_answers {s t : State} (h : unitStep s = .next t) :
    (s.st ≠ .busy ∨ s.unit = .none) ∧ t = s ∨ s.st = .busy ∧ ∃ u, t = releaseWorking u ∧ UnitAnswer s u := by
  by_cases hst : s.st = .busy
  case neg =>
    rw [unitStep_inactive hst] at h
    cases h
    exact .inl ⟨.inl hst, rfl⟩
  cases hu : s.unit with
  | none =>
    rw [unitStep_none hu] at h
    cases h
    exact .inl ⟨.inr rfl, rfl⟩
  | tsd =>
    rw [unitStep_tsd hst hu] at h
    obtain ⟨u, e, rfl⟩ := mapNext_eq_next.1 h
    refine .inr ⟨hst, u, rfl, ?_⟩
    obtain ⟨rfl, hd⟩ | ⟨f, hf, rfl⟩ | ht := tsdStep_answers hst e
    · exact .tsdComplete hu hd
    · exact .tsdFault hu f hf
    · exact .token hu ht
  | rfr =>
    rw [unitStep_rfr hst hu] at h
    obtain ⟨u, e, rfl⟩ := mapNext_eq_next.1 h
    refine .inr ⟨hst, u, rfl, ?_⟩
    obtain rfl | ht := rfrStep_answers e
    · exact .rfrComplete hu
    · exact .row hu ht
  | fsf =>
    rw [unitStep_fsf hst hu] at h
    obtain ⟨u, e, rfl⟩ := mapNext_eq_next.1 h
    refine .inr ⟨hst, u, rfl, ?_⟩
    obtain rfl | ht := fsfStep_answers e
    · exact .fsfComplete hu
    · exact .filter hu ht
  | tsp =>
    rw [unitStep_tsp hst hu] at h
    obtain ⟨u, e, rfl⟩ := mapNext_eq_next.1 h
    refine .inr ⟨hst, u, rfl, ?_⟩
    obtain rfl | ht := tspStep_frame e
    · exact .tspComplete hu
    · exact .block hu ht

/-- What a host transaction leaves (44_host_commands.md R190): a read's value, the memories, the read-write registers, or a
transition of STATE by a command (R191), or the reset. A dropped transaction is a `registers` that changes none. -/
inductive HostAnswer (s : State) : State → Prop where
  | read {t : State} (ht : t = { s with rdata := t.rdata, portDraws := t.portDraws }) : HostAnswer s t
  | memories {t : State} (ht : t = { s with strm := t.strm, dbuf := t.dbuf, raw := t.raw }) : HostAnswer s t
  | registers {t : State} (ht : t = { s with
      ien := t.ien, slen := t.slen, dlen := t.dlen, width := t.width, height := t.height, pixsz := t.pixsz }) :
      HostAnswer s t
  | raised (hs : s.st = .idle) (f : FaultCode) (info : BitVec 32) (u : UnitId) : HostAnswer s (raise f info u s)
  | started {t : State} (hs : s.st = .idle) (u : UnitId)
      (ht : t = activate u { s with spos := t.spos, dpos := t.dpos, ctl := t.ctl, row := t.row }) : HostAnswer s t
  | acknowledged (hs : s.st = .done ∨ s.st = .fault) : HostAnswer s (acknowledge s)
  | reset : HostAnswer s (doReset s)

/-- A transaction that changes nothing. -/
theorem HostAnswer.dropped (s : State) : HostAnswer s s := .registers rfl

/-- Everything writing CMD can leave (44_host_commands.md R191). -/
theorem command_answers {w : Word32} {s t : State} (h : exec (commandInstr w) s = .next t) : HostAnswer s t := by
  obtain e | ⟨hs, _, e⟩ | ⟨hs, _, e⟩ | ⟨hs, _, e⟩ | ⟨hs, _, e⟩ | ⟨hs, _, e⟩ | ⟨hs, _, e⟩ :=
      exec_command_cases w s <;>
    rw [e] at h <;> cases h
  case inl => exact .dropped s
  case inr.inl =>
    obtain ⟨_, e⟩ | ⟨_, _, e⟩ := startDecode_cases s <;> rw [e]
    · exact .raised hs _ _ _
    · exact .started hs .tsd rfl
  case inr.inr.inl =>
    obtain ⟨_, e⟩ | ⟨_, _, e⟩ | ⟨_, _, _, _, e⟩ | ⟨_, _, _, _, e⟩ := startRecon_cases s <;> rw [e]
    case inr.inr.inr => exact .started hs .rfr rfl
    all_goals exact .raised hs _ _ _
  case inr.inr.inr.inl =>
    obtain ⟨_, e⟩ | ⟨_, _, e⟩ | ⟨_, _, _, e⟩ := startFilter_cases s <;> rw [e]
    case inr.inr => exact .started hs .fsf rfl
    all_goals exact .raised hs _ _ _
  case inr.inr.inr.inr.inl =>
    obtain ⟨_, e⟩ | ⟨_, _, e⟩ := startPack_cases s <;> rw [e]
    · exact .raised hs _ _ _
    · exact .started hs .tsp rfl
  case inr.inr.inr.inr.inr.inl => exact .acknowledged hs
  case inr.inr.inr.inr.inr.inr => exact .raised hs _ _ _

/-- A write to any register but CMD while no unit is active is accepted (10_state.md R31). -/
theorem regWrite_accepted {n : Nat} {s : State} (hn : n ≠ 0) (hs : s.st ≠ .busy) (v : Word32) :
    regWrite n v s = .next (setRegister n v s) := by
  rw [regWrite, if_neg hn, if_neg hs]

/-- A write to any register but CMD while a unit is active is dropped (44_host_commands.md R192). -/
theorem regWrite_dropped {n : Nat} {s : State} (hn : n ≠ 0) (hs : s.st = .busy) (v : Word32) :
    regWrite n v s = .next s := by
  rw [regWrite, if_neg hn, if_pos hs]

theorem regWrite_answers {n : Nat} {v : Word32} {s t : State} (h : regWrite n v s = .next t) : HostAnswer s t := by
  by_cases hn : n = 0
  · rw [regWrite, if_pos hn] at h
    exact command_answers h
  · by_cases hs : s.st = .busy
    · rw [regWrite_dropped hn hs] at h
      cases h
      exact .dropped s
    · rw [regWrite_accepted hn hs] at h
      cases h
      exact .registers (setRegister_frame n v s)

/-- A slot of the interleaving is a unit step or a host transaction. -/
theorem runEvent_answers {e : Event} {s t : State} (h : runEvent e s = .next t) :
    unitStep s = .next t ∨ HostAnswer s t := by
  cases e with
  | unitStep => exact .inl h
  | regRead n => cases h; exact .inr (.read (regRead_frame n s))
  | regWrite n v => exact .inr (regWrite_answers h)
  | bufRead x a => cases h; exact .inr (.read (bufRead_frame x a s))
  | bufWrite x a b => cases h; exact .inr (.memories (bufWrite_frame x a b s))
  | reset => cases h; exact .inr .reset

/-- Every answered step of the block is a unit step or a host transaction on the state whose oldest event, if there is one,
has been taken. -/
theorem step_answers {s t : State} (h : step s = .next t) :
    ∃ rest, unitStep { s with events := rest } = .next t ∨ HostAnswer { s with events := rest } t := by
  cases he : s.events with
  | nil =>
    rw [step_unit he] at h
    exact ⟨s.events, .inl h⟩
  | cons e rest =>
    rw [step_event he] at h
    exact ⟨rest, runEvent_answers h⟩

/-! ### The configuration -/

/-- The configuration: the capacities, MAG and AVG (10_state.md R30). -/
def State.config (s : State) : Word32 × Word32 × Word32 × List (Byte × Nat) × List ((Byte × Byte) × Byte) :=
  (s.strmCap, s.dbufCap, s.rawCap, s.magTab, s.avgTab)

theorem config_eq_iff (s t : State) : t.config = s.config ↔ t.strmCap = s.strmCap ∧ t.dbufCap = s.dbufCap ∧
    t.rawCap = s.rawCap ∧ t.magTab = s.magTab ∧ t.avgTab = s.avgTab := by
  simp only [State.config, Prod.mk.injEq]

theorem UnitAnswer.config_eq {s t : State} (h : UnitAnswer s t) : t.config = s.config := by
  cases h with
  | token _ ht => rw [ht.frame]; rfl
  | row _ ht => rw [ht.frame]; rfl
  | filter _ ht => rw [ht.frame]; rfl
  | block _ ht => rw [ht]; rfl
  | tsdComplete | tsdFault | rfrComplete | fsfComplete | tspComplete => rfl

theorem HostAnswer.config_eq {s t : State} (h : HostAnswer s t) : t.config = s.config := by
  cases h with
  | read ht | memories ht | registers ht | started _ _ ht => rw [ht]; rfl
  | raised | acknowledged | reset => rfl

theorem unitStep_config {s t : State} (h : unitStep s = .next t) : t.config = s.config := by
  obtain ⟨_, rfl⟩ | ⟨_, u, rfl, hu⟩ := unitStep_answers h
  · rfl
  · exact hu.config_eq

/-- Settles O55, from the inversion of the step: every unit's answer and every host transaction, Reset included, keeps the
configuration. -/
theorem configurationFixed : Obligations.ConfigurationFixed := by
  intro s t h
  have hc : t.config = s.config := by
    obtain ⟨rest, hu | hh⟩ := step_answers h
    · exact (unitStep_config hu).trans rfl
    · exact hh.config_eq.trans rfl
  exact (config_eq_iff s t).1 hc

/-! ### UNDEF -/

/-- UNDEF after a unit's answer was set before, or was set by RFR on a row 0 that is not Raw (41_row_reconstruct.md R137). -/
theorem UnitAnswer.undef_origin {s t : State} (h : UnitAnswer s t) (ht : t.undef = true) :
    s.undef = true ∨ s.unit = .rfr ∧ s.row.toNat = 0 ∧ (s.readByte .dbuf 8).toNat % 2 = 0 := by
  cases h with
  | row hu hd => exact (hd.undef ht).imp_right fun h => ⟨hu, h⟩
  | token _ hd => rw [hd.frame] at ht; exact .inl ht
  | filter _ hd => rw [hd.frame] at ht; exact .inl ht
  | block _ hd => rw [hd] at ht; exact .inl ht
  | tsdComplete | tsdFault | rfrComplete | fsfComplete | tspComplete => exact .inl ht

/-- No host transaction sets UNDEF. -/
theorem HostAnswer.undef_kept {s t : State} (h : HostAnswer s t) (ht : t.undef = true) : s.undef = true := by
  cases h with
  | read hf | memories hf | registers hf => rw [hf] at ht; exact ht
  | raised => exact ht
  | started _ _ hf => rw [hf] at ht; cases ht
  | acknowledged | reset => cases ht

/-- Settles O24: no host transaction sets UNDEF, and of the units' answers only a row 0 of RFR that is not Raw does. -/
theorem undefSetOnlyInRowZero : Obligations.UndefSetOnlyInRowZero := by
  intro s t h hs ht
  have hs' : ¬ s.undef = true := by simp [hs]
  obtain ⟨rest, hu | hh⟩ := step_answers h
  · obtain ⟨_, rfl⟩ | ⟨hb, u, rfl, hua⟩ := unitStep_answers hu
    · exact absurd ht hs'
    · exact ⟨hb, (hua.undef_origin ht).resolve_left hs'⟩
  · exact absurd (hh.undef_kept ht) hs'

/-! ### The register port -/

/-- A register read while no unit is active (10_state.md R31). -/
theorem regRead_inactive {s : State} (h : s.st ≠ .busy) (n : Nat) :
    regRead n s = { s with rdata := s.regValue n } := by
  rw [regRead, if_neg fun hb => h hb.1]

/-- CMD and the numbers that name no register read 0 (10_state.md R11, R12). -/
theorem regValue_unnamed {n : Nat} (h : n = 0 ∨ 13 < n) (s : State) : s.regValue n = 0 := by
  unfold State.regValue
  split
  case h_14 => rfl
  all_goals omega

/-- STATUS as arithmetic: STATE in bits 1:0, UNIT in 4:2, UNDEF in 5 (10_state.md R13). -/
theorem statusWord_toNat (s : State) :
    s.statusWord.toNat = s.st.code.toNat + 4 * s.unit.code.toNat + 32 * s.undef.toNat := by
  rw [State.statusWord, append_toNat, append_toNat, append_toNat, BitVec.toNat_ofBool]
  have h0 : (0#26).toNat = 0 := rfl
  omega

/-- Settles O47: the read leaves all but the value returned, which is `regValue`, register by register. -/
theorem registerReads : Obligations.RegisterReads := by
  intro s n rest hs he
  refine ⟨{ s with events := rest, rdata := s.regValue n }, ?_, rfl, fun hn => regValue_unnamed hn s, ?_⟩
  · rw [step_event he]
    exact congrArg _ (regRead_inactive (s := { s with events := rest }) hs n)
  refine ⟨?status, ?fcode, ?_, ?ien, ?_, ?_, ?width, ?height, ?pixsz, ?_, ?_, ?ctl, ?row⟩ <;> rintro rfl
  case status =>
    refine (statusWord_toNat s).trans ?_
    cases s.st <;> cases s.unit <;> rfl
  case fcode | ien | width | height | pixsz | ctl | row => exact BitVec.toNat_setWidth_of_le (by decide)
  all_goals rfl

/-- A write to a read-only register or to no register is ignored (10_state.md R11). -/
theorem setRegister_ignored {n : Nat} (h : n < 4 ∨ 9 < n) (v : Word32) (s : State) : setRegister n v s = s := by
  unfold setRegister
  split
  case h_7 => rfl
  all_goals omega

/-- Settles O48: an accepted write is `setRegister`, register by register. -/
theorem registerWrites : Obligations.RegisterWrites := by
  intro s n v rest hs hn he
  refine ⟨setRegister n v { s with events := rest }, ?_, ?ien, ?_, ?_, ?width, ?height, ?pixsz,
    fun h => setRegister_ignored h v _⟩
  · rw [step_event he]
    exact regWrite_accepted (s := { s with events := rest }) hn hs v
  case ien | width | height | pixsz =>
    rintro rfl
    exact ⟨rfl, BitVec.toNat_setWidth _ v⟩
  all_goals
    rintro rfl
    rfl

/-! ### Reset -/

/-- `Reset()` forgets every written byte (70_reset_and_hazards.md R240, log 6). -/
theorem doReset_mem (s : State) (x : MemId) : (doReset s).mem x = [] := by cases x <;> rfl

/-- Settles O50: the registers' values stand in `doReset`, and no memory lists a byte. -/
theorem resetTransaction : Obligations.ResetTransaction := by
  intro s rest he
  refine ⟨doReset { s with events := rest }, step_event he, ?_⟩
  have hmem : ∀ x a, Memory.lookup ((doReset { s with events := rest }).mem x) a = none := fun x a => by
    rw [doReset_mem]; rfl
  exact ⟨rfl, rfl, rfl, rfl, rfl, rfl, rfl, rfl, rfl, rfl, rfl, rfl, rfl, rfl, rfl, rfl, rfl, rfl, rfl, rfl, rfl, rfl,
    hmem⟩

/-- Settles O51, by the definition of the state after reset. -/
theorem resetValues : Obligations.ResetValues :=
  ⟨rfl, rfl, rfl, rfl, rfl, rfl, rfl, rfl, rfl, rfl, rfl, rfl, rfl, rfl, rfl⟩

/-- STATUS, FCODE and FINFO are consistent in IDLE when they are clear (44_host_commands.md R191). -/
theorem statusOk_of_idle {s : State} (hst : s.st = .idle) (hunit : s.unit = .none) (hundef : s.undef = false)
    (hfcode : s.fcode = 0) (hfinfo : s.finfo = 0) : StatusOk s where
  idle _ := ⟨hunit, hundef⟩
  busy h := by simp [hst] at h
  done h := by simp [hst] at h
  fault h := by simp [hst] at h
  noFault _ := ⟨hfcode, hfinfo⟩
  undef h := by simp [hundef] at h

/-- Settles O56: after reset the memories are empty and no unit is active. -/
theorem resetMeetsInvariant : Obligations.ResetMeetsInvariant :=
  have hst : State.reset.st ≠ .busy := by decide
  { strm := fits_nil _
    dbuf := fits_nil _
    raw := fits_nil _
    status := statusOk_of_idle rfl rfl rfl rfl rfl
    ctl := by decide
    tsd := fun h => absurd h hst
    rfr := fun h => absurd h hst
    fsf := fun h => absurd h hst
    tsp := fun h => absurd h hst }

end Sys2Proof.Machine

/-! PROOFS. The memory family (20_memory.md): the buffer port (R49); where an item stops (R40); that the step of a
running unit answers (R59), and what it writes (R58). -/

namespace Sys2Proof.Machine

/-! ### The buffer port -/

/-- A buffer read while no unit is active: the byte, or 0 outside the memory (R49). -/
theorem bufRead_inactive {s : State} (h : s.st ≠ .busy) (x : MemId) (a : Word32) :
    bufRead x a s =
      { s with rdata := if a.toNat < s.cap x then (s.readByte x a.toNat).setWidth 32 else 0 } := by
  rw [bufRead, if_neg h]
  split_ifs <;> rfl

/-- What a byte reads as after a buffer write while no unit is active (R49). -/
theorem readByte_bufWrite {s : State} (h : s.st ≠ .busy) (x z : MemId) (a : Word32) (b : Byte) (d : Nat) :
    (bufWrite x a b s).readByte z d = if z = x ∧ d = a.toNat ∧ a.toNat < s.cap x then b else s.readByte z d := by
  rw [bufWrite, if_neg h]
  by_cases ha : a.toNat < s.cap x
  · rw [if_pos ha]
    by_cases hd : z = x ∧ d = a.toNat
    · obtain ⟨rfl, rfl⟩ := hd
      rw [if_pos ⟨rfl, rfl, ha⟩, readByte_writeByte_same]
    · rw [if_neg fun hc => hd ⟨hc.1, hc.2.1⟩, readByte_writeByte_other s b (not_and_or.1 hd)]
  · rw [if_neg ha, if_neg fun hc => ha hc.2.2]

theorem cap_bufWrite (x y : MemId) (a : Word32) (b : Byte) (s : State) : (bufWrite x a b s).cap y = s.cap y := by
  rw [bufWrite_frame]
  cases y <;> rfl

theorem runSteps_two {s w t : State} (h1 : step s = .next w) (h2 : step w = .next t) : runSteps 2 s = .next t := by
  simp only [runSteps, h1, h2]

/-- Settles O49: the first step is `bufWrite`, the second `bufRead` on the state `w` between them. -/
theorem bufferPortAccess : Obligations.BufferPortAccess := by
  intro s x y a c b rest hs he
  have hstep := step_event he
  have hframe := bufWrite_frame x a b { s with events := .bufRead y c :: rest }
  have hcap := fun z => cap_bufWrite x z a b { s with events := .bufRead y c :: rest }
  have hread := fun z => readByte_bufWrite (s := { s with events := .bufRead y c :: rest }) hs x z a b
  simp only [runEvent] at hstep
  generalize bufWrite x a b { s with events := .bufRead y c :: rest } = w at hstep hframe hcap hread
  have hw : w.st ≠ .busy := by rw [hframe]; exact hs
  have hev : w.events = .bufRead y c :: rest := by rw [hframe]
  have hnext := (step_event hev).trans
    (congrArg Host.Outcome.next (bufRead_inactive (s := { w with events := rest }) hw y c))
  refine ⟨_, runSteps_two hstep hnext, ?_, fun hc => ?_, fun hc => ?_, hread⟩
  · rw [hframe]
  · exact if_neg (Nat.not_lt.2 ((hcap y).trans_le hc))
  · have hwritten : (y = x ∧ c.toNat = a.toNat ∧ a.toNat < s.cap x) ↔ x = y ∧ a = c := by
      constructor
      · rintro ⟨rfl, hac, _⟩
        exact ⟨rfl, BitVec.eq_of_toNat_eq hac.symm⟩
      · rintro ⟨rfl, rfl⟩
        exact ⟨rfl, rfl, hc⟩
    calc _ = ((w.readByte y c.toNat).setWidth 32).toNat := congrArg _ (if_pos (hc.trans_eq (hcap y).symm))
      _ = (w.readByte y c.toNat).toNat := BitVec.toNat_setWidth_of_le (by decide)
      _ = (if x = y ∧ a = c then b else s.readByte y c.toNat).toNat :=
        congrArg _ ((hread y c.toNat).trans (if_congr hwritten rfl rfl))
      _ = _ := apply_ite BitVec.toNat _ _ _

/-! ### Where an item stops -/

/-- A fault of the block is a next state, never a stop of the model (60_exceptions.md R215). -/
@[simp] theorem tsdFault_ne_fault (f : FaultCode) (s : State) (x : Fault) : tsdFault f s ≠ .fault x := nofun

theorem execLit_fault_iff (data : List Byte) (s : State) (x : Fault) :
    execLit data s = .fault x ↔ x = .noSuchAddress .dbuf ∧ s.spos.toNat + 1 + data.length ≤ s.slen.toNat ∧
      s.dpos.toNat + data.length ≤ s.dlen.toNat ∧ s.cap .dbuf < s.dpos.toNat + data.length := by
  obtain ⟨_, e⟩ | ⟨_, _, e⟩ | ⟨h1, h2, h3, e⟩ | ⟨_, _, _, e⟩ := execLit_cases data s <;> rw [e]
  case inr.inr.inl => simp [h1, h2, h3, -cap_dbuf, eq_comm]
  all_goals exact iff_of_false nofun fun ⟨_, hstream, hout, hcap⟩ => by omega

theorem copyBack_fault_iff (v : BitVec 16) (off cnt len : Nat) (s : State) (x : Fault) :
    copyBack v off cnt len s = .fault x ↔ x = .noSuchAddress .dbuf ∧ 1 ≤ off ∧ off ≤ s.dpos.toNat ∧
      s.dpos.toNat + cnt ≤ s.dlen.toNat ∧ s.cap .dbuf < s.dpos.toNat + cnt := by
  obtain ⟨_, e⟩ | ⟨_, _, _, e⟩ | ⟨h1, h2, h3, h4, e⟩ | ⟨_, _, _, _, e⟩ := copyBack_cases v off cnt len s <;> rw [e]
  case inr.inr.inl => simp [h1, h2, h3, h4, -cap_dbuf, eq_comm]
  all_goals exact iff_of_false nofun fun ⟨_, hoff, hback, hout, hcap⟩ => by omega

theorem execRefS_fault_iff (off : BitVec 12) (c : BitVec 3) (s : State) (x : Fault) :
    execRefS off c s = .fault x ↔ s.spos.toNat + 2 ≤ s.slen.toNat ∧
      copyBack (refWord off 1#1 c) off.toNat (countShort c) 2 s = .fault x := by
  obtain ⟨h, e⟩ | ⟨h, e⟩ := execRefS_cases off c s <;> rw [e]
  · exact iff_of_false (tsdFault_ne_fault _ _ _) fun hx => absurd hx.1 (by omega)
  · exact (and_iff_right h).symm

theorem execRefL_fault_iff (off : BitVec 12) (c : BitVec 3) (e : Byte) (s : State) (x : Fault) :
    execRefL off c e s = .fault x ↔ s.spos.toNat + 3 ≤ s.slen.toNat ∧
      copyBack (refWord off 0#1 c) off.toNat (countLong c e) 3 s = .fault x := by
  obtain ⟨h, e⟩ | ⟨h, e⟩ := execRefL_cases off c e s <;> rw [e]
  · exact iff_of_false (tsdFault_ne_fault _ _ _) fun hx => absurd hx.1 (by omega)
  · exact (and_iff_right h).symm

/-- The test of a row's addresses, DBUF before RAW (R40). -/
theorem rowFault_some_iff (s : State) (x : Fault) :
    rowFault s = some x ↔
      (x = .noSuchAddress .dbuf ∧ s.cap .dbuf < s.pixAddr s.row.toNat s.rowSpan) ∨
      (x = .noSuchAddress .raw ∧ ¬ s.cap .dbuf < s.pixAddr s.row.toNat s.rowSpan ∧
        s.cap .raw < s.rawAddr s.row.toNat s.rowSpan) := by
  unfold rowFault
  split_ifs with h1 h2 <;> simp [*, -cap_dbuf, -cap_raw, eq_comm]

/-- The test of a forward filter's addresses, DBUF before RAW (R40). -/
theorem filterFault_some_iff (s : State) (x : Fault) :
    filterFault s = some x ↔
      (x = .noSuchAddress .dbuf ∧
        (s.cap .dbuf < 9 + s.row.toNat ∨ s.cap .dbuf < s.pixAddr s.row.toNat s.rowSpan)) ∨
      (x = .noSuchAddress .raw ∧
        ¬ (s.cap .dbuf < 9 + s.row.toNat ∨ s.cap .dbuf < s.pixAddr s.row.toNat s.rowSpan) ∧
        s.cap .raw < s.rawAddr s.row.toNat s.rowSpan) := by
  unfold filterFault
  rw [show ctlAddr s.row.toNat + 1 = 9 + s.row.toNat by unfold ctlAddr; omega]
  split_ifs with h1 h2 h3 <;> simp [*, -cap_dbuf, -cap_raw, eq_comm]

/-- A row instruction stops where the test of the row's addresses fails. -/
theorem exec_row_fault_iff (ign : BitVec 6) (m : BitVec 1) (s : State) (x : Fault) :
    (execRowRaw ign m s = .fault x ↔ rowFault s = some x) ∧ (execRowVert ign s = .fault x ↔ rowFault s = some x) ∧
      (execRowAvg ign s = .fault x ↔ rowFault s = some x) := by
  cases h : rowFault s with
  | none => rw [execRowRaw_next h, execRowVert_next h, execRowAvg_next h]; simp
  | some f => simp [execRowRaw, execRowVert, execRowAvg, h]

theorem execFwdRaw_fault_iff (s : State) (x : Fault) : execFwdRaw s = .fault x ↔ filterFault s = some x := by
  cases h : filterFault s with
  | none => rw [execFwdRaw_next h]; simp
  | some f => simp [execFwdRaw, h]

theorem execFwdVert_fault_iff (s : State) (x : Fault) :
    execFwdVert s = .fault x ↔
      (s.row.toNat = 0 ∧ x = .noRowAbove) ∨ (1 ≤ s.row.toNat ∧ filterFault s = some x) := by
  unfold execFwdVert
  split_ifs with hr
  · simp [hr, eq_comm]
  · have hr' : 1 ≤ s.row.toNat := Nat.one_le_iff_ne_zero.2 hr
    cases filterFault s <;> simp [hr, hr']

theorem execPkblk_fault_iff (s : State) (x : Fault) :
    execPkblk s = .fault x ↔ s.dpos ≠ s.dlen ∧
      ((x = .noSuchAddress .dbuf ∧ s.cap .dbuf < s.dpos.toNat + blockBytes s) ∨
        (x = .noSuchAddress .strm ∧ ¬ s.cap .dbuf < s.dpos.toNat + blockBytes s ∧
          s.cap .strm < s.spos.toNat + 1 + packRunCount (blockBytes s) + blockBytes s)) := by
  unfold execPkblk
  split_ifs with h1 h2 h3 <;> simp [*, -cap_dbuf, -cap_strm, @eq_comm Fault]

theorem execCtlb_next (b : Byte) (s : State) : ∃ t, execCtlb b s = .next t := by
  unfold execCtlb tsdFault
  split_ifs <;> exact ⟨_, rfl⟩

theorem whenIdle_next (s t : State) : ∃ u, whenIdle s t = .next u := by
  unfold whenIdle
  split_ifs <;> exact ⟨_, rfl⟩

theorem execClear_next (ign : BitVec 24) (s : State) : ∃ t, execClear ign s = .next t := by
  unfold execClear
  split_ifs <;> exact ⟨_, rfl⟩

/-- A command, and a stream control byte, is answered in every state (44_host_commands.md R191, 40_token_decompressor.md
R102). -/
theorem exec_next_of_space {i : Instr} (h : i.space = .command ∨ i.space = .ctl) (s : State) :
    ∃ t, exec i s = .next t := by
  cases i with
  | ctlb bits => exact execCtlb_next bits s
  | nop ign => exact ⟨s, rfl⟩
  | decode ign => exact whenIdle_next s _
  | recon ign => exact whenIdle_next s _
  | filter ign => exact whenIdle_next s _
  | pack ign => exact whenIdle_next s _
  | illegalCmd code ign => exact whenIdle_next s _
  | clear ign => exact execClear_next ign s
  | lit | refS | refL | rowRaw | rowVert | rowAvg | fwdRaw | fwdVert | pkblk => simp [Instr.space] at h

@[simp] theorem tsdFault_ne_refused (f : FaultCode) (s : State) (y : Refusal) : tsdFault f s ≠ .refused y := nofun

theorem ne_refused_of_next {r : Result} {y : Refusal} (h : ∃ t, r = .next t) : r ≠ .refused y := by
  obtain ⟨t, rfl⟩ := h
  nofun

theorem copyBack_ne_refused (v : BitVec 16) (off cnt len : Nat) (s : State) (y : Refusal) :
    copyBack v off cnt len s ≠ .refused y := by
  unfold copyBack
  split_ifs <;> nofun

/-- No instruction is refused: each has a meaning in every state. -/
theorem exec_ne_refused (i : Instr) (s : State) (y : Refusal) : exec i s ≠ .refused y := by
  cases i with
  | lit data =>
    simp only [exec, execLit]
    split_ifs <;> nofun
  | refS off c =>
    simp only [exec, execRefS]
    split_ifs
    · exact tsdFault_ne_refused _ _ _
    · exact copyBack_ne_refused _ _ _ _ _ _
  | refL off c e =>
    simp only [exec, execRefL]
    split_ifs
    · exact tsdFault_ne_refused _ _ _
    · exact tsdFault_ne_refused _ _ _
    · exact copyBack_ne_refused _ _ _ _ _ _
  | rowRaw ign m => cases h : rowFault s <;> simp [exec, execRowRaw, h]
  | rowVert ign => cases h : rowFault s <;> simp [exec, execRowVert, h]
  | rowAvg ign => cases h : rowFault s <;> simp [exec, execRowAvg, h]
  | fwdRaw => cases h : filterFault s <;> simp [exec, execFwdRaw, h]
  | fwdVert =>
    simp only [exec, execFwdVert]
    split_ifs
    · nofun
    · cases filterFault s <;> nofun
  | pkblk =>
    simp only [exec, execPkblk]
    split_ifs <;> nofun
  | ctlb => exact ne_refused_of_next (exec_next_of_space (.inr rfl) s)
  | nop | decode | recon | filter | pack | clear | illegalCmd =>
    exact ne_refused_of_next (exec_next_of_space (.inl rfl) s)

/-- Settles O31, item by item. -/
theorem absentAddressStops : Obligations.AbsentAddressStops := by
  intro s x
  have hrow := rowFault_some_iff s x
  have hfilter := filterFault_some_iff s x
  refine ⟨fun data => execLit_fault_iff data s x, fun off c => ?_, fun off c e => ?_, fun ign m => ?_,
    (execFwdRaw_fault_iff s x).trans hfilter,
    (execFwdVert_fault_iff s x).trans (or_congr_right (and_congr_right' hfilter)),
    execPkblk_fault_iff s x, fun i hi hx => ?_, fun i y => exec_ne_refused i s y⟩
  · exact (execRefS_fault_iff off c s x).trans (and_congr_right' (copyBack_fault_iff _ _ _ _ s x))
  · exact (execRefL_fault_iff off c e s x).trans (and_congr_right' (copyBack_fault_iff _ _ _ _ s x))
  · obtain ⟨hraw, hvert, havg⟩ := exec_row_fault_iff ign m s x
    exact ⟨hraw.trans hrow, hvert.trans hrow, havg.trans hrow⟩
  · obtain ⟨t, e⟩ := exec_next_of_space hi s
    rw [e] at hx
    cases hx

/-! ### The step of a running unit answers -/

/-- While TSD runs, its step answers: the stream and the buffer lie in their memories (R59). -/
theorem TsdRun.step_next {s : State} (h : TsdRun s) (hst : s.st = .busy) : ∃ t, tsdStep s = .next t := by
  have hdlen := h.dlen_le
  by_cases hd : s.dpos = s.dlen
  · exact ⟨_, tsdStep_complete hd⟩
  · obtain ⟨_, _, e⟩ | ⟨hlt, _⟩ | ⟨_, e, _⟩ := tsdStep_cases (by simp [hst]) hd h.slen_le
    · exact ⟨_, e⟩
    · exact absurd hdlen (by omega)
    · exact ⟨_, e⟩

/-- While RFR runs, its step answers: the completion, or a row of the image (R59). -/
theorem RfrRun.step_next {s : State} (h : RfrRun s) :
    ∃ t, rfrStep s = .next t ∧ (t = complete s ∨ s.row.toNat < s.height.toNat ∧ RowDone s t) := by
  obtain hr | hr := Nat.lt_or_eq_of_le h.row_le
  · obtain ⟨t, e, ht⟩ := rfrStep_next h hr
    exact ⟨t, e, .inr ⟨hr, ht⟩⟩
  · exact ⟨_, rfrStep_complete hr, .inl rfl⟩

/-- While FSF runs, its step answers: the completion, or a row of the image (R59). -/
theorem FsfRun.step_next {s : State} (h : FsfRun s) :
    ∃ t, fsfStep s = .next t ∧ (t = filterComplete s ∨ s.row.toNat < s.height.toNat ∧ FilterDone s t) := by
  obtain hr | hr := Nat.lt_or_eq_of_le h.row_le
  · obtain ⟨t, e, ht⟩ := fsfStep_next h hr
    exact ⟨t, e, .inr ⟨hr, ht⟩⟩
  · exact ⟨_, fsfStep_complete hr, .inl rfl⟩

/-- While TSP runs, its step answers: the completion, or a block (R59). -/
theorem TspRun.step_next {s : State} (h : TspRun s) :
    ∃ t, tspStep s = .next t ∧ (t = packComplete s ∨ s.dpos ≠ s.dlen ∧ BlockDone (blockBytes s) s t) := by
  by_cases hd : s.dpos = s.dlen
  · exact ⟨_, tspStep_complete hd, .inl rfl⟩
  · obtain ⟨t, e, ht⟩ := tspStep_next h hd
    exact ⟨t, e, .inr ⟨hd, ht⟩⟩

/-- In a state that meets the invariant the unit's step answers. -/
theorem BlockInv.unitStep_next {s : State} (h : BlockInv s) : ∃ t, unitStep s = .next t := by
  by_cases hst : s.st = .busy
  case neg => exact ⟨s, unitStep_inactive hst⟩
  cases hu : s.unit with
  | none => exact ⟨s, unitStep_none hu⟩
  | tsd =>
    obtain ⟨t, e⟩ := (h.tsd hst hu).step_next hst
    exact ⟨_, by rw [unitStep_tsd hst hu, e, mapNext_next]⟩
  | rfr =>
    obtain ⟨t, e, _⟩ := (h.rfr hst hu).step_next
    exact ⟨_, by rw [unitStep_rfr hst hu, e, mapNext_next]⟩
  | fsf =>
    obtain ⟨t, e, _⟩ := (h.fsf hst hu).step_next
    exact ⟨_, by rw [unitStep_fsf hst hu, e, mapNext_next]⟩
  | tsp =>
    obtain ⟨t, e, _⟩ := (h.tsp hst hu).step_next
    exact ⟨_, by rw [unitStep_tsp hst hu, e, mapNext_next]⟩

/-- The invariant does not speak of the pending events. -/
theorem BlockInv.withEvents {s : State} (h : BlockInv s) (evs : List Event) : BlockInv { s with events := evs } :=
  { h with
    status := { h.status with }
    tsd := fun hst hu => { h.tsd hst hu with }
    rfr := fun hst hu => { h.rfr hst hu with }
    fsf := fun hst hu => { h.fsf hst hu with }
    tsp := fun hst hu => { h.tsp hst hu with } }

/-- A register write is answered in every state: a command transitions or is dropped, another write is taken or dropped
(44_host_commands.md R191, R192). -/
theorem regWrite_next (n : Nat) (v : Word32) (s : State) : ∃ t, regWrite n v s = .next t := by
  by_cases hn : n = 0
  · rw [regWrite, if_pos hn]
    obtain e | ⟨_, _, e⟩ | ⟨_, _, e⟩ | ⟨_, _, e⟩ | ⟨_, _, e⟩ | ⟨_, _, e⟩ | ⟨_, _, e⟩ := exec_command_cases v s <;>
      exact ⟨_, e⟩
  · by_cases hst : s.st = .busy
    · exact ⟨_, regWrite_dropped hn hst v⟩
    · exact ⟨_, regWrite_accepted hn hst v⟩

/-- Settles O58: a host transaction is answered in every state, and the unit's turn by the invariant. -/
theorem stepNeverStops : Obligations.StepNeverStops := by
  intro s h
  unfold stepSafe
  cases he : s.events with
  | nil =>
    rw [step_unit he]
    exact h.unitStep_next
  | cons e rest =>
    rw [step_event he]
    cases e with
    | unitStep => exact (h.withEvents rest).unitStep_next
    | regWrite n v => exact regWrite_next n v _
    | regRead n | bufRead x a | bufWrite x a b | reset => exact ⟨_, rfl⟩

/-! ### What the step of a running unit writes -/

/-- A token writes DBUF from DPOS on, and below DLEN (R58). -/
theorem TsdDone.footprint {s t : State} (h : TsdDone s t) :
    t.strm = s.strm ∧ t.raw = s.raw ∧ t.slen = s.slen ∧ t.dlen = s.dlen ∧
      ∀ a, a < s.dpos.toNat ∨ s.dlen.toNat ≤ a → t.readByte .dbuf a = s.readByte .dbuf a := by
  obtain ⟨g, cnt, hdbuf, _, hle, _⟩ := h.output
  refine ⟨by rw [h.frame], by rw [h.frame], by rw [h.frame], by rw [h.frame], fun a ha => ?_⟩
  have hepoch : t.epoch = s.epoch := by rw [h.frame]
  rw [readByte_eq, mem_dbuf, hepoch, hdbuf]
  exact readIn_fillUp_outside _ _ _ _ _ _ _ (by omega)

/-- A row step writes RAW from row ROW on, and inside the image (R58). -/
theorem RowDone.footprint {s t : State} (h : RowDone s t) (hg : legalGeometry s) (hr : s.row.toNat < s.height.toNat) :
    t.strm = s.strm ∧ t.dbuf = s.dbuf ∧ t.slen = s.slen ∧ t.dlen = s.dlen ∧
      ∀ a, a < s.row.toNat * s.stride ∨ s.imageBytes ≤ a → t.readByte .raw a = s.readByte .raw a := by
  have hend := rawAddr_le_image hr
  have hepoch : t.epoch = s.epoch := by rw [h.frame]
  refine ⟨by rw [h.frame], by rw [h.frame], by rw [h.frame], by rw [h.frame], fun a ha => ?_⟩
  rw [readByte_eq, mem_raw, hepoch]
  exact h.outside (pixsz_le_stride hg) a (ha.imp id hend.trans)

/-- A filter step writes DBUF at row ROW's control byte and from row ROW's filtered bytes on, below `E` (R58). -/
theorem FilterDone.footprint {s t : State} (h : FilterDone s t) (hg : legalGeometry s)
    (hr : s.row.toNat < s.height.toNat) :
    t.strm = s.strm ∧ t.raw = s.raw ∧ t.slen = s.slen ∧
      ∀ a, a < 8 + s.row.toNat ∨ (8 + s.height.toNat ≤ a ∧ a < s.pixAddr s.row.toNat 0) ∨ s.expectedLen ≤ a →
        t.readByte .dbuf a = s.readByte .dbuf a := by
  have hend := pixAddr_le_buffer hr
  have hbegin : 8 + s.height.toNat ≤ s.pixAddr s.row.toNat 0 ∧ s.pixAddr s.row.toNat 0 ≤ s.expectedLen := by
    rw [pixAddr_add] at hend
    exact ⟨by unfold State.pixAddr; omega, by omega⟩
  have hepoch : t.epoch = s.epoch := by rw [h.frame]
  refine ⟨by rw [h.frame], by rw [h.frame], by rw [h.frame], fun a ha => ?_⟩
  rw [readByte_eq, mem_dbuf, hepoch]
  exact h.outside (pixsz_le_stride hg) a (by unfold ctlAddr; omega) (by omega)

/-- A block writes STRM from SPOS on, and below the length computed at the start (R58). -/
theorem BlockDone.footprint {s t : State} (h : BlockDone (blockBytes s) s t) (hrun : TspRun s) (hd : s.dpos ≠ s.dlen) :
    t.dbuf = s.dbuf ∧ t.raw = s.raw ∧ t.dlen = s.dlen ∧
      ∀ a, a < s.spos.toNat ∨ packedLen s.dlen.toNat ≤ a → t.readByte .strm a = s.readByte .strm a := by
  obtain ⟨hend, hle⟩ := tspRun_room hrun hd
  have hepoch : t.epoch = s.epoch := by rw [h.frame]
  refine ⟨by rw [h.frame], by rw [h.frame], by rw [h.frame], fun a ha => ?_⟩
  rw [readByte_eq, mem_strm, hepoch]
  exact h.outside a (by omega)

/-- Settles O54: a completion and a fault write no memory, and a token, a row and a block stay in their footprints. -/
theorem unitWriteFootprints : Obligations.UnitWriteFootprints := by
  intro s t hinv hst hstep
  refine ⟨fun hu => ?_, fun hu => ?_, fun hu => ?_, fun hu => ?_⟩
  · rw [unitStep_tsd hst hu] at hstep
    obtain ⟨u, e, rfl⟩ := mapNext_eq_next.1 hstep
    obtain ⟨rfl, _⟩ | ⟨f, _, rfl⟩ | hdone := tsdStep_answers hst e
    · exact ⟨rfl, rfl, rfl, rfl, fun _ _ => rfl⟩
    · exact ⟨rfl, rfl, rfl, rfl, fun _ _ => rfl⟩
    · exact hdone.footprint
  · have hrun := hinv.rfr hst hu
    obtain ⟨u, e, hu'⟩ := hrun.step_next
    rw [unitStep_rfr hst hu, e] at hstep
    cases hstep
    obtain rfl | ⟨hr, hdone⟩ := hu'
    · exact ⟨rfl, rfl, rfl, rfl, fun _ _ => rfl⟩
    · exact hdone.footprint hrun.geometry hr
  · have hrun := hinv.fsf hst hu
    obtain ⟨u, e, hu'⟩ := hrun.step_next
    rw [unitStep_fsf hst hu, e] at hstep
    cases hstep
    obtain rfl | ⟨hr, hdone⟩ := hu'
    · exact ⟨rfl, rfl, rfl, fun _ _ => rfl⟩
    · exact hdone.footprint hrun.geometry hr
  · have hrun := hinv.tsp hst hu
    obtain ⟨u, e, hu'⟩ := hrun.step_next
    rw [unitStep_tsp hst hu, e] at hstep
    cases hstep
    obtain rfl | ⟨hd, hdone⟩ := hu'
    · exact ⟨rfl, rfl, rfl, fun _ _ => rfl⟩
    · exact hdone.footprint hrun hd

end Sys2Proof.Machine

/-! PROOFS. The encoding family (30_encoding.md): decoding what the encoder writes (R70 to R81) and encoding what
decodes, in every space; operand assembly of back-references (R76) and the long form of a short count (R84); the ignored
bits of row control bytes and command words (R79, R81); the order of dispatch bits (R72). -/

namespace Sys2Proof.Machine

/-! ### The fields of an encoded byte or word -/

theorem ign_rowByte (ign : BitVec 6) (m1 m0 : BitVec 1) : (rowByte ign m1 m0).extractLsb' 2 6 = ign := by
  apply BitVec.eq_of_toNat_eq
  rw [ign_toNat, rowByte_toNat]
  omega

theorem m1_rowByte (ign : BitVec 6) (m1 m0 : BitVec 1) : (rowByte ign m1 m0).extractLsb' 1 1 = m1 := by
  apply BitVec.eq_of_toNat_eq
  rw [m1_toNat, rowByte_toNat]
  omega

/-- A row control byte is made of its fields, once its mode bits are known. -/
theorem rowByte_fields {b : Byte} {m1 m0 : BitVec 1} (h : b.toNat % 4 = m1.toNat * 2 + m0.toNat) :
    rowByte (b.extractLsb' 2 6) m1 m0 = b := by
  apply BitVec.eq_of_toNat_eq
  rw [rowByte_toNat, ign_toNat]
  omega

theorem code_commandWord (code : Byte) (ign : BitVec 24) : (commandWord code ign).extractLsb' 0 8 = code := by
  rw [commandCode_eq_iff, commandWord_toNat]
  omega

theorem ign_commandWord (code : Byte) (ign : BitVec 24) : (commandWord code ign).extractLsb' 8 24 = ign := by
  apply BitVec.eq_of_toNat_eq
  rw [commandIgn_toNat, commandWord_toNat]
  omega

/-- A command word whose code is known is that code under its ignored bits. -/
theorem commandWord_of_code {w : Word32} {code : Byte} (h : w.toNat % 256 = code.toNat) :
    commandWord code (w.extractLsb' 8 24) = w := by
  rw [← (commandCode_eq_iff w code).2 h]
  exact commandWord_fields w

/-! ### The decoder of each space on what its encoder writes -/

/-- A literal run is as many bytes as its length byte says (R73, R76). -/
theorem decodeLit_run {n : Byte} {bytes : List Byte} (h : n.toNat ≤ bytes.length) :
    decodeLit (n :: bytes) = .ok (.lit (bytes.take n.toNat), bytes.drop n.toNat) := by
  rw [decodeLit, if_neg (by omega)]

/-- A literal run of at most 255 bytes is read back whole: its length byte holds its length (R73). -/
theorem decodeLit_encode {data : List Byte} (h : data.length ≤ 255) (rest : List Byte) :
    decodeLit (encode (.lit data) ++ rest) = .ok (.lit data, rest) := by
  have hn : (BitVec.ofNat 8 data.length).toNat = data.length := by
    rw [BitVec.toNat_ofNat]
    omega
  simp [encode, decodeLit_run, hn]

/-- The short form: two bytes whose value has bit 3 set (R74). -/
theorem decodeRef_short {b0 b1 : Byte} (h : refShort (refValue b0 b1) = true) (rest : List Byte) :
    decodeRef (b0 :: b1 :: rest) = .ok (.refS (refOff (refValue b0 b1)) (refC (refValue b0 b1)), rest) := by
  simp only [decodeRef, h, if_true]

/-- The long form: bit 3 clear, and an extension byte (R77). -/
theorem decodeRef_long {b0 b1 : Byte} (h : refShort (refValue b0 b1) = false) (e : Byte) (rest : List Byte) :
    decodeRef (b0 :: b1 :: e :: rest) = .ok (.refL (refOff (refValue b0 b1)) (refC (refValue b0 b1)) e, rest) := by
  simp only [decodeRef, h, Bool.false_eq_true, if_false]

theorem decodeRef_encode_refS (off : BitVec 12) (c : BitVec 3) (rest : List Byte) :
    decodeRef (encode (.refS off c) ++ rest) = .ok (.refS off c, rest) := by
  simp [encode, refBytes, decodeRef_short]

theorem decodeRef_encode_refL (off : BitVec 12) (c : BitVec 3) (e : Byte) (rest : List Byte) :
    decodeRef (encode (.refL off c e) ++ rest) = .ok (.refL off c e, rest) := by
  simp [encode, refBytes, decodeRef_long]

/-- A row control byte decodes to the instruction its fields give (R78). -/
theorem decodeRow_of_rowInstr {b : Byte} {i : Instr} (h : rowInstr b = i) (rest : List Byte) :
    decodeRow (b :: rest) = .ok (i, rest) := by
  rw [decodeRow, h]

theorem rowInstr_rowByte_raw (ign : BitVec 6) (m1 : BitVec 1) : rowInstr (rowByte ign m1 1#1) = .rowRaw ign m1 := by
  have hbit : (rowByte ign m1 1#1).toNat % 2 = 1 := by
    rw [rowByte_toNat, BitVec.toNat_ofNat]
    omega
  rw [rowInstr_raw hbit, ign_rowByte, m1_rowByte]

theorem rowInstr_rowByte_vert (ign : BitVec 6) : rowInstr (rowByte ign 1#1 0#1) = .rowVert ign := by
  have hbits : (rowByte ign 1#1 0#1).toNat % 4 = 2 := by
    rw [rowByte_toNat, BitVec.toNat_ofNat, BitVec.toNat_ofNat]
    omega
  rw [rowInstr_vert hbits, ign_rowByte]

theorem rowInstr_rowByte_avg (ign : BitVec 6) : rowInstr (rowByte ign 0#1 0#1) = .rowAvg ign := by
  have hbits : (rowByte ign 0#1 0#1).toNat % 4 = 0 := by
    rw [rowByte_toNat, BitVec.toNat_ofNat]
    omega
  rw [rowInstr_avg hbits, ign_rowByte]

/-- The four bytes of a word decode to the instruction of the word (log 16). -/
theorem decodeCommand_of_commandInstr {w : Word32} {i : Instr} (h : commandInstr w = i) (rest : List Byte) :
    decodeCommand (wordBytes w ++ rest) = .ok (i, rest) := by
  simp only [wordBytes, List.cons_append, List.nil_append, decodeCommand, wordBytes_append, h]

/-! `commandInstr` on a word with a given code: one lemma per row of R81. -/

theorem commandInstr_nop (ign : BitVec 24) : commandInstr (commandWord 0#8 ign) = .nop ign := by
  simp [commandInstr, code_commandWord, ign_commandWord]

theorem commandInstr_decode (ign : BitVec 24) : commandInstr (commandWord 1#8 ign) = .decode ign := by
  simp [commandInstr, code_commandWord, ign_commandWord]

theorem commandInstr_recon (ign : BitVec 24) : commandInstr (commandWord 2#8 ign) = .recon ign := by
  simp [commandInstr, code_commandWord, ign_commandWord]

theorem commandInstr_filter (ign : BitVec 24) : commandInstr (commandWord 3#8 ign) = .filter ign := by
  simp [commandInstr, code_commandWord, ign_commandWord]

theorem commandInstr_pack (ign : BitVec 24) : commandInstr (commandWord 4#8 ign) = .pack ign := by
  simp [commandInstr, code_commandWord, ign_commandWord]

theorem commandInstr_clear (ign : BitVec 24) : commandInstr (commandWord 5#8 ign) = .clear ign := by
  simp [commandInstr, code_commandWord, ign_commandWord]

theorem commandInstr_illegalCmd {code : Byte} (h : 6 ≤ code.toNat) (ign : BitVec 24) :
    commandInstr (commandWord code ign) = .illegalCmd code ign := by
  have hne : ∀ n < 6, code ≠ BitVec.ofNat 8 n := by
    rintro n hn rfl
    rw [BitVec.toNat_ofNat] at h
    omega
  simp [commandInstr, code_commandWord, ign_commandWord, hne]

/-- Settles O1, by the instruction's space: each space's decoder reads back what the encoder writes. -/
theorem decodeUndoesEncode : Obligations.DecodeUndoesEncode := by
  intro i rest hwf
  cases i with
  | ctlb bits => rfl
  | lit data => exact decodeLit_encode (of_decide_eq_true hwf) rest
  | refS off c => exact decodeRef_encode_refS off c rest
  | refL off c e => exact decodeRef_encode_refL off c e rest
  | rowRaw ign m1 => exact decodeRow_of_rowInstr (rowInstr_rowByte_raw ign m1) rest
  | rowVert ign => exact decodeRow_of_rowInstr (rowInstr_rowByte_vert ign) rest
  | rowAvg ign => exact decodeRow_of_rowInstr (rowInstr_rowByte_avg ign) rest
  | fwdRaw => rfl
  | fwdVert => rfl
  | pkblk => rfl
  | nop ign => exact decodeCommand_of_commandInstr (commandInstr_nop ign) rest
  | decode ign => exact decodeCommand_of_commandInstr (commandInstr_decode ign) rest
  | recon ign => exact decodeCommand_of_commandInstr (commandInstr_recon ign) rest
  | filter ign => exact decodeCommand_of_commandInstr (commandInstr_filter ign) rest
  | pack ign => exact decodeCommand_of_commandInstr (commandInstr_pack ign) rest
  | clear ign => exact decodeCommand_of_commandInstr (commandInstr_clear ign) rest
  | illegalCmd code ign =>
    exact decodeCommand_of_commandInstr (commandInstr_illegalCmd (of_decide_eq_true hwf) ign) rest

/-! ### What each space's decoder reads -/

/-- The bytes are, in space `sp`, the encoding of the well-formed instruction `i`, and then `rest`. -/
structure EncodingOf (sp : Space) (bytes : List Byte) (i : Instr) (rest : List Byte) : Prop where
  wf : i.wf = true
  space : i.space = sp
  bytes_eq : encode i ++ rest = bytes

/-- A run taken off the bytes has the length its length byte says (R73). -/
theorem decodeLit_encodingOf {bytes rest : List Byte} {i : Instr} (h : decodeLit bytes = .ok (i, rest)) :
    EncodingOf (.token false) bytes i rest := by
  cases bytes with
  | nil => cases h
  | cons n bytes =>
    simp only [decodeLit] at h
    split_ifs at h with hlen
    cases h
    have htake : (bytes.take n.toNat).length = n.toNat := by rw [List.length_take]; omega
    have hn := n.isLt
    exact ⟨by simp only [Instr.wf, htake, decide_eq_true_eq]; omega, rfl, by simp [encode, htake]⟩

/-- A back-reference has the form that bit 3 of its value selects (R75). -/
theorem decodeRef_encodingOf {bytes rest : List Byte} {i : Instr} (h : decodeRef bytes = .ok (i, rest)) :
    EncodingOf (.token true) bytes i rest := by
  match bytes, h with
  | b0 :: b1 :: tail, h =>
    cases hs : refShort (refValue b0 b1) with
    | true =>
      rw [decodeRef_short hs] at h
      cases h
      exact ⟨rfl, rfl, by simp [encode, refWord_of_short hs]⟩
    | false =>
      match tail, h with
      | [], h => simp [decodeRef, hs] at h
      | e :: tail, h =>
        rw [decodeRef_long hs] at h
        cases h
        exact ⟨rfl, rfl, by simp [encode, refWord_of_long hs]⟩

/-- Every row control byte is the encoding of its instruction: no bit of it is dropped (R78). -/
theorem rowInstr_encodingOf (b : Byte) (rest : List Byte) : EncodingOf .row (b :: rest) (rowInstr b) rest := by
  have hmode : b.toNat % 2 = 1 ∨ b.toNat % 4 = 2 ∨ b.toNat % 4 = 0 := by omega
  obtain h | h | h := hmode
  · have hbyte : rowByte (b.extractLsb' 2 6) (b.extractLsb' 1 1) 1#1 = b :=
      rowByte_fields (by rw [m1_toNat, BitVec.toNat_ofNat]; omega)
    rw [rowInstr_raw h]
    exact ⟨rfl, rfl, by rw [encode, hbyte]; rfl⟩
  · rw [rowInstr_vert h]
    exact ⟨rfl, rfl, by rw [encode, rowByte_fields h]; rfl⟩
  · rw [rowInstr_avg h]
    exact ⟨rfl, rfl, by rw [encode, rowByte_fields h]; rfl⟩

theorem decodeRowOut_encodingOf {bytes rest : List Byte} {i : Instr} (h : decodeRowOut bytes = .ok (i, rest)) :
    EncodingOf .rowOut bytes i rest := by
  cases bytes with
  | nil => cases h
  | cons b bytes =>
    simp only [decodeRowOut] at h
    split_ifs at h with hraw hvert
    · cases h
      exact ⟨rfl, rfl, by rw [hraw]; rfl⟩
    · cases h
      exact ⟨rfl, rfl, by rw [hvert]; rfl⟩

theorem decodePackOut_encodingOf {bytes rest : List Byte} {i : Instr} (h : decodePackOut bytes = .ok (i, rest)) :
    EncodingOf .packOut bytes i rest := by
  cases bytes with
  | nil => cases h
  | cons b bytes =>
    simp only [decodePackOut] at h
    split_ifs at h with hb
    cases h
    exact ⟨rfl, rfl, by rw [hb]; rfl⟩

/-- The instruction of a command word is well formed and encodes to the word's bytes (R81). -/
theorem commandInstr_encodingOf (w : Word32) (rest : List Byte) :
    EncodingOf .command (wordBytes w ++ rest) (commandInstr w) rest := by
  obtain ⟨h, e⟩ | ⟨h, e⟩ | ⟨h, e⟩ | ⟨h, e⟩ | ⟨h, e⟩ | ⟨h, e⟩ | ⟨h, e⟩ := commandInstr_cases w <;> rw [e]
  case inr.inr.inr.inr.inr.inr =>
    exact ⟨by rw [Instr.wf, commandCode_toNat, decide_eq_true_eq]; exact h, rfl, by rw [encode, commandWord_fields]⟩
  all_goals exact ⟨rfl, rfl, by rw [encode, commandWord_of_code h]⟩

/-- Settles O2, by the space: what its decoder reads is the encoding of the instruction it answers. -/
theorem encodeUndoesDecode : Obligations.EncodeUndoesDecode := by
  intro sp bytes rest i h
  have key : EncodingOf sp bytes i rest := by
    match sp, bytes, h with
    | .ctl, _ :: _, rfl => exact ⟨rfl, rfl, rfl⟩
    | .token false, _, h => exact decodeLit_encodingOf h
    | .token true, _, h => exact decodeRef_encodingOf h
    | .row, b :: _, rfl => exact rowInstr_encodingOf b rest
    | .rowOut, _, h => exact decodeRowOut_encodingOf h
    | .packOut, _, h => exact decodePackOut_encodingOf h
    | .command, b0 :: b1 :: b2 :: b3 :: _, rfl =>
      have hw := commandInstr_encodingOf (b3 ++ b2 ++ b1 ++ b0) rest
      rwa [wordBytes_of_append] at hw
  exact ⟨key.wf, key.space, key.bytes_eq⟩

/-! ### Back-references -/

/-- Settles O3, from the fields of the two bytes' value and its form. -/
theorem backReferenceOperands : Obligations.BackReferenceOperands := by
  intro b0 b1 rest v
  have hv : (refValue b0 b1).toNat = v := refValue_toNat b0 b1
  have hoff : (refOff (refValue b0 b1)).toNat = v / 16 := by rw [refOff_toNat, hv]
  have hc : (refC (refValue b0 b1)).toNat = v % 8 := by rw [refC_toNat, hv]
  refine ⟨fun h => ?_, fun h e => ?_, fun h => ?_⟩
  · have hs : refShort (refValue b0 b1) = true := by rw [refShort_iff, hv, h]
    exact ⟨_, _, decodeRef_short hs rest, hoff, by rw [countShort, hc]⟩
  · have hs : refShort (refValue b0 b1) = false := by rw [refShort_false_iff, hv, h]
    exact ⟨_, _, decodeRef_long hs e rest, hoff, by rw [countLong, hc]⟩
  · refine ⟨_, decodeLit_run h, ?_⟩
    rw [List.length_take]
    omega

/-- A count of 4 to 11 assembles to the same number in both forms (R84). -/
theorem countLong_zero (c : BitVec 3) : countLong 0#3 (c.setWidth 8) = countShort c := by
  have hc := c.isLt
  rw [countLong, countShort, BitVec.toNat_setWidth, BitVec.toNat_ofNat]
  omega

/-- But for SPOS and V, CopyBack does not depend on the token's value and length (R107). -/
theorem copyBack_masked (v v' : BitVec 16) (off cnt len len' : Nat) (s : State) :
    mapNext (fun t => { t with spos := 0, v := 0 }) (copyBack v off cnt len s) =
      mapNext (fun t => { t with spos := 0, v := 0 }) (copyBack v' off cnt len' s) := by
  unfold copyBack
  split_ifs <;> rfl

/-- Settles O13: with three bytes left both forms come to CopyBack, with the same offset and count. -/
theorem nonCanonicalLongForm : Obligations.NonCanonicalLongForm := by
  intro off c s hs
  obtain ⟨_, _⟩ | ⟨_, hshort⟩ := execRefS_cases off c s
  · omega
  obtain ⟨_, _⟩ | ⟨_, hlong⟩ := execRefL_cases off 0#3 (c.setWidth 8) s
  · omega
  rw [countLong_zero] at hlong
  simp only [exec, hshort, hlong]
  exact copyBack_masked _ _ _ _ _ _ _

/-! ### Row control bytes -/

/-- Settles O4, by the value mod 4. -/
theorem rowControlByteModes : Obligations.RowControlByteModes := by
  intro b rest
  exact ⟨fun h => ⟨_, _, decodeRow_of_rowInstr (rowInstr_raw h) rest⟩,
    fun h => ⟨_, decodeRow_of_rowInstr (rowInstr_vert h) rest⟩,
    fun h => ⟨_, decodeRow_of_rowInstr (rowInstr_avg h) rest⟩⟩

/-- Settles O5: the test of the row's addresses and the loops do not see the control byte, which only C keeps. -/
theorem rowControlBitsIgnored : Obligations.RowControlBitsIgnored := by
  intro ign ign' m m' s
  simp only [exec]
  cases hf : rowFault s with
  | none =>
    simp only [execRowRaw_next hf, execRowVert_next hf, execRowAvg_next hf]
    exact ⟨rfl, rfl, rfl⟩
  | some f =>
    have hfault := fun ign m => exec_row_fault_iff ign m s f
    simp only [(hfault _ _).1.2 hf, (hfault _ m).2.1.2 hf, (hfault _ m).2.2.2 hf, and_self]

/-! ### Command words -/

/-- A word's instruction is that of its code over its ignored bits. -/
theorem commandInstr_of_code {w : Word32} {code : Byte} {i : Instr}
    (hi : commandInstr (commandWord code (w.extractLsb' 8 24)) = i) (h : w.toNat % 256 = code.toNat) :
    commandInstr w = i := by
  rwa [commandWord_of_code h] at hi

/-- Settles O6: the low byte is the code, and no legal command's meaning looks at the ignored bits. -/
theorem commandWordCodes : Obligations.CommandWordCodes := by
  intro w
  have hcode := commandCode_toNat w
  exact ⟨fun h => ⟨_, commandInstr_of_code (commandInstr_nop _) h⟩,
    fun h => ⟨_, commandInstr_of_code (commandInstr_decode _) h⟩,
    fun h => ⟨_, commandInstr_of_code (commandInstr_recon _) h⟩,
    fun h => ⟨_, commandInstr_of_code (commandInstr_filter _) h⟩,
    fun h => ⟨_, commandInstr_of_code (commandInstr_pack _) h⟩,
    fun h => ⟨_, commandInstr_of_code (commandInstr_clear _) h⟩,
    fun h => ⟨_, _, commandInstr_of_code (commandInstr_illegalCmd (hcode ▸ h) _) hcode.symm, hcode⟩,
    fun _ _ _ => ⟨rfl, rfl, rfl, rfl, rfl, rfl⟩⟩

/-- Settles O7, by running the decoder on the twelve words. -/
theorem specWordsDecode : Obligations.SpecWordsDecode :=
  ⟨rfl, rfl, rfl, rfl, rfl, rfl, rfl, rfl, rfl, rfl, rfl, rfl⟩

/-! ### Dispatch bits -/

/-- `k` shifts of the control word are one shift by `k`. -/
theorem shiftCtl_iterate (c : BitVec 9) (k : Nat) : shiftCtl^[k] c = c >>> k := by
  induction k with
  | zero => rfl
  | succ k ih => rw [Function.iterate_succ_apply', ih, shiftCtl, ← BitVec.shiftRight_add]

theorem shiftCtl_iterate_toNat (c : BitVec 9) (k : Nat) : (shiftCtl^[k] c).toNat = c.toNat / 2 ^ k := by
  rw [shiftCtl_iterate, BitVec.toNat_ushiftRight, Nat.shiftRight_eq_div_pow]

/-- The dispatch bit after `k` shifts is bit `k`. -/
theorem dispatchBit_iterate (c : BitVec 9) (k : Nat) : dispatchBit (shiftCtl^[k] c) = c.getLsbD k := by
  rw [shiftCtl_iterate, dispatchBit, BitVec.getLsbD_ushiftRight, Nat.add_zero]

/-- Below the sentinel the reloaded control word holds the control byte. -/
theorem reloadCtl_getLsbD (b : Byte) {k : Nat} (hk : k < 8) : (reloadCtl b).getLsbD k = b.getLsbD k := by
  rw [reloadCtl, BitVec.getLsbD_append, if_pos hk]

/-- After a reload the sentinel alone is left exactly after eight shifts. -/
theorem exhausted_reload_iff (b : Byte) (k : Nat) : exhausted (shiftCtl^[k] (reloadCtl b)) = true ↔ k = 8 := by
  have hb := b.isLt
  rw [exhausted_iff, shiftCtl_iterate_toNat, reloadCtl_toNat, Nat.div_eq_iff (Nat.two_pow_pos k)]
  constructor
  · rintro ⟨hle, hlt⟩
    have h8 : k < 9 := (Nat.pow_lt_pow_iff_right (by decide : 1 < 2)).1 (by omega : 2 ^ k < 2 ^ 9)
    have h7 : 7 < k := by
      by_contra hk
      have := Nat.pow_le_pow_right (by decide : 0 < 2) (by omega : k ≤ 7)
      omega
    omega
  · rintro rfl
    omega

/-- Settles O9: bit `k` of the control byte is the dispatch bit after `k` shifts, until only the sentinel is left. -/
theorem dispatchBitsInOrder : Obligations.DispatchBitsInOrder := by
  intro b k
  refine ⟨fun hk => ⟨?_, ?_⟩, (exhausted_reload_iff b 8).2 rfl⟩
  · rw [dispatchBit_iterate, reloadCtl_getLsbD b hk]
  · rw [← Bool.not_eq_true, exhausted_reload_iff]
    omega

end Sys2Proof.Machine

/-! PROOFS. The invariant of the block (Safety.lean): what each operation on STATUS, the registers and the memories keeps
of it, and from it that every unit's step and every host transaction keeps it. -/

namespace Sys2Proof.Machine

/-! ### The parts of the invariant -/

/-- What holds while unit `u` runs. With no unit active nothing runs. -/
def UnitRun (s : State) : UnitId → Prop
  | .none => False
  | .tsd => TsdRun s
  | .rfr => RfrRun s
  | .fsf => FsfRun s
  | .tsp => TspRun s

theorem BlockInv.fits {s : State} (h : BlockInv s) : ∀ x, Memory.fits (s.mem x) (s.cap x)
  | .strm => h.strm
  | .dbuf => h.dbuf
  | .raw => h.raw

/-- The invariant, with its four runs said as one: that of the unit UNIT names. -/
theorem BlockInv.of_unitRun {s : State} (hstrm : Memory.fits s.strm (s.cap .strm))
    (hdbuf : Memory.fits s.dbuf (s.cap .dbuf)) (hraw : Memory.fits s.raw (s.cap .raw)) (hstatus : StatusOk s)
    (hctl : 2 ≤ s.ctl.toNat) (hrun : s.st = .busy → UnitRun s s.unit) : BlockInv s where
  strm := hstrm
  dbuf := hdbuf
  raw := hraw
  status := hstatus
  ctl := hctl
  tsd hst hu := by simpa only [hu, UnitRun] using hrun hst
  rfr hst hu := by simpa only [hu, UnitRun] using hrun hst
  fsf hst hu := by simpa only [hu, UnitRun] using hrun hst
  tsp hst hu := by simpa only [hu, UnitRun] using hrun hst

/-! ### What each operation keeps of the invariant -/

/-- The invariant does not speak of the working registers, which are free at a step boundary (log 7), nor of the value a
host read returns; of the memories it says that they fit. -/
theorem BlockInv.of_unspoken {s t : State} (h : BlockInv s)
    (ht : t = { s with
      v := t.v, count := t.count, offset := t.offset, n := t.n, i := t.i, mode := t.mode, c := t.c, k := t.k,
      sraw := t.sraw, svert := t.svert, savg := t.savg, strm := t.strm, dbuf := t.dbuf, raw := t.raw,
      draws := t.draws, portDraws := t.portDraws, rdata := t.rdata })
    (hfits : ∀ x, Memory.fits (t.mem x) (s.cap x)) : BlockInv t := by
  rw [ht]
  exact
    { h with
      strm := hfits .strm
      dbuf := hfits .dbuf
      raw := hfits .raw
      status := { h.status with }
      tsd := fun hst hu => { h.tsd hst hu with }
      rfr := fun hst hu => { h.rfr hst hu with }
      fsf := fun hst hu => { h.fsf hst hu with }
      tsp := fun hst hu => { h.tsp hst hu with } }

theorem BlockInv.released {s : State} (h : BlockInv s) : BlockInv (releaseWorking s) :=
  h.of_unspoken rfl h.fits

theorem BlockInv.of_read {s t : State} (h : BlockInv s)
    (ht : t = { s with rdata := t.rdata, portDraws := t.portDraws }) : BlockInv t := by
  refine h.of_unspoken ?_ ?_
  · rw [ht]
  · rw [ht]
    exact h.fits

/-- While no unit is active the lengths, the geometry and the cursors are bound to nothing, but CTL keeps its sentinel. -/
theorem BlockInv.of_registers {s t : State} (h : BlockInv s) (hst : s.st ≠ .busy)
    (ht : t = { s with
      ien := t.ien, slen := t.slen, dlen := t.dlen, width := t.width, height := t.height, pixsz := t.pixsz,
      spos := t.spos, dpos := t.dpos, ctl := t.ctl, row := t.row })
    (hctl : 2 ≤ t.ctl.toNat) : BlockInv t := by
  rw [ht]
  exact .of_unitRun h.strm h.dbuf h.raw { h.status with } hctl fun hb => absurd hb hst

/-- The codes are 1 to 7, and 7 is BadCommand's (60_exceptions.md R211). -/
theorem faultCode_range (f : FaultCode) :
    1 ≤ f.code.toNat ∧ f.code.toNat ≤ 7 ∧ (f.code = 7 ↔ f = .badCommand) := by
  cases f <;> decide

/-- Fault entry keeps the invariant: UNIT is none for BadCommand only, and UNDEF has to be clear. -/
theorem BlockInv.raised {s : State} (h : BlockInv s) (hundef : s.undef = false) {f : FaultCode} {u : UnitId}
    (hu : u = .none ↔ f = .badCommand) (info : BitVec 32) : BlockInv (raise f info u s) := by
  obtain ⟨hpos, hle, hbad⟩ := faultCode_range f
  have hstatus : StatusOk (raise f info u s) :=
    { idle := nofun
      busy := nofun
      done := nofun
      fault := fun _ => ⟨hpos, hle, hu.trans hbad.symm⟩
      noFault := fun hne => absurd rfl hne
      undef := fun ht => by simp [hundef] at ht }
  exact .of_unitRun h.strm h.dbuf h.raw hstatus h.ctl nofun

/-- A start keeps the invariant where it establishes the unit's run. -/
theorem BlockInv.started {s t : State} (h : BlockInv s) (hst : s.st = .idle) {u : UnitId}
    (ht : t = activate u { s with spos := t.spos, dpos := t.dpos, ctl := t.ctl, row := t.row })
    (hctl : 2 ≤ t.ctl.toNat) (hrun : UnitRun t u) : BlockInv t := by
  have hstatus : StatusOk t := by
    rw [ht]
    exact
      { idle := nofun
        busy := fun _ hu => by
          obtain rfl : u = .none := hu
          exact hrun
        done := nofun
        fault := nofun
        noFault := fun _ => h.status.noFault (by simp [hst])
        undef := nofun }
  have hunit : t.unit = u := by rw [ht]; rfl
  refine .of_unitRun ?_ ?_ ?_ hstatus hctl fun _ => by rwa [hunit]
  · rw [ht]; exact h.strm
  · rw [ht]; exact h.dbuf
  · rw [ht]; exact h.raw

/-- The end of a run keeps the invariant. -/
theorem BlockInv.completed {s : State} (h : BlockInv s) (hst : s.st = .busy) : BlockInv (complete s) := by
  have hstatus : StatusOk (complete s) :=
    { idle := nofun
      busy := nofun
      done := fun _ => h.status.busy hst
      fault := nofun
      noFault := fun _ => h.status.noFault (by simp [hst])
      undef := fun ht => ⟨(h.status.undef ht).1, .inr rfl⟩ }
  exact .of_unitRun h.strm h.dbuf h.raw hstatus h.ctl nofun

theorem BlockInv.acknowledged {s : State} (h : BlockInv s) : BlockInv (acknowledge s) :=
  .of_unitRun h.strm h.dbuf h.raw (statusOk_of_idle rfl rfl rfl rfl rfl) h.ctl nofun

/-- `Reset()` meets the invariant from every state (70_reset_and_hazards.md R240). -/
theorem doReset_blockInv (s : State) : BlockInv (doReset s) :=
  .of_unitRun (fits_nil _) (fits_nil _) (fits_nil _) (statusOk_of_idle rfl rfl rfl rfl rfl) (by decide : 2 ≤ (2#9).toNat)
    nofun

/-! ### The units' steps -/

/-- A step within a run keeps the invariant: the active unit's run, CTL's sentinel and the memories have to be kept, and
only RFR sets UNDEF. -/
theorem BlockInv.of_running {s t : State} (h : BlockInv s) (hst : s.st = .busy)
    (ht : t = { s with
      undef := t.undef, spos := t.spos, dpos := t.dpos, ctl := t.ctl, row := t.row, v := t.v, count := t.count,
      offset := t.offset, n := t.n, i := t.i, mode := t.mode, c := t.c, k := t.k, sraw := t.sraw, svert := t.svert,
      savg := t.savg, strm := t.strm, dbuf := t.dbuf, raw := t.raw, draws := t.draws })
    (hfits : ∀ x, Memory.fits (t.mem x) (s.cap x)) (hctl : 2 ≤ t.ctl.toNat)
    (hundef : t.undef = true → s.undef = true ∨ s.unit = .rfr) (hrun : UnitRun t s.unit) : BlockInv t := by
  have hstatus : StatusOk t := by
    rw [ht]
    exact
      { idle := fun hi => by simp [hst] at hi
        busy := fun _ => h.status.busy hst
        done := fun hd => by simp [hst] at hd
        fault := fun hf => by simp [hst] at hf
        noFault := h.status.noFault
        undef := fun hu => ⟨(hundef hu).elim (fun hs => (h.status.undef hs).1) id, .inl hst⟩ }
  have hunit : t.unit = s.unit := by rw [ht]
  have hcap : ∀ x, t.cap x = s.cap x := fun x => by rw [ht]; cases x <;> rfl
  have hmem : ∀ x, Memory.fits (t.mem x) (t.cap x) := fun x => by rw [hcap]; exact hfits x
  exact .of_unitRun (hmem .strm) (hmem .dbuf) (hmem .raw) hstatus hctl fun _ => by rw [hunit]; exact hrun

/-- A TSD step keeps the invariant: the completion, a fault, or a token. -/
theorem BlockInv.tsdStep_keeps {s t : State} (h : BlockInv s) (hst : s.st = .busy) (hu : s.unit = .tsd)
    (he : tsdStep s = .next t) : BlockInv (releaseWorking t) := by
  have hundef : s.undef = false := by
    rw [← Bool.not_eq_true]
    intro hb
    have hrfr := (h.status.undef hb).1
    simp [hu] at hrfr
  obtain ⟨rfl, _⟩ | ⟨f, hf, rfl⟩ | hdone := tsdStep_answers hst he
  · exact (h.completed hst).released
  · have hf' : UnitId.tsd = .none ↔ f = .badCommand := by
      obtain rfl | rfl | rfl := hf <;> decide
    exact (h.raised hundef hf' s.spos).released
  · obtain ⟨g, cnt, hdbuf, _, _, hcap⟩ := hdone.output
    have hsent := h.ctl
    refine h.of_running hst (by rw [hdone.frame]; rfl) (fun x => ?_) (hdone.ctl (by omega)) (fun hb => ?_) ?_
    · cases x with
      | strm => rw [hdone.frame]; exact h.strm
      | dbuf => rw [mem_dbuf, releaseWorking_dbuf, hdbuf]; exact fillUp_fits g h.dbuf (by omega)
      | raw => rw [hdone.frame]; exact h.raw
    · rw [hdone.frame] at hb
      exact .inl hb
    · rw [hu]
      exact tsdRun_token (h.tsd hst hu) hdone

/-- An RFR step keeps the invariant: the completion, or a row. -/
theorem BlockInv.rfrStep_keeps {s t : State} (h : BlockInv s) (hst : s.st = .busy) (hu : s.unit = .rfr)
    (he : rfrStep s = .next t) : BlockInv (releaseWorking t) := by
  have hrun := h.rfr hst hu
  obtain ⟨_, e, ht⟩ := hrun.step_next
  cases e.symm.trans he
  obtain rfl | ⟨hr, hdone⟩ := ht
  · exact (h.completed hst).released
  · refine h.of_running hst (by rw [hdone.frame]; rfl) (fun x => ?_) ?_ (fun _ => .inr hu) ?_
    · cases x with
      | strm => rw [hdone.frame]; exact h.strm
      | dbuf => rw [hdone.frame]; exact h.dbuf
      | raw => exact hdone.fits (pixsz_le_stride hrun.geometry) h.raw
    · rw [hdone.frame]
      exact h.ctl
    · rw [hu]
      exact (rfrRun_row hrun hr hdone).1

/-- An FSF step keeps the invariant: the completion, which writes DLEN too, or a row. -/
theorem BlockInv.fsfStep_keeps {s t : State} (h : BlockInv s) (hst : s.st = .busy) (hu : s.unit = .fsf)
    (he : fsfStep s = .next t) : BlockInv (releaseWorking t) := by
  have hrun := h.fsf hst hu
  obtain ⟨_, e, ht⟩ := hrun.step_next
  cases e.symm.trans he
  obtain rfl | ⟨hr, hdone⟩ := ht
  · exact ((h.completed hst).of_registers (t := filterComplete s) nofun rfl h.ctl).released
  · refine h.of_running hst (by rw [hdone.frame]; rfl) (fun x => ?_) ?_ (fun hb => ?_) ?_
    · cases x with
      | strm => rw [hdone.frame]; exact h.strm
      | dbuf => exact hdone.fits (pixsz_le_stride hrun.geometry) h.dbuf
      | raw => rw [hdone.frame]; exact h.raw
    · rw [hdone.frame]
      exact h.ctl
    · rw [hdone.frame] at hb
      exact .inl hb
    · rw [hu]
      exact (fsfRun_row hrun hr hdone).1

/-- A TSP step keeps the invariant: the completion, which writes SLEN too, or a block. -/
theorem BlockInv.tspStep_keeps {s t : State} (h : BlockInv s) (hst : s.st = .busy) (hu : s.unit = .tsp)
    (he : tspStep s = .next t) : BlockInv (releaseWorking t) := by
  have hrun := h.tsp hst hu
  obtain ⟨_, e, ht⟩ := hrun.step_next
  cases e.symm.trans he
  obtain rfl | ⟨hd, hdone⟩ := ht
  · exact ((h.completed hst).of_registers (t := packComplete s) nofun rfl h.ctl).released
  · refine h.of_running hst (by rw [hdone.frame]; rfl) (fun x => ?_) ?_ (fun hb => ?_) ?_
    · cases x with
      | strm => exact hdone.fits h.strm
      | dbuf => rw [hdone.frame]; exact h.dbuf
      | raw => rw [hdone.frame]; exact h.raw
    · rw [hdone.frame]
      exact h.ctl
    · rw [hdone.frame] at hb
      exact .inl hb
    · rw [hu]
      exact tspRun_block hrun hd hdone

theorem BlockInv.unitStep_keeps {s t : State} (h : BlockInv s) (he : unitStep s = .next t) : BlockInv t := by
  by_cases hst : s.st = .busy
  case neg =>
    rw [unitStep_inactive hst] at he
    cases he
    exact h
  cases hu : s.unit with
  | none => exact absurd hu (h.status.busy hst)
  | tsd =>
    rw [unitStep_tsd hst hu] at he
    obtain ⟨u, e, rfl⟩ := mapNext_eq_next.1 he
    exact h.tsdStep_keeps hst hu e
  | rfr =>
    rw [unitStep_rfr hst hu] at he
    obtain ⟨u, e, rfl⟩ := mapNext_eq_next.1 he
    exact h.rfrStep_keeps hst hu e
  | fsf =>
    rw [unitStep_fsf hst hu] at he
    obtain ⟨u, e, rfl⟩ := mapNext_eq_next.1 he
    exact h.fsfStep_keeps hst hu e
  | tsp =>
    rw [unitStep_tsp hst hu] at he
    obtain ⟨u, e, rfl⟩ := mapNext_eq_next.1 he
    exact h.tspStep_keeps hst hu e

/-! ### The host's transactions -/

/-- A command's fault on start keeps the invariant: in IDLE UNDEF is clear. -/
theorem BlockInv.raised_idle {s : State} (h : BlockInv s) (hst : s.st = .idle) {f : FaultCode} {u : UnitId}
    (hu : u = .none ↔ f = .badCommand) (info : BitVec 32) : BlockInv (raise f info u s) :=
  h.raised (h.status.idle hst).2 hu info

/-- DECODE's start establishes TSD's run (R100). -/
theorem BlockInv.startDecode_keeps {s : State} (h : BlockInv s) (hst : s.st = .idle) : BlockInv (startDecode s) := by
  obtain ⟨_, e⟩ | ⟨hslen, hdlen, e⟩ := startDecode_cases s <;> rw [e]
  · exact h.raised_idle hst (by decide) 0
  · refine h.started hst (u := .tsd) rfl (by decide : 2 ≤ (2#9).toNat) ?_
    exact TsdRun.mk (Nat.zero_le _) hslen (Nat.zero_le _) hdlen

/-- RECON's start establishes RFR's run (41_row_reconstruct.md R130). -/
theorem BlockInv.startRecon_keeps {s : State} (h : BlockInv s) (hst : s.st = .idle) : BlockInv (startRecon s) := by
  obtain ⟨_, e⟩ | ⟨_, _, e⟩ | ⟨_, _, _, _, e⟩ | ⟨hgeom, hdlen, himage, hsize, e⟩ := startRecon_cases s <;> rw [e]
  case inr.inr.inr =>
    refine h.started hst (u := .rfr) rfl h.ctl ?_
    exact RfrRun.mk hgeom hsize hdlen himage (Nat.zero_le _)
  all_goals exact h.raised_idle hst (by decide) _

/-- FILTER's start establishes FSF's run (42_filter_selector.md R150). -/
theorem BlockInv.startFilter_keeps {s : State} (h : BlockInv s) (hst : s.st = .idle) : BlockInv (startFilter s) := by
  obtain ⟨_, e⟩ | ⟨_, _, e⟩ | ⟨hgeom, hbuffer, himage, e⟩ := startFilter_cases s <;> rw [e]
  case inr.inr =>
    refine h.started hst (u := .fsf) rfl h.ctl ?_
    exact FsfRun.mk hgeom hbuffer himage (Nat.zero_le _)
  all_goals exact h.raised_idle hst (by decide) _

/-- PACK's start establishes TSP's run (43_token_packer.md R180). -/
theorem BlockInv.startPack_keeps {s : State} (h : BlockInv s) (hst : s.st = .idle) : BlockInv (startPack s) := by
  obtain ⟨_, e⟩ | ⟨hdlen, hstream, e⟩ := startPack_cases s <;> rw [e]
  · exact h.raised_idle hst (by decide) 0
  · refine h.started hst (u := .tsp) rfl h.ctl ?_
    have hempty : (0#32).toNat = packedLen (0#32).toNat := by decide
    exact TspRun.mk hdlen hstream (Nat.zero_le _) hempty (.inl rfl)

/-- A command word keeps the invariant: it is dropped, starts a unit, acknowledges, or is illegal (44_host_commands.md
R191). -/
theorem BlockInv.command_keeps {s t : State} (h : BlockInv s) {w : Word32} (he : exec (commandInstr w) s = .next t) :
    BlockInv t := by
  obtain e | ⟨hst, _, e⟩ | ⟨hst, _, e⟩ | ⟨hst, _, e⟩ | ⟨hst, _, e⟩ | ⟨_, _, e⟩ | ⟨hst, _, e⟩ :=
      exec_command_cases w s <;>
    rw [e] at he <;> cases he
  · exact h
  · exact h.startDecode_keeps hst
  · exact h.startRecon_keeps hst
  · exact h.startFilter_keeps hst
  · exact h.startPack_keeps hst
  · exact h.acknowledged
  · exact h.raised_idle hst (by decide) w

theorem BlockInv.regWrite_keeps {s t : State} (h : BlockInv s) {n : Nat} {v : Word32} (he : regWrite n v s = .next t) :
    BlockInv t := by
  by_cases hn : n = 0
  · rw [regWrite, if_pos hn] at he
    exact h.command_keeps he
  by_cases hst : s.st = .busy
  · rw [regWrite_dropped hn hst] at he
    cases he
    exact h
  · rw [regWrite_accepted hn hst] at he
    cases he
    have hframe := setRegister_frame n v s
    refine h.of_registers hst ?_ ?_
    · rw [hframe]
    · rw [hframe]
      exact h.ctl

/-- A buffer write keeps the invariant: it is dropped outside the memory (20_memory.md R49). -/
theorem BlockInv.bufWrite_keeps {s : State} (h : BlockInv s) (x : MemId) (a : Word32) (b : Byte) :
    BlockInv (bufWrite x a b s) := by
  refine h.of_unspoken ?_ fun y => ?_
  · rw [bufWrite_frame]
  unfold bufWrite
  split_ifs with _ ha
  · exact h.fits y
  · by_cases hyx : y = x
    · subst hyx
      rw [State.writeByte, mem_setMem_same]
      exact store_fits (h.fits y) ha b
    · rw [State.writeByte, mem_setMem_other s hyx]
      exact h.fits y
  · exact h.fits y

/-- Settles O57, by the kind of step: the active unit's turn, or one host transaction. -/
theorem stepKeepsInvariant : Obligations.StepKeepsInvariant := by
  intro s t h he
  cases hev : s.events with
  | nil =>
    rw [step_unit hev] at he
    exact h.unitStep_keeps he
  | cons e rest =>
    rw [step_event hev] at he
    have h' := h.withEvents rest
    cases e with
    | unitStep => exact h'.unitStep_keeps he
    | regRead n => cases he; exact h'.of_read (regRead_frame n _)
    | regWrite n v => exact h'.regWrite_keeps he
    | bufRead x a => cases he; exact h'.of_read (bufRead_frame x a _)
    | bufWrite x a b => cases he; exact h'.bufWrite_keeps x a b
    | reset => cases he; exact doReset_blockInv _

end Sys2Proof.Machine

/-! PROOFS. The token family (40_token_decompressor.md): the items CTLB, LIT, REF.S and REF.L (R102 to R108);
the step that joins them (R101, R113, R114); starts and completions (R100, R109); the bound on a run (R110); and what a
step does not depend on (R112, R113). -/

namespace Sys2Proof.Machine

/-! ### The items -/

/-- Settles O8, from the three answers of CTLB. -/
theorem controlByteFetch : Obligations.ControlByteFetch := by
  intro b s
  exact ⟨fun h hs => ⟨_, execCtlb_reload h hs, rfl, reloadCtl_toNat b, toNat_ofNat_of_le s.slen hs⟩,
    fun h hs => execCtlb_truncated h hs,
    fun h => ⟨_, execCtlb_shift h, rfl, shiftCtl_toNat s.ctl⟩⟩

/-! LIT, one lemma per answer (R104). -/

theorem execLit_truncated {data : List Byte} {s : State} (h : s.slen.toNat < s.spos.toNat + 1 + data.length) :
    execLit data s = tsdFault .truncatedStream s := by
  obtain ⟨_, e⟩ | ⟨_, _⟩ | ⟨_, _⟩ | ⟨_, _⟩ := execLit_cases data s
  case inl => exact e
  all_goals omega

theorem execLit_overrun {data : List Byte} {s : State} (hs : s.spos.toNat + 1 + data.length ≤ s.slen.toNat)
    (h : s.dlen.toNat < s.dpos.toNat + data.length) : execLit data s = tsdFault .outputOverrun s := by
  obtain ⟨_, _⟩ | ⟨_, _, e⟩ | ⟨_, _, _⟩ | ⟨_, _, _⟩ := execLit_cases data s
  case inr.inl => exact e
  all_goals omega

theorem execLit_done {data : List Byte} {s : State} (hs : s.spos.toNat + 1 + data.length ≤ s.slen.toNat)
    (h : s.dpos.toNat + data.length ≤ s.dlen.toNat) (hcap : s.dlen.toNat ≤ s.cap .dbuf) :
    execLit data s = .next (literalDone data s) := by
  obtain ⟨_, _⟩ | ⟨_, _, _⟩ | ⟨_, _, _, _⟩ | ⟨_, _, _, e⟩ := execLit_cases data s
  case inr.inr.inr => exact e
  all_goals omega

/-- Settles O10: the answers of LIT, and the fields and bytes of a run taken. -/
theorem literalRun : Obligations.LiteralRun := by
  intro data s hlen hcap
  refine ⟨fun h => execLit_truncated h, fun hs h => execLit_overrun hs h, fun hs h => ?_⟩
  have hn : (BitVec.ofNat 8 data.length).toNat = data.length := by
    rw [BitVec.toNat_ofNat]
    omega
  exact ⟨_, execLit_done hs h hcap, rfl, hn, toNat_ofNat_of_le s.slen hs, toNat_ofNat_of_le s.dlen h,
    fun _ hj => readIn_literal_inside data s hj, fun _ ha => readIn_literal_outside data s ha⟩

/-! CopyBack, one lemma per answer (R107). -/

theorem copyBack_badReference {v : BitVec 16} {off cnt len : Nat} {s : State} (h : off = 0 ∨ s.dpos.toNat < off) :
    copyBack v off cnt len s = tsdFault .badReference s := by
  obtain ⟨_, e⟩ | ⟨_, _, _⟩ | ⟨_, _, _⟩ | ⟨_, _, _⟩ := copyBack_cases v off cnt len s
  case inl => exact e
  all_goals omega

theorem copyBack_overrun {v : BitVec 16} {off cnt len : Nat} {s : State} (h1 : 1 ≤ off) (h2 : off ≤ s.dpos.toNat)
    (h : s.dlen.toNat < s.dpos.toNat + cnt) : copyBack v off cnt len s = tsdFault .outputOverrun s := by
  obtain ⟨_, _⟩ | ⟨_, _, _, e⟩ | ⟨_, _, _, _⟩ | ⟨_, _, _, _⟩ := copyBack_cases v off cnt len s
  case inr.inl => exact e
  all_goals omega

theorem copyBack_copied {v : BitVec 16} {off cnt len : Nat} {s : State} (h1 : 1 ≤ off) (h2 : off ≤ s.dpos.toNat)
    (h : s.dpos.toNat + cnt ≤ s.dlen.toNat) (hcap : s.dlen.toNat ≤ s.cap .dbuf) :
    copyBack v off cnt len s = .next (copied v off cnt len s) := by
  obtain ⟨_, _⟩ | ⟨_, _, _, _⟩ | ⟨_, _, _, _, _⟩ | ⟨_, _, _, _, e⟩ := copyBack_cases v off cnt len s
  case inr.inr.inr => exact e
  all_goals omega

/-- What a back-reference changes besides the bytes it copies (R103, R107). -/
theorem copied_frame (v : BitVec 16) (off cnt len : Nat) (s : State) :
    copied v off cnt len s = { s with
      v := (copied v off cnt len s).v, count := (copied v off cnt len s).count,
      offset := (copied v off cnt len s).offset, i := (copied v off cnt len s).i,
      dbuf := (copied v off cnt len s).dbuf, spos := (copied v off cnt len s).spos,
      dpos := (copied v off cnt len s).dpos } := rfl

/-- The closed form of CopyBack: the last OFFSET bytes before DPOS, repeated (R108). -/
theorem readIn_copyBackMem_period {off cnt : Nat} {s : State} (h1 : 1 ≤ off) (h2 : off ≤ s.dpos.toNat) {j : Nat}
    (hj : j < cnt) :
    readIn s.epoch .dbuf (copyBackMem off cnt s) (s.dpos.toNat + j) =
      s.readByte .dbuf (s.dpos.toNat - off + j % off) := by
  induction j using Nat.strong_induction_on with
  | _ j ih =>
    rw [readIn_copyBackMem_step h1 h2 hj]
    by_cases hlt : j < off
    · rw [Nat.mod_eq_of_lt hlt]
      exact readIn_copyBackMem_outside off cnt s (.inl (by omega))
    · rw [Nat.mod_eq_sub_mod (by omega), ← ih (j - off) (by omega) (by omega)]
      congr 1
      omega

/-- The bytes a back-reference copies. -/
theorem readByte_copied_inside (v : BitVec 16) (len : Nat) {off cnt : Nat} {s : State} (h1 : 1 ≤ off)
    (h2 : off ≤ s.dpos.toNat) {j : Nat} (hj : j < cnt) :
    (copied v off cnt len s).readByte .dbuf (s.dpos.toNat + j) = s.readByte .dbuf (s.dpos.toNat - off + j % off) :=
  readIn_copyBackMem_period h1 h2 hj

/-- The bytes a back-reference leaves alone. -/
theorem readByte_copied_outside (v : BitVec 16) (off len : Nat) {cnt : Nat} (s : State) {a : Nat}
    (h : a < s.dpos.toNat ∨ s.dpos.toNat + cnt ≤ a) :
    (copied v off cnt len s).readByte .dbuf a = s.readByte .dbuf a :=
  readIn_copyBackMem_outside off cnt s h

/-- A count of a back-reference fits COUNT. -/
theorem count_toNat {cnt : Nat} (h : cnt ≤ 2051) : (BitVec.ofNat 12 cnt).toNat = cnt := by
  rw [BitVec.toNat_ofNat]
  omega

theorem offset_eq (off : BitVec 12) : BitVec.ofNat 12 off.toNat = off := by
  rw [BitVec.ofNat_toNat, BitVec.setWidth_eq]

/-- The values of the two forms: flag s is bit 3 (30_encoding.md R75). -/
theorem refWord_short_toNat (off : BitVec 12) (c : BitVec 3) :
    (refWord off 1#1 c).toNat = off.toNat * 16 + 8 + c.toNat := by
  rw [refWord_toNat, BitVec.toNat_ofNat]

theorem refWord_long_toNat (off : BitVec 12) (c : BitVec 3) :
    (refWord off 0#1 c).toNat = off.toNat * 16 + c.toNat := by
  rw [refWord_toNat, BitVec.toNat_ofNat, Nat.zero_mod, Nat.zero_mul, Nat.add_zero]

/-! REF.S and REF.L: the end of the stream, or CopyBack (R105, R106). -/

theorem execRefS_truncated {off : BitVec 12} {c : BitVec 3} {s : State} (h : s.slen.toNat < s.spos.toNat + 2) :
    execRefS off c s = tsdFault .truncatedStream s := by
  obtain ⟨_, e⟩ | ⟨_, _⟩ := execRefS_cases off c s
  · exact e
  · omega

theorem execRefS_copyBack {off : BitVec 12} {c : BitVec 3} {s : State} (h : s.spos.toNat + 2 ≤ s.slen.toNat) :
    execRefS off c s = copyBack (refWord off 1#1 c) off.toNat (countShort c) 2 s := by
  obtain ⟨_, _⟩ | ⟨_, e⟩ := execRefS_cases off c s
  · omega
  · exact e

theorem execRefL_truncated {off : BitVec 12} {c : BitVec 3} {e : Byte} {s : State}
    (h : s.slen.toNat < s.spos.toNat + 3) : execRefL off c e s = tsdFault .truncatedStream s := by
  obtain ⟨_, e⟩ | ⟨_, _⟩ := execRefL_cases off c e s
  · exact e
  · omega

theorem execRefL_copyBack {off : BitVec 12} {c : BitVec 3} {e : Byte} {s : State}
    (h : s.spos.toNat + 3 ≤ s.slen.toNat) :
    execRefL off c e s = copyBack (refWord off 0#1 c) off.toNat (countLong c e) 3 s := by
  obtain ⟨_, _⟩ | ⟨_, e⟩ := execRefL_cases off c e s
  · omega
  · exact e

/-- Settles O11: the end of the stream, or the answers of CopyBack with the short form's value and count. -/
theorem shortBackReference : Obligations.ShortBackReference := by
  intro off c s hcap
  refine ⟨fun hs => execRefS_truncated hs, fun hs h => (execRefS_copyBack hs).trans (copyBack_badReference h),
    fun hs h1 h2 h => (execRefS_copyBack hs).trans (copyBack_overrun h1 h2 h), fun hs h1 h2 h => ?_⟩
  have hcnt := countShort_le c
  exact ⟨_, (execRefS_copyBack hs).trans (copyBack_copied h1 h2 h hcap), copied_frame _ _ _ _ s,
    refWord_short_toNat off c,
    count_toNat (by omega), offset_eq off, toNat_ofNat_of_le s.slen hs,
    toNat_ofNat_of_le s.dlen h, fun _ hj => readByte_copied_inside _ _ h1 h2 hj,
    fun _ ha => readByte_copied_outside _ _ _ s ha⟩

/-- Settles O12: the end of the stream, or the answers of CopyBack with the long form's value and count. -/
theorem longBackReference : Obligations.LongBackReference := by
  intro off c e s hcap
  rw [← show countLong c e = c.toNat * 256 + e.toNat + 4 from rfl]
  refine ⟨fun hs => execRefL_truncated hs, fun hs h => (execRefL_copyBack hs).trans (copyBack_badReference h),
    fun hs h1 h2 h => (execRefL_copyBack hs).trans (copyBack_overrun h1 h2 h), fun hs h1 h2 h => ?_⟩
  exact ⟨_, (execRefL_copyBack hs).trans (copyBack_copied h1 h2 h hcap), copied_frame _ _ _ _ s,
    refWord_long_toNat off c,
    count_toNat (countLong_le c e), offset_eq off, toNat_ofNat_of_le s.slen hs,
    toNat_ofNat_of_le s.dlen h, fun _ hj => readByte_copied_inside _ _ h1 h2 hj,
    fun _ ha => readByte_copied_outside _ _ _ s ha⟩

/-! ### Starts and completions -/

/-- Settles O38: the two transitions of DECODE's start, and the dropped command (44_host_commands.md R191). -/
theorem decodeStarts : Obligations.DecodeStarts := by
  intro ign s
  refine ⟨fun hst hslen hdlen => (whenIdle_idle hst _).trans (congrArg _ ?_),
    fun hst hcap => (whenIdle_idle hst _).trans (congrArg _ ?_), fun hst => whenIdle_other hst _⟩
  · obtain ⟨_, _⟩ | ⟨_, _, e⟩ := startDecode_cases s
    · omega
    · exact e
  · obtain ⟨_, e⟩ | ⟨_, _, _⟩ := startDecode_cases s
    · exact e
    · omega

/-- Settles O32, by unit. `E` fits DLEN because it is within DBUF_CAP while FSF runs. -/
theorem unitsComplete : Obligations.UnitsComplete := by
  intro s hev hst
  rw [step_unit hev]
  refine ⟨fun hu hd => ?_, fun hu hr => ?_, fun hu hr hrun => ⟨BitVec.ofNat 32 s.expectedLen, ?_, ?_⟩, fun hu hd => ?_⟩
  · rw [unitStep_tsd hst hu, tsdStep_complete hd]
    rfl
  · rw [unitStep_rfr hst hu, rfrStep_complete hr]
    rfl
  · rw [toNat_ofNat_of_le s.dbufCap hrun.buffer_le, expectedLen_eq]
  · rw [unitStep_fsf hst hu, fsfStep_complete hr]
    rfl
  · rw [unitStep_tsp hst hu, tspStep_complete hd]
    rfl

/-! ### The step -/

/-! The fetch of the dispatch bit, one lemma per answer (R102). -/

theorem fetchDispatch_shift {s : State} (hctl : s.ctl.toNat / 2 ≠ 1) :
    fetchDispatch s = .next { s with ctl := shiftCtl s.ctl } := by
  obtain ⟨_, e⟩ | ⟨_, _⟩ | ⟨_, _⟩ := fetchDispatch_cases s
  case inl => exact e
  all_goals omega

theorem fetchDispatch_reload {s : State} (hctl : s.ctl.toNat / 2 = 1) (hs : s.spos.toNat < s.slen.toNat) :
    fetchDispatch s = .next
      { s with ctl := reloadCtl (s.readByte .strm s.spos.toNat), spos := BitVec.ofNat 32 (s.spos.toNat + 1) } := by
  obtain ⟨_, _⟩ | ⟨_, _, e⟩ | ⟨_, _, _⟩ := fetchDispatch_cases s
  case inr.inl => exact e
  all_goals omega

theorem fetchDispatch_truncated {s : State} (hctl : s.ctl.toNat / 2 = 1) (hs : s.slen.toNat ≤ s.spos.toNat) :
    fetchDispatch s = tsdFault .truncatedStream s := by
  obtain ⟨_, _⟩ | ⟨_, _, _⟩ | ⟨_, _, e⟩ := fetchDispatch_cases s
  case inr.inr => exact e
  all_goals omega

/-- The fetch of the dispatch bit succeeds: CTL is shifted, or reloaded by the control byte at SPOS. -/
theorem fetchDispatch_next {s u : State}
    (h : (s.ctl.toNat / 2 ≠ 1 ∧ u = { s with ctl := shiftCtl s.ctl }) ∨
      (s.ctl.toNat / 2 = 1 ∧ s.spos.toNat < s.slen.toNat ∧ exec (.ctlb (s.readByte .strm s.spos.toNat)) s = .next u)) :
    fetchDispatch s = .next u ∧ u.st = s.st := by
  obtain ⟨hctl, rfl⟩ | ⟨hctl, hs, hu⟩ := h
  · exact ⟨fetchDispatch_shift hctl, rfl⟩
  · cases (execCtlb_reload hctl hs).symm.trans hu
    exact ⟨fetchDispatch_reload hctl hs, rfl⟩

/-- A step whose stream passes its memory's capacity stops the model (log 12). -/
theorem tsdStep_absent {s : State} (hd : s.dpos ≠ s.dlen) (hc : s.cap .strm < s.slen.toNat) :
    tsdStep s = .fault (.noSuchAddress .strm) := by
  rw [tsdStep, if_neg hd, if_pos hc]

/-- Within a run, the step that has its dispatch bit runs the token it selects (R101, R103). -/
theorem tsdStep_dispatched {s u : State} (hd : s.dpos ≠ s.dlen) (hc : s.slen.toNat ≤ s.cap .strm)
    (e : fetchDispatch s = .next u) (hu : u.st ≠ .fault) :
    tsdStep s = preciseFault s (runItem (.token (dispatchBit u.ctl)) u) := by
  rw [tsdStep, if_neg hd, if_neg (by omega), e, runToken_next hu]

/-- Within a run, the step that finds no control byte faults (R102). -/
theorem tsdStep_undispatched {s : State} (hd : s.dpos ≠ s.dlen) (hc : s.slen.toNat ≤ s.cap .strm)
    (e : fetchDispatch s = tsdFault .truncatedStream s) : tsdStep s = .next (tsdFaulted .truncatedStream s) := by
  rw [tsdStep, if_neg hd, if_neg (by omega), e, runToken_tsdFault, preciseFault_tsdFault]

/-- A token that ends in a fault has TSD in UNIT. -/
theorem exec_token_fault_unit {d : Bool} {s' u t : State} {i : Instr} (hi : fetchItem (.token d) s' = some i)
    (hu : u.st ≠ .fault) (e : exec i u = .next t) (ht : t.st = .fault) : t.unit = .tsd := by
  obtain ⟨f, _, e'⟩ | ⟨_, e'⟩ | ⟨t', e', hdone⟩ := exec_token_cases (s := u) hi <;> cases e.symm.trans e'
  · rfl
  · rw [hdone.frame] at ht
    exact absurd ht hu

/-- Settles O14: the dispatch bit's fetch, then the token; a fault is taken back to the start of the step. -/
theorem tokenStepRunsDecoded : Obligations.TokenStepRunsDecoded := by
  intro s u t i rest hev hst hunit hd hc hfetch hdec hexec
  obtain ⟨hdisp, hust⟩ := fetchDispatch_next hfetch
  have hu : u.st ≠ .fault := by simp [hust, hst]
  have hi := fetchItem_token_some hdec
  have hrun : runItem (.token (dispatchBit u.ctl)) u = .next t := by rw [runItem, hi]; exact hexec
  have hstep : step s = mapNext releaseWorking (preciseFault s (.next t)) := by
    rw [step_unit hev, unitStep_tsd hst hunit, tsdStep_dispatched hd hc hdisp hu, hrun]
  refine ⟨fun ht => ?_, fun ht => ?_⟩
  · rw [hstep, preciseFault_next ht, mapNext_next]
  · rw [hstep, preciseFault_fault ht, mapNext_next, exec_token_fault_unit hi hu hexec ht]

/-- Settles O15: no control byte where one is due, or no complete token after the dispatch bit. -/
theorem tokenStepTruncated : Obligations.TokenStepTruncated := by
  intro s u hev hst hunit hd hc h
  have hfault : tsdStep s = .next (tsdFaulted .truncatedStream s) := by
    obtain ⟨hctl, hs⟩ | ⟨hfetch, hdec⟩ := h
    · exact tsdStep_undispatched hd hc (fetchDispatch_truncated hctl hs)
    · obtain ⟨hdisp, hust⟩ := fetchDispatch_next hfetch
      rw [tsdStep_dispatched hd hc hdisp (by simp [hust, hst]), runItem, fetchItem_token_none hdec]
      exact preciseFault_tsdFault s u _
  rw [step_unit hev, unitStep_tsd hst hunit, hfault]
  rfl

/-! ### The bound on a run -/

/-- A run of steps after its first one. -/
theorem runSteps_succ {s t : State} (h : step s = .next t) (k : Nat) : runSteps (k + 1) s = runSteps k t := by
  simp only [runSteps, h]

/-- Settles O36, by induction on the stream bytes left: a step that neither completes nor faults consumes at least one. -/
theorem decodeTerminates : Obligations.DecodeTerminates := by
  intro s
  induction hleft : s.slen.toNat - s.spos.toNat using Nat.strong_induction_on generalizing s with
  | _ left ih =>
    intro hev hst hu hrun
    obtain ⟨t, e⟩ := hrun.step_next hst
    have hstep : step s = .next (releaseWorking t) := by rw [step_unit hev, unitStep_tsd hst hu, e, mapNext_next]
    obtain ⟨rfl, _⟩ | ⟨f, _, rfl⟩ | hdone := tsdStep_answers hst e
    · exact ⟨1, _, by omega, runSteps_succ hstep 0, .inl rfl⟩
    · exact ⟨1, _, by omega, runSteps_succ hstep 0, .inr rfl⟩
    · obtain ⟨hlt, hle⟩ := hdone.consumed
      have hslen : (releaseWorking t).slen = s.slen := by rw [hdone.frame]; rfl
      have hspos : (releaseWorking t).spos = t.spos := rfl
      have hev' : (releaseWorking t).events = [] := by rw [hdone.frame]; exact hev
      have hst' : (releaseWorking t).st = .busy := by rw [hdone.frame]; exact hst
      have hu' : (releaseWorking t).unit = .tsd := by rw [hdone.frame]; exact hu
      obtain ⟨k, t', hk, hrun', hend⟩ :=
        ih _ (by rw [hslen, hspos]; omega) _ rfl hev' hst' hu' (tsdRun_token hrun hdone)
      rw [hslen, hspos] at hk
      exact ⟨k + 1, t', by omega, (runSteps_succ hstep k).trans hrun', hend⟩

/-! ### What a step sees of the stream -/

/-- TSD fetches the same from both states: CTL, the cursor, SLEN and the bytes below it agree. -/
structure SameStream (s s' : State) : Prop where
  ctl : s'.ctl = s.ctl
  spos : s'.spos = s.spos
  slen : s'.slen = s.slen
  bytes : ∀ a, a < s.slen.toNat → s'.readByte .strm a = s.readByte .strm a

/-- No byte at or above SLEN is fetched (R113). -/
theorem SameStream.fetchItem_eq {s s' : State} (h : SameStream s s') (sp : Space) : fetchItem sp s' = fetchItem sp s := by
  have hlen : windowLength s' = windowLength s := by simp only [windowLength, h.spos, h.slen]
  have hwindow : streamWindow s' = streamWindow s := by
    rw [streamWindow, streamWindow, hlen, h.spos]
    refine readBytes_congr fun c _ hc => h.bytes c ?_
    unfold windowLength at hc
    omega
  simp only [fetchItem, hwindow]

/-- The fetch of the dispatch bit does the same to both states. -/
theorem SameStream.fetchDispatch_eq {s s' : State} (h : SameStream s s') :
    (∃ c p, fetchDispatch s = .next { s with ctl := c, spos := p } ∧
      fetchDispatch s' = .next { s' with ctl := c, spos := p }) ∨
    (fetchDispatch s = tsdFault .truncatedStream s ∧ fetchDispatch s' = tsdFault .truncatedStream s') := by
  obtain ⟨hctl, e⟩ | ⟨hctl, hs, e⟩ | ⟨hctl, hs, e⟩ := fetchDispatch_cases s
  · refine .inl ⟨shiftCtl s.ctl, s.spos, e, ?_⟩
    rw [← h.ctl] at hctl ⊢
    rw [← h.spos]
    exact fetchDispatch_shift hctl
  · refine .inl ⟨_, _, e, ?_⟩
    rw [← h.bytes _ hs]
    rw [← h.ctl] at hctl
    rw [← h.spos, ← h.slen] at hs
    rw [← h.spos]
    exact fetchDispatch_reload hctl hs
  · rw [← h.ctl] at hctl
    rw [← h.spos, ← h.slen] at hs
    exact .inr ⟨e, fetchDispatch_truncated hctl hs⟩

/-! Writing STRM and taking a TSD step commute, operation by operation, where the bytes written agree below SLEN. -/

/-- A content of STRM that agrees with the state's below SLEN. -/
def AgreesBelowSlen (s : State) (m : Memory) : Prop :=
  ∀ a, a < s.slen.toNat → Memory.lookup m a = Memory.lookup s.strm a

theorem AgreesBelowSlen.sameStream {s : State} {m : Memory} (h : AgreesBelowSlen s m) :
    SameStream s (s.setMem .strm m) :=
  ⟨rfl, rfl, rfl, fun a ha => readIn_congr (h a ha)⟩

theorem execLit_setStrm (data : List Byte) (s : State) (m : Memory) :
    execLit data (s.setMem .strm m) = mapNext (State.setMem · .strm m) (execLit data s) := by
  simp only [execLit, setMem_slen, setMem_spos, setMem_dlen, setMem_dpos, cap_setMem]
  split_ifs <;> rfl

theorem copyBack_setStrm (v : BitVec 16) (off cnt len : Nat) (s : State) (m : Memory) :
    copyBack v off cnt len (s.setMem .strm m) = mapNext (State.setMem · .strm m) (copyBack v off cnt len s) := by
  simp only [copyBack, setMem_dlen, setMem_dpos, cap_setMem]
  split_ifs <;> rfl

theorem execRefS_setStrm (off : BitVec 12) (c : BitVec 3) (s : State) (m : Memory) :
    execRefS off c (s.setMem .strm m) = mapNext (State.setMem · .strm m) (execRefS off c s) := by
  simp only [execRefS, copyBack_setStrm, setMem_slen, setMem_spos]
  split_ifs <;> rfl

theorem execRefL_setStrm (off : BitVec 12) (c : BitVec 3) (e : Byte) (s : State) (m : Memory) :
    execRefL off c e (s.setMem .strm m) = mapNext (State.setMem · .strm m) (execRefL off c e s) := by
  simp only [execRefL, copyBack_setStrm, setMem_slen, setMem_spos]
  split_ifs <;> rfl

theorem runItem_setStrm {s : State} {m : Memory} (h : AgreesBelowSlen s m) (d : Bool) :
    runItem (.token d) (s.setMem .strm m) = mapNext (State.setMem · .strm m) (runItem (.token d) s) := by
  rw [runItem, runItem, h.sameStream.fetchItem_eq]
  cases hi : fetchItem (.token d) s with
  | none => rfl
  | some i =>
    obtain ⟨data, _, rfl⟩ | ⟨off, c, rfl⟩ | ⟨off, c, e, rfl⟩ := fetchItem_token_shape hi
    · exact execLit_setStrm data s m
    · exact execRefS_setStrm off c s m
    · exact execRefL_setStrm off c e s m

theorem preciseFault_setStrm (s : State) (m : Memory) (r : Result) :
    preciseFault (s.setMem .strm m) (mapNext (State.setMem · .strm m) r) =
      mapNext (State.setMem · .strm m) (preciseFault s r) := by
  cases r with
  | next t =>
    simp only [mapNext_next, preciseFault, setMem_st]
    split_ifs <;> rfl
  | fault | refused => rfl

theorem tsdStep_setStrm {s : State} {m : Memory} (hst : s.st = .busy) (h : AgreesBelowSlen s m) :
    tsdStep (s.setMem .strm m) = mapNext (State.setMem · .strm m) (tsdStep s) := by
  by_cases hd : s.dpos = s.dlen
  · rw [tsdStep_complete hd, tsdStep_complete (s := s.setMem .strm m) hd]
    rfl
  by_cases hc : s.slen.toNat ≤ s.cap .strm
  case neg =>
    rw [tsdStep_absent hd (Nat.not_le.1 hc), tsdStep_absent (s := s.setMem .strm m) hd (Nat.not_le.1 hc)]
    rfl
  obtain ⟨c, p, e, e'⟩ | ⟨e, e'⟩ := h.sameStream.fetchDispatch_eq
  · rw [tsdStep_dispatched hd hc e (by simp [hst]),
      tsdStep_dispatched (s := s.setMem .strm m) hd hc e' (by simp [hst]), ← preciseFault_setStrm]
    exact congrArg _ (runItem_setStrm (s := { s with ctl := c, spos := p }) h _)
  · rw [tsdStep_undispatched hd hc e, tsdStep_undispatched (s := s.setMem .strm m) hd hc e']
    rfl

/-- Settles O17: the fetch sees the bytes below SLEN only, and no item writes STRM. -/
theorem streamReadsBelowSlen : Obligations.StreamReadsBelowSlen := by
  intro s m hst hu h
  have hcomm : mapNext releaseWorking (tsdStep (s.setMem .strm m)) =
      mapNext (State.setMem · .strm m) (mapNext releaseWorking (tsdStep s)) := by
    rw [tsdStep_setStrm hst h]
    cases tsdStep s <;> rfl
  rw [← unitStep_tsd hst hu, ← unitStep_tsd (s := s.setMem .strm m) hst hu] at hcomm
  exact hcomm

/-! ### What a step sees of the old buffer -/

/-- A content of DBUF that reads as the state's does below DPOS. -/
def AgreesBelowDpos (s : State) (m : Memory) : Prop :=
  ∀ a, a < s.dpos.toNat → readIn s.epoch .dbuf m a = s.readByte .dbuf a

/-- What the first result answers, the second answers too but for DBUF at and above DPOS. -/
def AgreesUpToBuffer (r r' : Result) : Prop :=
  ∀ t, r = .next t → ∃ m, r' = .next (t.setMem .dbuf m) ∧ AgreesBelowDpos t m

theorem AgreesUpToBuffer.of_next {t : State} {m : Memory} (h : AgreesBelowDpos t m) :
    AgreesUpToBuffer (.next t) (.next (t.setMem .dbuf m)) := by
  rintro _ ⟨rfl⟩
  exact ⟨m, rfl, h⟩

theorem AgreesUpToBuffer.of_fault (r : Fault) (r' : Result) : AgreesUpToBuffer (.fault r) r' := by
  intro t h
  cases h

theorem AgreesUpToBuffer.of_tsdFault {s : State} {m : Memory} (h : AgreesBelowDpos s m) (f : FaultCode) :
    AgreesUpToBuffer (tsdFault f s) (tsdFault f (s.setMem .dbuf m)) :=
  .of_next (t := raise f s.spos .tsd s) h

/-- Old buffers do not matter to a literal run: it writes the run's bytes at DPOS (R104). -/
theorem literalDone_agrees {s : State} {m : Memory} (h : AgreesBelowDpos s m) (data : List Byte) :
    AgreesUpToBuffer (.next (literalDone data s)) (.next (literalDone data (s.setMem .dbuf m))) := by
  refine .of_next (m := (literalDone data (s.setMem .dbuf m)).dbuf) fun a ha => ?_
  have hend : a < s.dpos.toNat + data.length := ha.trans_le (by simp only [literalDone, BitVec.toNat_ofNat]; omega)
  by_cases hin : a < s.dpos.toNat
  · exact (readIn_literal_outside data (s.setMem .dbuf m) (.inl hin)).trans
      ((h a hin).trans (readIn_literal_outside data s (.inl hin)).symm)
  · obtain ⟨j, rfl⟩ : ∃ j, a = s.dpos.toNat + j := ⟨a - s.dpos.toNat, by omega⟩
    exact (readIn_literal_inside data (s.setMem .dbuf m) (by omega)).trans
      (readIn_literal_inside data s (by omega)).symm

/-- Old buffers do not matter to a back-reference: it copies from below DPOS (R107, R108). -/
theorem copied_agrees {s : State} {m : Memory} (h : AgreesBelowDpos s m) (v : BitVec 16) {off : Nat} (h1 : 1 ≤ off)
    (h2 : off ≤ s.dpos.toNat) (cnt len : Nat) :
    AgreesUpToBuffer (.next (copied v off cnt len s)) (.next (copied v off cnt len (s.setMem .dbuf m))) := by
  refine .of_next (m := copyBackMem off cnt (s.setMem .dbuf m)) fun a ha => ?_
  have hend : a < s.dpos.toNat + cnt := ha.trans_le (by simp only [copied, BitVec.toNat_ofNat]; omega)
  by_cases hin : a < s.dpos.toNat
  · exact (readByte_copied_outside v off len (s.setMem .dbuf m) (.inl hin)).trans
      ((h a hin).trans (readByte_copied_outside v off len s (.inl hin)).symm)
  · obtain ⟨j, rfl⟩ : ∃ j, a = s.dpos.toNat + j := ⟨a - s.dpos.toNat, by omega⟩
    have hmod := Nat.mod_lt j h1
    have hsource : s.dpos.toNat - off + j % off < s.dpos.toNat := by omega
    exact (readByte_copied_inside v len (s := s.setMem .dbuf m) h1 h2 (by omega)).trans
      ((h _ hsource).trans (readByte_copied_inside v len h1 h2 (by omega)).symm)

theorem execLit_agrees {s : State} {m : Memory} (h : AgreesBelowDpos s m) (data : List Byte) :
    AgreesUpToBuffer (execLit data s) (execLit data (s.setMem .dbuf m)) := by
  simp only [execLit, setMem_slen, setMem_spos, setMem_dlen, setMem_dpos, cap_setMem]
  split_ifs
  · exact .of_tsdFault h _
  · exact .of_tsdFault h _
  · exact .of_tsdFault h _
  · exact .of_fault _ _
  · exact literalDone_agrees h data

theorem copyBack_agrees {s : State} {m : Memory} (h : AgreesBelowDpos s m) (v : BitVec 16) (off cnt len : Nat) :
    AgreesUpToBuffer (copyBack v off cnt len s) (copyBack v off cnt len (s.setMem .dbuf m)) := by
  simp only [copyBack, setMem_dlen, setMem_dpos, cap_setMem]
  split_ifs with hoff
  · exact .of_tsdFault h _
  · exact .of_tsdFault h _
  · exact .of_fault _ _
  · exact copied_agrees h v (by omega) (by omega) cnt len

theorem execRefS_agrees {s : State} {m : Memory} (h : AgreesBelowDpos s m) (off : BitVec 12) (c : BitVec 3) :
    AgreesUpToBuffer (execRefS off c s) (execRefS off c (s.setMem .dbuf m)) := by
  simp only [execRefS, setMem_slen, setMem_spos]
  split_ifs
  · exact .of_tsdFault h _
  · exact copyBack_agrees h _ _ _ _

theorem execRefL_agrees {s : State} {m : Memory} (h : AgreesBelowDpos s m) (off : BitVec 12) (c : BitVec 3) (e : Byte) :
    AgreesUpToBuffer (execRefL off c e s) (execRefL off c e (s.setMem .dbuf m)) := by
  simp only [execRefL, setMem_slen, setMem_spos]
  split_ifs
  · exact .of_tsdFault h _
  · exact .of_tsdFault h _
  · exact copyBack_agrees h _ _ _ _

/-- What DBUF holds is no part of the stream. -/
theorem sameStream_setDbuf (s : State) (m : Memory) : SameStream s (s.setMem .dbuf m) := ⟨rfl, rfl, rfl, fun _ _ => rfl⟩

theorem runItem_agrees {s : State} {m : Memory} (h : AgreesBelowDpos s m) (d : Bool) :
    AgreesUpToBuffer (runItem (.token d) s) (runItem (.token d) (s.setMem .dbuf m)) := by
  rw [runItem, runItem, (sameStream_setDbuf s m).fetchItem_eq]
  cases hi : fetchItem (.token d) s with
  | none => exact .of_tsdFault h _
  | some i =>
    obtain ⟨data, _, rfl⟩ | ⟨off, c, rfl⟩ | ⟨off, c, e, rfl⟩ := fetchItem_token_shape hi
    · exact execLit_agrees h data
    · exact execRefS_agrees h off c
    · exact execRefL_agrees h off c e

theorem preciseFault_agrees {s : State} {m : Memory} (h : AgreesBelowDpos s m) {r r' : Result}
    (hr : AgreesUpToBuffer r r') : AgreesUpToBuffer (preciseFault s r) (preciseFault (s.setMem .dbuf m) r') := by
  cases r with
  | next t =>
    obtain ⟨m', rfl, ht⟩ := hr t rfl
    by_cases hf : t.st = .fault
    · rw [preciseFault_fault hf, preciseFault_fault (by exact hf)]
      exact .of_next (m := m) h
    · rw [preciseFault_next hf, preciseFault_next (by exact hf)]
      exact .of_next ht
  | fault | refused =>
    intro t h
    cases h

theorem tsdStep_agrees {s : State} {m : Memory} (hst : s.st = .busy) (h : AgreesBelowDpos s m) :
    AgreesUpToBuffer (tsdStep s) (tsdStep (s.setMem .dbuf m)) := by
  by_cases hd : s.dpos = s.dlen
  · rw [tsdStep_complete hd, tsdStep_complete (s := s.setMem .dbuf m) hd]
    exact .of_next (t := complete s) h
  by_cases hc : s.slen.toNat ≤ s.cap .strm
  case neg =>
    rw [tsdStep_absent hd (Nat.not_le.1 hc)]
    exact .of_fault _ _
  obtain ⟨c, p, e, e'⟩ | ⟨e, e'⟩ := (sameStream_setDbuf s m).fetchDispatch_eq
  · rw [tsdStep_dispatched hd hc e (by simp [hst]), tsdStep_dispatched (s := s.setMem .dbuf m) hd hc e' (by simp [hst])]
    exact preciseFault_agrees h (runItem_agrees (s := { s with ctl := c, spos := p }) h _)
  · rw [tsdStep_undispatched hd hc e, tsdStep_undispatched (s := s.setMem .dbuf m) hd hc e']
    exact .of_next (t := tsdFaulted .truncatedStream s) h

/-- Settles O18: a literal run writes from DPOS on, and a back-reference copies from below DPOS. -/
theorem decodeIgnoresOldBuffer : Obligations.DecodeIgnoresOldBuffer := by
  intro s s' t hst hu hs' hagree hstep
  have h : AgreesBelowDpos s s'.dbuf := fun a ha => by
    rw [← hagree a ha, hs']
    rfl
  obtain ⟨u, e, rfl⟩ := mapNext_eq_next.1 ((unitStep_tsd hst hu).symm.trans hstep)
  obtain ⟨m, e', hm⟩ := tsdStep_agrees hst h u e
  refine ⟨releaseWorking (u.setMem .dbuf m), ?_, rfl, hm⟩
  rw [hs', show ({ s with dbuf := s'.dbuf } : State) = s.setMem .dbuf s'.dbuf from rfl,
    unitStep_tsd (s := s.setMem .dbuf s'.dbuf) hst hu, e', mapNext_next]

end Sys2Proof.Machine

/-! PROOFS. The row family (41_row_reconstruct.md): RECON's start (R130); AVG (R135); the three filter banks ROW.RAW,
ROW.VERT and ROW.AVG, with the row above in row 0 (R132 to R134, R137); the step that decodes the control byte (R131); and
the length of a run (R138). -/

namespace Sys2Proof.Machine

/-! ### RECON's start, one lemma per answer (R130) -/

theorem startRecon_badGeometry {s : State} (h : s.width = 0 ∨ s.pixsz = 0) :
    startRecon s = raise .badGeometry 0 .rfr s := by
  rw [startRecon, if_pos h]

theorem startRecon_capacity {s : State} (hw : s.width ≠ 0) (hp : s.pixsz ≠ 0)
    (hcap : s.cap .dbuf < s.dlen.toNat ∨ s.cap .raw < s.imageBytes) : startRecon s = raise .capacity 0 .rfr s := by
  rw [startRecon, if_neg (not_or.2 ⟨hw, hp⟩), if_pos hcap]

theorem startRecon_sizeInvariant {s : State} (hw : s.width ≠ 0) (hp : s.pixsz ≠ 0) (hdlen : s.dlen.toNat ≤ s.cap .dbuf)
    (himage : s.imageBytes ≤ s.cap .raw) (hsize : s.dlen.toNat ≠ s.expectedLen) :
    startRecon s = raise .sizeInvariant (BitVec.ofNat 32 s.expectedLen) .rfr s := by
  rw [startRecon, if_neg (not_or.2 ⟨hw, hp⟩), if_neg (by omega), if_pos hsize]

theorem startRecon_accepted {s : State} (hw : s.width ≠ 0) (hp : s.pixsz ≠ 0) (hdlen : s.dlen.toNat ≤ s.cap .dbuf)
    (himage : s.imageBytes ≤ s.cap .raw) (hsize : s.dlen.toNat = s.expectedLen) :
    startRecon s = activate .rfr { s with row := 0 } := by
  rw [startRecon, if_neg (not_or.2 ⟨hw, hp⟩), if_neg (by omega), if_neg (not_not.2 hsize)]

/-- Settles O39: the four answers of RECON's start, and the dropped command (44_host_commands.md R191). -/
theorem reconStarts : Obligations.ReconStarts := by
  intro ign s
  simp only [← imageBytes_eq]
  refine ⟨fun hst hgeo => ?_, fun hst hw hp hcap => ?_,
    fun hst hw hp hdlen himage hsize => ⟨BitVec.ofNat 32 s.expectedLen, BitVec.toNat_ofNat _ _, ?_⟩,
    fun hst hw hp hdlen himage hsize => ?_, fun hst => whenIdle_other hst _⟩ <;>
    refine (whenIdle_idle hst _).trans (congrArg _ ?_)
  · exact startRecon_badGeometry hgeo
  · exact startRecon_capacity hw hp hcap
  · exact startRecon_sizeInvariant hw hp hdlen himage hsize
  · exact startRecon_accepted hw hp hdlen himage hsize

/-! ### AVG -/

theorem avgDefault_comm (a b : Byte) : avgDefault a b = avgDefault b a := by
  rw [avgDefault, avgDefault, Nat.add_comm]

theorem avgDefault_self (a : Byte) : avgDefault a a = a := by
  apply BitVec.eq_of_toNat_eq
  rw [avgDefault_toNat]
  omega

/-- The table whose AVG is a given function: the function's value at every pair of bytes (log 3). -/
def avgTable (f : Byte → Byte → Byte) : List ((Byte × Byte) × Byte) :=
  (allBytes ×ˢ allBytes).map fun p => (p, f p.1 p.2)

theorem avg_avgTable {f : Byte → Byte → Byte} {s : State} (h : s.avgTab = avgTable f) (a b : Byte) :
    s.avg a b = f a b := by
  have hmem : (a, b) ∈ allBytes ×ˢ allBytes := List.pair_mem_product.2 ⟨mem_allBytes a, mem_allBytes b⟩
  rw [State.avg, h, avgTable, tableValue_graph _ (fun p => f p.1 p.2) hmem]

/-- Settles O22: an empty table gives the default, and the graph of a function gives the function. -/
theorem averageOfExactSum : Obligations.AverageOfExactSum := by
  refine ⟨fun s h => ?_, rfl, fun f => ⟨avgTable f, fun s a b h => avg_avgTable h a b⟩⟩
  simp only [avg_default h]
  exact ⟨fun a b => ⟨avgDefault_toNat a b, avgDefault_comm a b, avgDefault_self a⟩, by decide, by decide, by decide⟩

/-! ### The end of a row -/

@[simp] theorem readByte_raw_rowDone (c : Byte) (md : RowMode) (ups : Bool) (m : Memory) (s : State) (a : Nat) :
    (rowDone c md ups m s).readByte .raw a = readIn s.epoch .raw m a := rfl

/-- A row that evaluates no byte above leaves UNDEF and the draws. -/
theorem rowDone_unevaluated (c : Byte) (md : RowMode) (m : Memory) (s : State) :
    rowDone c md false m s = { s with
      c := c, mode := md, k := lastIndex s.k s.rowSpan, raw := m, row := BitVec.ofNat 17 (s.row.toNat + 1) } := by
  simp [rowDone]

/-- Below row 0 the bytes above are read, not drawn: UNDEF and the draws are left. -/
theorem rowDone_of_row_pos {s : State} (hr : 1 ≤ s.row.toNat) (c : Byte) (md : RowMode) (ups : Bool) (m : Memory) :
    (rowDone c md ups m s).undef = s.undef ∧ (rowDone c md ups m s).draws = s.draws := by
  have hr' : s.row.toNat ≠ 0 := by omega
  simp [rowDone, hr']

/-- In row 0 a byte above is a draw: evaluating one sets UNDEF, and the draws advance by the stride (R137). -/
theorem rowDone_of_row_zero {s : State} (hr : s.row.toNat = 0) (c : Byte) (md : RowMode) (ups : Bool) (m : Memory) :
    (rowDone c md ups m s).undef = (s.undef || ups) ∧
      (rowDone c md ups m s).draws = if ups then s.draws + s.stride else s.draws := by
  simp [rowDone, hr]

/-! ### The row above -/

/-- The row above ends before the row begins. -/
theorem rawAddr_above_lt {s : State} {r k : Nat} (hr : r ≠ 0) (hk : k < s.stride) :
    s.rawAddr (r - 1) k < s.rawAddr r 0 := by
  obtain ⟨q, rfl⟩ := Nat.exists_eq_succ_of_ne_zero hr
  rw [Nat.succ_sub_one, ← rawAddr_stride, rawAddr_add s q k, rawAddr_add s q s.stride]
  omega

/-- In row 0 the byte above is a draw (R137). -/
theorem upByte_of_zero {s : State} {r : Nat} (hr : r = 0) (m : Memory) (k : Nat) :
    s.upByte m r k = Config.draw (s.draws + k) := if_pos hr

/-- Below row 0 the byte above is the output of the row before. -/
theorem upByte_of_pos {s : State} {r : Nat} (hr : 1 ≤ r) (k : Nat) :
    s.upByte s.raw r k = s.readByte .raw (s.rawAddr (r - 1) k) := if_neg (by omega)

/-- The row's loops do not write the row above. -/
theorem upByte_of_unwritten {s : State} {m : Memory} {k : Nat} (hk : k < s.stride)
    (hm : ∀ a, a < s.rawAddr s.row.toNat 0 → readIn s.epoch .raw m a = s.readByte .raw a) :
    s.upByte m s.row.toNat k = s.upByte s.raw s.row.toNat k := by
  unfold State.upByte
  split_ifs with hr
  · rfl
  · exact hm _ (rawAddr_above_lt hr hk)

/-! ### What each filter bank leaves in RAW -/

/-- The loop over the rest of a row keeps the first pixel. -/
theorem readIn_rowLoops_first {s : State} (f : Memory → Nat → Byte) (hp : s.pixsz.toNat ≤ s.stride) {k : Nat}
    (hk : k < s.pixsz.toNat) :
    readIn s.epoch .raw (fillUp f (s.rawAddr s.row.toNat 0) (s.stride - s.pixsz.toNat) s.pixsz.toNat (firstPixelMem s))
      (s.rawAddr s.row.toNat k) = s.filteredByte s.row.toNat k := by
  have hbefore : s.rawAddr s.row.toNat k < s.rawAddr s.row.toNat s.pixsz.toNat := by
    rw [rawAddr_add, rawAddr_add s _ s.pixsz.toNat]
    omega
  rw [readIn_rest_outside f _ hp (.inl hbefore), readIn_firstPixel_inside hk]

/-- ROW.RAW's bytes from the second pixel on, over the output one pixel to the left (R132). -/
theorem readIn_rowRawMem_rest {s : State} (hp : 1 ≤ s.pixsz.toNat) {k : Nat} (h1 : s.pixsz.toNat ≤ k)
    (h2 : k < s.stride) :
    readIn s.epoch .raw (rowRawMem s) (s.rawAddr s.row.toNat k) =
      readIn s.epoch .raw (rowRawMem s) (s.rawAddr s.row.toNat (k - s.pixsz.toNat)) -
        s.filteredByte s.row.toNat k := by
  refine readIn_rest_inside (fun m' j _ _ hleft _ => ?_) hp h1 h2
  simp only [State.outByte, hleft]

/-- ROW.VERT's bytes, over the row above (R133). -/
theorem readIn_rowVertMem_inside {s : State} {k : Nat} (hk : k < s.stride) :
    readIn s.epoch .raw (rowVertMem s) (s.rawAddr s.row.toNat k) =
      s.upByte s.raw s.row.toNat k - s.filteredByte s.row.toNat k := by
  rw [rawAddr_add, rowVertMem, readIn_fillUp_inside _ _ _ _ _ _ _ (Nat.zero_le k) (by omega)]
  rw [upByte_of_unwritten hk]
  exact fun a ha => readIn_fillUp_outside _ _ _ _ _ _ _ (.inl ha)

theorem readIn_rowVertMem_outside {s : State} {a : Nat}
    (h : a < s.rawAddr s.row.toNat 0 ∨ s.rawAddr s.row.toNat s.stride ≤ a) :
    readIn s.epoch .raw (rowVertMem s) a = s.readByte .raw a := by
  rw [rawAddr_add s _ s.stride] at h
  exact readIn_fillUp_outside _ _ _ _ _ _ _ (by omega)

/-- ROW.AVG's bytes from the second pixel on, over the row above and the output one pixel to the left (R134). -/
theorem readIn_rowAvgMem_rest {s : State} (hg : legalGeometry s) {k : Nat} (h1 : s.pixsz.toNat ≤ k)
    (h2 : k < s.stride) :
    readIn s.epoch .raw (rowAvgMem s) (s.rawAddr s.row.toNat k) =
      s.avg (s.upByte s.raw s.row.toNat k)
        (readIn s.epoch .raw (rowAvgMem s) (s.rawAddr s.row.toNat (k - s.pixsz.toNat))) -
        s.filteredByte s.row.toNat k := by
  have hup : ∀ j, j < s.stride → s.upByte (rowAvgMem s) s.row.toNat j = s.upByte s.raw s.row.toNat j := fun j hj =>
    upByte_of_unwritten hj fun a ha => rowLoops_outside (pixsz_le_stride hg) _ (.inl ha)
  rw [← hup k h2]
  refine readIn_rest_inside (fun m' j _ hj hleft hbelow => ?_) hg.2 h1 h2
  have hup' : s.upByte m' s.row.toNat j = s.upByte s.raw s.row.toNat j :=
    upByte_of_unwritten hj fun a ha => (hbelow a ha).trans (readIn_firstPixel_outside (.inl ha))
  simp only [State.outByte, hleft, hup']
  rw [← hup j hj]
  rfl

/-- A row is not empty. -/
theorem stride_pos {s : State} (h : legalGeometry s) : 0 < s.stride := Nat.mul_pos h.1 h.2

/-- The second pixel exists exactly when WIDTH is at least 2. -/
theorem pixsz_lt_stride_iff {s : State} (hp : 1 ≤ s.pixsz.toNat) : s.pixsz.toNat < s.stride ↔ 2 ≤ s.width.toNat := by
  rw [State.stride]
  exact Nat.lt_mul_iff_one_lt_left hp

/-! ### The row instructions -/

/-- Settles O19, by the two loops of ROW.RAW. -/
theorem rawRowRebuilt : Obligations.RawRowRebuilt := by
  intro ign m1 s hrun hr
  have hp := pixsz_le_stride hrun.geometry
  have hc : (rowByte ign m1 1#1).toNat = 4 * ign.toNat + 2 * m1.toNat + 1 := by
    rw [rowByte_toNat, BitVec.toNat_ofNat]
    omega
  exact ⟨_, execRowRaw_next (rowFault_none hrun hr), rowDone_unevaluated _ _ _ s, row_succ_toNat hr, rfl, hc,
    fun k hk => readIn_rowLoops_first _ hp hk, fun k h1 h2 => readIn_rowRawMem_rest hrun.geometry.2 h1 h2,
    fun a ha => rowLoops_outside hp _ ha⟩

/-- Settles O20, by ROW.VERT's loop, and in row 0 by the draws its bytes above are. -/
theorem verticalRowRebuilt : Obligations.VerticalRowRebuilt := by
  intro ign s hrun hr
  have hc : (rowByte ign 1#1 0#1).toNat = 4 * ign.toNat + 2 := by
    rw [rowByte_toNat, BitVec.toNat_ofNat, BitVec.toNat_ofNat]
    omega
  have he := execRowVert_next (ign := ign) (rowFault_none hrun hr)
  rw [decide_eq_true (stride_pos hrun.geometry)] at he
  refine ⟨_, he, rfl, row_succ_toNat hr, rfl, hc, fun hlater => ?_, fun hfirst => ?_,
    fun a ha => readIn_rowVertMem_outside ha⟩
  · obtain ⟨hundef, hdraws⟩ := rowDone_of_row_pos hlater (rowByte ign 1#1 0#1) .vertical true (rowVertMem s)
    refine ⟨hundef, hdraws, fun k hk => ?_⟩
    rw [readByte_raw_rowDone, readIn_rowVertMem_inside hk, upByte_of_pos hlater]
    rfl
  · obtain ⟨hundef, hdraws⟩ := rowDone_of_row_zero hfirst (rowByte ign 1#1 0#1) .vertical true (rowVertMem s)
    refine ⟨hundef.trans (Bool.or_true _), hdraws, fun k hk => ?_⟩
    rw [readByte_raw_rowDone, readIn_rowVertMem_inside hk, upByte_of_zero hfirst]
    rfl

/-- Settles O21, by the two loops of ROW.AVG, for whatever AVG the configuration holds. -/
theorem averageRowRebuilt : Obligations.AverageRowRebuilt := by
  intro ign s hrun hr
  have hg := hrun.geometry
  have hp := pixsz_le_stride hg
  have hc : (rowByte ign 0#1 0#1).toNat = 4 * ign.toNat := by
    rw [rowByte_toNat, BitVec.toNat_ofNat]
    omega
  refine ⟨_, execRowAvg_next (rowFault_none hrun hr), rfl, row_succ_toNat hr, rfl, hc,
    fun k hk => readIn_rowLoops_first _ hp hk, fun hlater => ?_, fun hfirst => ?_, fun a ha => rowLoops_outside hp _ ha⟩
  · obtain ⟨hundef, hdraws⟩ :=
      rowDone_of_row_pos hlater (rowByte ign 0#1 0#1) .average (decide (s.pixsz.toNat < s.stride)) (rowAvgMem s)
    refine ⟨hundef, hdraws, fun k h1 h2 => ?_⟩
    rw [readByte_raw_rowDone, readIn_rowAvgMem_rest hg h1 h2, upByte_of_pos hlater]
    rfl
  · refine ⟨?_, fun k h1 h2 => ?_⟩
    · simp [rowDone_of_row_zero hfirst, pixsz_lt_stride_iff hg.2]
    · rw [readByte_raw_rowDone, readIn_rowAvgMem_rest hg h1 h2, upByte_of_zero hfirst]
      rfl

/-! ### The step -/

/-- The row instruction RFR fetches is the one its control byte decodes to (30_encoding.md R78). -/
theorem fetchRow_of_decode {s : State} {i : Instr} {rest : List Byte}
    (h : decode .row (s.readByte .dbuf (8 + s.row.toNat) :: rest) = .ok (i, rest)) : fetchRow s = i := by
  cases (decodeRow_of_rowInstr (i := fetchRow s) rfl rest).symm.trans h
  rfl

/-- Before the last row, the RFR step runs the row instruction it fetches (R131). -/
theorem rfrStep_row {s : State} (hr : s.row.toNat ≠ s.height.toNat) (hc : ctlAddr s.row.toNat < s.cap .dbuf) :
    rfrStep s = exec (fetchRow s) s := by
  rw [rfrStep, if_neg hr, if_neg (by omega)]

/-- Settles O23: the unit's turn is an RFR step, which runs the instruction it fetches. -/
theorem rowStepRunsDecoded : Obligations.RowStepRunsDecoded := by
  intro s i rest hev hst hu hr hc hdec
  rw [step_unit hev, unitStep_rfr hst hu, rfrStep_row hr hc, fetchRow_of_decode hdec]

/-! ### The length of a run -/

/-- A run of steps before its last one. -/
theorem runSteps_last {k : Nat} {s t : State} (h : runSteps k s = .next t) : runSteps (k + 1) s = step t := by
  induction k generalizing s with
  | zero =>
    cases h
    cases ht : step t <;> simp [runSteps, ht]
  | succ k ih =>
    cases hs : step s with
    | next u =>
      rw [runSteps_succ hs] at h ⊢
      exact ih h
    | fault r => simp [runSteps, hs] at h
    | refused r => simp [runSteps, hs] at h

/-- The boundary before row `r` of a RECON that the host leaves alone, of an image of `height` rows. -/
structure ReconAt (height r : Nat) (s : State) : Prop where
  events : s.events = []
  st : s.st = .busy
  unit : s.unit = .rfr
  run : RfrRun s
  height : s.height.toNat = height
  row : s.row.toNat = r

/-- A row's step ends at the next row's boundary (R131). -/
theorem ReconAt.step_row {height r : Nat} {s : State} (h : ReconAt height r s) (hr : r < height) :
    ∃ t, step s = .next t ∧ ReconAt height (r + 1) t := by
  have hlt : s.row.toNat < s.height.toNat := by rw [h.row, h.height]; exact hr
  obtain ⟨t, e, hdone⟩ := rfrStep_next h.run hlt
  obtain ⟨hrun, hrow⟩ := rfrRun_row h.run hlt hdone
  have hframe := hdone.frame
  refine ⟨releaseWorking t, by rw [step_unit h.events, unitStep_rfr h.st h.unit, e, mapNext_next], ?_⟩
  exact
    { events := by rw [hframe]; exact h.events
      st := by rw [hframe]; exact h.st
      unit := by rw [hframe]; exact h.unit
      run := hrun
      height := by rw [hframe]; exact h.height
      row := by rw [hrow, h.row] }

/-- `j` steps are `j` rows. -/
theorem ReconAt.runSteps_rows {height r : Nat} {s : State} (h : ReconAt height r s) {j : Nat} (hj : r + j ≤ height) :
    ∃ t, runSteps j s = .next t ∧ ReconAt height (r + j) t := by
  induction j with
  | zero => exact ⟨s, rfl, h⟩
  | succ j ih =>
    obtain ⟨u, hu, hat⟩ := ih (by omega)
    obtain ⟨t, ht, hat'⟩ := hat.step_row (by omega)
    exact ⟨t, (runSteps_last hu).trans ht, hat'⟩

/-- The step after the last row completes (R138). -/
theorem ReconAt.step_complete {height : Nat} {s : State} (h : ReconAt height height s) :
    step s = .next (releaseWorking (complete s)) := by
  rw [step_unit h.events, unitStep_rfr h.st h.unit, rfrStep_complete (h.row.trans h.height.symm), mapNext_next]

/-- Settles O33: a step per row, by induction on their number, then the completion. -/
theorem reconTerminates : Obligations.ReconTerminates := by
  intro s hev hst hu hrun
  have hat : ReconAt s.height.toNat s.row.toNat s := ⟨hev, hst, hu, hrun, rfl, rfl⟩
  have hle := hrun.row_le
  refine ⟨fun j hj => ?_, ?_⟩
  · obtain ⟨t, e, ht⟩ := hat.runSteps_rows (j := j) (by omega)
    exact ⟨t, e, ht.st⟩
  · obtain ⟨t, e, ht⟩ := hat.runSteps_rows (j := s.height.toNat - s.row.toNat) (by omega)
    rw [Nat.add_sub_cancel' hle] at ht
    exact ⟨_, (runSteps_last e).trans ht.step_complete, rfl, ht.row⟩

end Sys2Proof.Machine

/-! PROOFS. The filter family (42_filter_selector.md): FILTER's start (R150); the forward filters FWD.RAW and FWD.VERT
(R157, R158, R160); the scores and the selection (R151 to R156); the length of a run (R161, R163); and the round trip
through RECON (R162). -/

namespace Sys2Proof.Machine

/-! ### FILTER's start, one lemma per answer (R150) -/

theorem startFilter_badGeometry {s : State} (h : s.width = 0 ∨ s.pixsz = 0) :
    startFilter s = raise .badGeometry 0 .fsf s := by
  rw [startFilter, if_pos h]

theorem startFilter_capacity {s : State} (hw : s.width ≠ 0) (hp : s.pixsz ≠ 0)
    (hcap : s.cap .dbuf < s.expectedLen ∨ s.cap .raw < s.imageBytes) : startFilter s = raise .capacity 0 .fsf s := by
  rw [startFilter, if_neg (not_or.2 ⟨hw, hp⟩), if_pos hcap]

theorem startFilter_accepted {s : State} (hw : s.width ≠ 0) (hp : s.pixsz ≠ 0) (hbuffer : s.expectedLen ≤ s.cap .dbuf)
    (himage : s.imageBytes ≤ s.cap .raw) : startFilter s = activate .fsf { s with row := 0 } := by
  rw [startFilter, if_neg (not_or.2 ⟨hw, hp⟩), if_neg (by omega)]

/-- FILTER in IDLE, accepted. -/
theorem exec_filter_accepted {s : State} (ign : BitVec 24) (hst : s.st = .idle) (hw : s.width ≠ 0) (hp : s.pixsz ≠ 0)
    (hbuffer : s.expectedLen ≤ s.cap .dbuf) (himage : s.imageBytes ≤ s.cap .raw) :
    exec (.filter ign) s = .next (activate .fsf { s with row := 0 }) :=
  (whenIdle_idle hst _).trans (congrArg _ (startFilter_accepted hw hp hbuffer himage))

/-- Settles O40: the three answers of FILTER's start, and the dropped command (44_host_commands.md R191). -/
theorem filterStarts : Obligations.FilterStarts := by
  intro ign s
  simp only [← imageBytes_eq]
  exact ⟨fun hst hgeo => (whenIdle_idle hst _).trans (congrArg _ (startFilter_badGeometry hgeo)),
    fun hst hw hp hcap => (whenIdle_idle hst _).trans (congrArg _ (startFilter_capacity hw hp hcap)),
    fun hst hw hp hbuffer himage => exec_filter_accepted ign hst hw hp hbuffer himage,
    fun hst => whenIdle_other hst _⟩

/-! ### The forward filters -/

/-- The control bytes lie before the filtered bytes (20_memory.md R46). -/
theorem ctlAddr_lt_pixAddr {s : State} {r : Nat} (hr : r < s.height.toNat) (q k : Nat) :
    ctlAddr r < s.pixAddr q k := by
  simp only [ctlAddr, State.pixAddr]
  omega

theorem readIn_fwdRawMem_ctl {s : State} (hp : s.pixsz.toNat ≤ s.stride) (hr : s.row.toNat < s.height.toNat) :
    readIn s.epoch .dbuf (fwdRawMem s) (ctlAddr s.row.toNat) = 0x01#8 := by
  rw [readIn_fwdRawMem_outside hp (.inl (ctlAddr_lt_pixAddr hr _ _)), if_pos rfl]

theorem readIn_fwdVertMem_ctl {s : State} (hr : s.row.toNat < s.height.toNat) :
    readIn s.epoch .dbuf (fwdVertMem s) (ctlAddr s.row.toNat) = 0x02#8 := by
  rw [readIn_fwdVertMem_outside (.inl (ctlAddr_lt_pixAddr hr _ _)), if_pos rfl]

/-- Settles O25, by what FWD.RAW's two loops leave in DBUF. -/
theorem rawFilterWritten : Obligations.RawFilterWritten := by
  intro s hrun hr
  have hp := pixsz_le_stride hrun.geometry
  exact ⟨_, execFwdRaw_next (filterFault_none hrun hr), rfl, row_succ_toNat hr, rfl, readIn_fwdRawMem_ctl hp hr,
    fun k hk => readIn_fwdRawMem_first hk, fun k h1 h2 => readIn_fwdRawMem_rest h1 h2,
    fun a hctl ha => (readIn_fwdRawMem_outside hp ha).trans (if_neg hctl)⟩

/-- Settles O26, by what FWD.VERT's loop leaves in DBUF. -/
theorem verticalFilterWritten : Obligations.VerticalFilterWritten := by
  intro s hrun hpos hr
  exact ⟨_, execFwdVert_next (filterFault_none hrun hr) (Nat.one_le_iff_ne_zero.1 hpos), rfl, row_succ_toNat hr, rfl,
    readIn_fwdVertMem_ctl hr, fun k hk => readIn_fwdVertMem_inside hk,
    fun a hctl ha => (readIn_fwdVertMem_outside ha).trans (if_neg hctl)⟩

/-- Settles O27: row 0 is the first test of FWD.VERT. -/
theorem verticalFilterNeedsRowAbove : Obligations.VerticalFilterNeedsRowAbove := by
  intro s hr
  exact if_pos hr

/-! ### The scores -/

/-- A score over the row from the second pixel on, as a sum over an interval; empty where the stride has no second
pixel. -/
theorem sumUp_rest (f : Nat → Nat) (ps stride : Nat) : sumUp f (stride - ps) ps = ∑ k ∈ Finset.Ico ps stride, f k := by
  rw [sumUp_eq_sum]
  obtain h | h := le_total ps stride
  · rw [Nat.add_sub_cancel' h]
  · rw [Finset.Ico_eq_empty (by omega), Finset.Ico_eq_empty (by omega)]

theorem scoreRaw_eq_sum (s : State) (r : Nat) :
    s.scoreRaw r = ∑ k ∈ Finset.Ico s.pixsz.toNat s.stride, s.mag (s.resRaw r k) :=
  sumUp_rest _ _ _

theorem scoreVert_eq_sum (s : State) (r : Nat) :
    s.scoreVert r = ∑ k ∈ Finset.range s.stride, s.mag (s.resVert r k) := by
  rw [State.scoreVert, sumUp_eq_sum, Nat.zero_add, Finset.range_eq_Ico]

theorem scoreAvg_eq_sum (s : State) (r : Nat) :
    s.scoreAvg r = ∑ k ∈ Finset.Ico s.pixsz.toNat s.stride, s.mag (s.resAvg r k) :=
  sumUp_rest _ _ _

/-- The table whose MAG is a given function: the function's value at every byte (log 2). -/
def magTable (f : Byte → Nat) : List (Byte × Nat) := allBytes.map fun x => (x, f x)

theorem mag_magTable {f : Byte → Nat} (hf : f 0#8 = 0) {s : State} (h : s.magTab = magTable f) (x : Byte) :
    s.mag x = f x := by
  by_cases hx : x = 0
  · subst hx
    exact (mag_zero s).trans hf.symm
  · rw [State.mag, if_neg hx, h, magTable, tableValue_graph _ _ (mem_allBytes x)]

/-! ### The step -/

/-- Row 0 computes no score (R156). -/
theorem scoreRow_first {s : State} (hr : s.row.toNat = 0) : scoreRow s = s := if_pos hr

/-- A later row's scores are in the accumulators (R161). -/
theorem scoreRow_later {s : State} (hr : 1 ≤ s.row.toNat) :
    scoreRow s = { s with
      sraw := s.scoreRaw s.row.toNat, svert := s.scoreVert s.row.toNat, savg := s.scoreAvg s.row.toNat } :=
  if_neg (by omega)

/-- Row 0 is forced Raw (R156). -/
theorem chosenFilter_first {s : State} (hr : s.row.toNat = 0) : chosenFilter s = .fwdRaw := if_pos hr

/-- In a later row Vertical is chosen exactly when its score is at most both others (R155). -/
theorem chosenFilter_later {s : State} (hr : 1 ≤ s.row.toNat) :
    chosenFilter s = if s.svert ≤ s.sraw ∧ s.svert ≤ s.savg then .fwdVert else .fwdRaw := by
  rw [chosenFilter, if_neg (by omega), select]
  by_cases hle : s.svert ≤ s.sraw ∧ s.svert ≤ s.savg
  · rw [if_pos hle, if_pos hle, if_pos rfl]
  · rw [if_neg hle, if_neg hle, if_neg nofun]

/-- Before the last row, the FSF step scores the row and runs the filter chosen (R161). -/
theorem fsfStep_row {s : State} (hr : s.row.toNat < s.height.toNat) :
    fsfStep s = exec (chosenFilter (scoreRow s)) (scoreRow s) := by
  rw [fsfStep, if_neg (by omega)]

/-- Settles O28: the scores are sums over intervals, and SELECT compares them. -/
theorem filterStepSelects : Obligations.FilterStepSelects := by
  intro s hev hst hu hr r ps p vert raw average
  have hstep : step s = mapNext releaseWorking (exec (chosenFilter (scoreRow s)) (scoreRow s)) := by
    rw [step_unit hev, unitStep_fsf hst hu, fsfStep_row hr]
  have hscored : 1 ≤ r → scoreRow s = { s with sraw := raw, svert := vert, savg := average } := fun hlater => by
    rw [scoreRow_later hlater, scoreRaw_eq_sum, scoreVert_eq_sum, scoreAvg_eq_sum]
    rfl
  have hchosen : 1 ≤ r → chosenFilter { s with sraw := raw, svert := vert, savg := average } =
      if vert ≤ raw ∧ vert ≤ average then .fwdVert else .fwdRaw := fun hlater => chosenFilter_later hlater
  refine ⟨mag_zero s, fun h => mag_default h, fun f hf => ⟨magTable f, mag_magTable hf rfl⟩, fun hfirst => ?_,
    fun hlater hle => ?_, fun hlater hgt => ?_⟩
  · rw [hstep, scoreRow_first hfirst, chosenFilter_first hfirst]
  · rw [hstep, hscored hlater, hchosen hlater, if_pos hle]
  · rw [hstep, hscored hlater, hchosen hlater, if_neg hgt]

/-! ### Runs of the active unit's turns -/

/-- A run of `j + k` steps is one of `j` followed by one of `k`. -/
theorem runSteps_add {j k : Nat} {s t : State} (h : runSteps j s = .next t) : runSteps (j + k) s = runSteps k t := by
  induction j generalizing s with
  | zero =>
    cases h
    rw [Nat.zero_add]
  | succ j ih =>
    rw [Nat.add_right_comm]
    cases hs : step s with
    | next u =>
      rw [runSteps_succ hs] at h ⊢
      exact ih h
    | fault r => simp [runSteps, hs] at h
    | refused r => simp [runSteps, hs] at h

/-- With these events pending the next `n` steps are turns of the active unit, and `rest` is pending after them: the
host has left `n` slots before `rest`, or it leaves the block alone (log 8). -/
inductive Turns (n : Nat) : List Event → List Event → Prop where
  | slots (rest : List Event) : Turns n rest (List.replicate n .unitStep ++ rest)
  | alone : Turns n [] []

/-- The first of the turns. -/
theorem Turns.step_unitStep {n : Nat} {rest : List Event} {s : State} (h : Turns (n + 1) rest s.events) :
    ∃ evs, step s = unitStep { s with events := evs } ∧ Turns n rest evs := by
  generalize hev : s.events = pending at h
  cases h with
  | slots => exact ⟨_, step_event hev, .slots rest⟩
  | alone => exact ⟨s.events, step_unit hev, by rw [hev]; exact .alone⟩

theorem Turns.eq_rest {rest evs : List Event} (h : Turns 0 rest evs) : evs = rest := by
  cases h <;> rfl

/-- The loop of a unit that takes one row at a turn: `At r` holds at the boundary before row `r` of `last`, whatever
events are pending, and a turn leads from each boundary to the next. -/
structure RowLoop (last : Nat) (At : Nat → State → Prop) : Prop where
  withEvents : ∀ r s evs, At r s → At r { s with events := evs }
  turn : ∀ r s, r < last → At r s → ∃ t, unitStep s = .next t ∧ t.events = s.events ∧ At (r + 1) t

/-- `j` turns are `j` rows. -/
theorem RowLoop.runSteps_rows {last : Nat} {At : Nat → State → Prop} (hloop : RowLoop last At) {j n r : Nat}
    {rest : List Event} {s : State} (h : At r s) (hle : r + j ≤ last) (hev : Turns (j + n) rest s.events) :
    ∃ t, runSteps j s = .next t ∧ Turns n rest t.events ∧ At (r + j) t := by
  induction j generalizing r s with
  | zero => exact ⟨s, rfl, by rwa [Nat.zero_add] at hev, h⟩
  | succ j ih =>
    rw [Nat.add_right_comm] at hev
    obtain ⟨evs, hstep, hevs⟩ := hev.step_unitStep
    obtain ⟨u, hu, rfl, hat⟩ := hloop.turn r _ (by omega) (hloop.withEvents r s evs h)
    obtain ⟨t, ht, hrest, hat'⟩ := ih hat (by omega) hevs
    rw [Nat.add_right_comm, Nat.add_assoc] at hat'
    exact ⟨t, (runSteps_succ (hstep.trans hu) j).trans ht, hrest, hat'⟩

/-- A turn per row and one more is the turn from the last boundary. -/
theorem RowLoop.runSteps_last_turn {last : Nat} {At : Nat → State → Prop} (hloop : RowLoop last At) {r : Nat}
    {rest : List Event} {s : State} (h : At r s) (hle : r ≤ last) (hev : Turns (last - r + 1) rest s.events) :
    ∃ t, runSteps (last - r + 1) s = unitStep t ∧ t.events = rest ∧ At last t := by
  obtain ⟨u, hu, hone, hat⟩ := hloop.runSteps_rows h (by omega) hev
  rw [Nat.add_sub_cancel' hle] at hat
  obtain ⟨evs, hstep, hnone⟩ := hone.step_unitStep
  exact ⟨{ u with events := evs }, (runSteps_last hu).trans hstep, hnone.eq_rest, hloop.withEvents last u evs hat⟩

/-- A write to CMD runs the command (44_host_commands.md R190). -/
theorem step_command {s : State} {w : Word32} {rest : List Event} (h : s.events = .regWrite 0 w :: rest) :
    step s = exec (commandInstr w) { s with events := rest } := step_event h

/-! ### A row as the forward filters leave it -/

/-- The control byte `c` and the filtered bytes `g` are what FWD.RAW or FWD.VERT makes of the row with bytes `cur` under
the row with bytes `up` (R157, R158, R160). `r` is the row's number, `ps` the bytes of a pixel. -/
inductive FilteredRow (r ps stride : Nat) (up cur : Nat → Byte) (c : Byte) (g : Nat → Byte) : Prop where
  | raw (ctl : c = 0x01#8) (first : ∀ k, k < ps → g k = cur k)
      (rest : ∀ k, ps ≤ k → k < stride → g k = cur (k - ps) - cur k)
  | vertical (row : 1 ≤ r) (ctl : c = 0x02#8) (all : ∀ k, k < stride → g k = up k - cur k)

/-- Only the filtered bytes inside the row count. -/
theorem FilteredRow.congr {r ps stride : Nat} {up cur g g' : Nat → Byte} {c c' : Byte}
    (h : FilteredRow r ps stride up cur c g) (hp : ps ≤ stride) (hc : c' = c) (hg : ∀ k, k < stride → g' k = g k) :
    FilteredRow r ps stride up cur c' g' := by
  subst hc
  cases h with
  | raw ctl first rest =>
    exact .raw ctl (fun k hk => (hg k (by omega)).trans (first k hk))
      fun k h1 h2 => (hg k h2).trans (rest k h1 h2)
  | vertical row ctl all => exact .vertical row ctl fun k hk => (hg k hk).trans (all k hk)

/-- The inverse check of FWD.RAW (R157): ROW.RAW gives back the row, byte by byte to the right. -/
theorem rawRow_inverse {ps stride : Nat} {cur g o : Nat → Byte} (hps : 1 ≤ ps)
    (first : ∀ k, k < ps → g k = cur k) (rest : ∀ k, ps ≤ k → k < stride → g k = cur (k - ps) - cur k)
    (ofirst : ∀ k, k < ps → o k = g k) (orest : ∀ k, ps ≤ k → k < stride → o k = o (k - ps) - g k)
    {k : Nat} (hk : k < stride) : o k = cur k := by
  induction k using Nat.strong_induction_on with
  | _ k ih =>
    by_cases hfirst : k < ps
    · rw [ofirst k hfirst, first k hfirst]
    · have hle : ps ≤ k := Nat.le_of_not_lt hfirst
      rw [orest k hle hk, rest k hle hk, ih (k - ps) (by omega) (by omega), sub_sub_cancel]

/-- Row `r` of the image with byte `p a` at address `a` of RAW stands filtered in DBUF. -/
def RowFiltered (p : Nat → Byte) (s : State) (r : Nat) : Prop :=
  FilteredRow r s.pixsz.toNat s.stride (fun k => p (s.rawAddr (r - 1) k)) (fun k => p (s.rawAddr r k))
    (s.readByte .dbuf (ctlAddr r)) (s.filteredByte r)

/-- A row's filtered bytes end before a later row's begin. -/
theorem pixAddr_lt {s : State} {q r k : Nat} (hq : q < r) (hk : k < s.stride) : s.pixAddr q k < s.pixAddr r 0 := by
  have hrows : (q + 1) * s.stride ≤ r * s.stride := Nat.mul_le_mul_right _ hq
  rw [Nat.succ_mul] at hrows
  simp only [State.pixAddr]
  omega

/-- A filter step keeps the rows above it in DBUF. -/
theorem FilterDone.keeps_row {p : Nat → Byte} {s t : State} (h : FilterDone s t) (hg : legalGeometry s)
    (hr : s.row.toNat < s.height.toNat) {q : Nat} (hq : q < s.row.toNat) (hf : RowFiltered p s q) :
    RowFiltered p t q := by
  obtain ⟨_, _, _, hkept⟩ := h.footprint hg hr
  have hrow : FilteredRow q s.pixsz.toNat s.stride (fun k => p (s.rawAddr (q - 1) k)) (fun k => p (s.rawAddr q k))
      (t.readByte .dbuf (ctlAddr q)) (fun k => t.readByte .dbuf (s.pixAddr q k)) := by
    refine hf.congr (pixsz_le_stride hg) (hkept _ (.inl ?_)) fun k hk => hkept _ (.inr (.inl ⟨?_, pixAddr_lt hq hk⟩))
    · unfold ctlAddr; omega
    · unfold State.pixAddr; omega
  rw [h.frame] at hrow ⊢
  exact hrow

/-- FWD.RAW leaves its row filtered. -/
theorem execFwdRaw_filters {s t : State} (hrun : FsfRun s) (hr : s.row.toNat < s.height.toNat)
    (he : exec .fwdRaw s = .next t) : RowFiltered (s.readByte .raw) t s.row.toNat := by
  obtain ⟨_, e, hframe, _, _, hctl, hfirst, hrest, _⟩ := rawFilterWritten s hrun hr
  cases e.symm.trans he
  rw [hframe] at hctl hfirst hrest ⊢
  exact .raw hctl hfirst hrest

/-- FWD.VERT leaves its row filtered. -/
theorem execFwdVert_filters {s t : State} (hrun : FsfRun s) (hpos : 1 ≤ s.row.toNat) (hr : s.row.toNat < s.height.toNat)
    (he : exec .fwdVert s = .next t) : RowFiltered (s.readByte .raw) t s.row.toNat := by
  obtain ⟨_, e, hframe, _, _, hctl, hall, _⟩ := verticalFilterWritten s hrun hpos hr
  cases e.symm.trans he
  rw [hframe] at hctl hall ⊢
  exact .vertical hpos hctl hall

/-- The filter chosen is FWD.RAW, or below row 0 FWD.VERT (R155, R156). -/
theorem chosenFilter_cases (s : State) : chosenFilter s = .fwdRaw ∨ 1 ≤ s.row.toNat ∧ chosenFilter s = .fwdVert := by
  obtain hfirst | hlater := Nat.eq_zero_or_pos s.row.toNat
  · exact .inl (chosenFilter_first hfirst)
  · rw [chosenFilter_later hlater]
    split_ifs
    · exact .inr ⟨hlater, rfl⟩
    · exact .inl rfl

/-- The filter chosen leaves its row filtered, whatever the scores. -/
theorem exec_chosenFilter_filters {s t : State} (hrun : FsfRun s) (hr : s.row.toNat < s.height.toNat)
    (he : exec (chosenFilter s) s = .next t) : RowFiltered (s.readByte .raw) t s.row.toNat := by
  obtain e | ⟨hpos, e⟩ := chosenFilter_cases s <;> rw [e] at he
  · exact execFwdRaw_filters hrun hr he
  · exact execFwdVert_filters hrun hpos hr he

/-- A filter step leaves its row filtered. -/
theorem fsfStep_filters {s t : State} (hrun : FsfRun s) (hr : s.row.toNat < s.height.toNat) (he : fsfStep s = .next t) :
    RowFiltered (s.readByte .raw) t s.row.toNat := by
  rw [fsfStep_row hr] at he
  have hframe := scoreRow_frame s
  have hrun' : FsfRun (scoreRow s) := by rw [hframe]; exact { hrun with }
  have hr' : (scoreRow s).row.toNat < (scoreRow s).height.toNat := by rw [hframe]; exact hr
  have hfiltered := exec_chosenFilter_filters hrun' hr' he
  rw [hframe] at hfiltered
  exact hfiltered

/-! ### The length of a run -/

/-- The boundary before row `r` of a FILTER of the image in `s₀`: the rows from `first` to
`r - 1` stand filtered. -/
structure FilterAt (s₀ : State) (first r : Nat) (s : State) : Prop where
  st : s.st = .busy
  unit : s.unit = .fsf
  run : FsfRun s
  row : s.row.toNat = r
  height : s.height = s₀.height
  size : s.expectedLen = s₀.expectedLen
  raw : ∀ a, s.readByte .raw a = s₀.readByte .raw a
  rows : ∀ q, first ≤ q → q < r → RowFiltered (s₀.readByte .raw) s q

/-- A row's turn ends at the next row's boundary (R161). -/
theorem FilterAt.turn {s₀ s : State} {first r : Nat} (h : FilterAt s₀ first r s) (hr : r < s₀.height.toNat) :
    ∃ t, unitStep s = .next t ∧ t.events = s.events ∧ FilterAt s₀ first (r + 1) t := by
  have hrow := h.row
  have hlt : s.row.toNat < s.height.toNat := by rw [hrow, h.height]; exact hr
  obtain ⟨t, e, hdone⟩ := fsfStep_next h.run hlt
  obtain ⟨hrun, hnext⟩ := fsfRun_row h.run hlt hdone
  have hnew := fsfStep_filters h.run hlt e
  have hrows : ∀ q, first ≤ q → q < r + 1 → RowFiltered (s₀.readByte .raw) t q := fun q h1 h2 => by
    obtain hq | rfl := Nat.lt_succ_iff_lt_or_eq.1 h2
    · exact hdone.keeps_row h.run.geometry hlt (by omega) (h.rows q h1 hq)
    · rwa [hrow, funext h.raw] at hnew
  have hframe := hdone.frame
  refine ⟨releaseWorking t, by rw [unitStep_fsf h.st h.unit, e, mapNext_next], by rw [hframe]; rfl, ?_⟩
  exact
    { st := by rw [hframe]; exact h.st
      unit := by rw [hframe]; exact h.unit
      run := hrun
      row := by rw [hnext, hrow]
      height := by rw [hframe]; exact h.height
      size := by rw [hframe]; exact h.size
      raw := by rw [hframe]; exact h.raw
      rows := hrows }

/-- FSF's loop over the rows. -/
theorem filterAt_rowLoop (s₀ : State) (first : Nat) : RowLoop s₀.height.toNat (FilterAt s₀ first) where
  withEvents _ _ _ h := { h with run := { h.run with } }
  turn _ _ hr h := h.turn hr

/-- The turn after the last row completes (R163). -/
theorem FilterAt.turn_complete {s₀ s : State} {first : Nat} (h : FilterAt s₀ first s₀.height.toNat s) :
    unitStep s = .next (releaseWorking (filterComplete s)) := by
  rw [unitStep_fsf h.st h.unit, fsfStep_complete (by rw [h.row, h.height]), mapNext_next]

/-- From row `r`, a turn per row and one more end in the completion. -/
theorem FilterAt.runSteps_complete {s₀ s : State} {first r : Nat} {rest : List Event} (h : FilterAt s₀ first r s)
    (hle : r ≤ s₀.height.toNat) (hev : Turns (s₀.height.toNat - r + 1) rest s.events) :
    ∃ t, runSteps (s₀.height.toNat - r + 1) s = .next (releaseWorking (filterComplete t)) ∧ t.events = rest ∧
      FilterAt s₀ first s₀.height.toNat t := by
  obtain ⟨t, e, hrest, ht⟩ := (filterAt_rowLoop s₀ first).runSteps_last_turn h hle hev
  exact ⟨t, e.trans ht.turn_complete, hrest, ht⟩

/-- DLEN holds `E`, which fits it because it is within DBUF_CAP (R150, R163). -/
theorem filterComplete_dlen {s : State} (h : FsfRun s) : (filterComplete s).dlen.toNat = s.expectedLen :=
  toNat_ofNat_of_le s.dbufCap h.buffer_le

/-- Settles O34: a turn per row, then the completion. -/
theorem filterTerminates : Obligations.FilterTerminates := by
  intro s hev hst hu hrun
  have hat : FilterAt s s.row.toNat s.row.toNat s :=
    ⟨hst, hu, hrun, rfl, rfl, rfl, fun _ => rfl, fun q h1 h2 => by omega⟩
  have hle := hrun.row_le
  have hturns : ∀ n, Turns n [] s.events := fun n => by rw [hev]; exact .alone
  refine ⟨fun j hj => ?_, ?_⟩
  · obtain ⟨t, e, _, ht⟩ := (filterAt_rowLoop s _).runSteps_rows hat (j := j) (by omega) (hturns (j + 0))
    exact ⟨t, e, ht.st⟩
  · obtain ⟨t, e, _, ht⟩ := hat.runSteps_complete hle (hturns _)
    have hdlen := filterComplete_dlen ht.run
    rw [ht.size, expectedLen_eq] at hdlen
    exact ⟨_, e, rfl, ht.row, hdlen⟩

/-! ### RECON on a filtered image -/

/-- From `s` to `t` the row ROW of RAW has become that of the image `p`, and UNDEF is left. -/
structure RowRestored (p : Nat → Byte) (s t : State) : Prop where
  undef : t.undef = s.undef
  bytes : ∀ k, k < s.stride → t.readByte .raw (s.rawAddr s.row.toNat k) = p (s.rawAddr s.row.toNat k)

/-- The row instruction of a filtered row's control byte gives the row back, below a row given back: ROW.RAW inverts
FWD.RAW and ROW.VERT inverts FWD.VERT (R157, R158). -/
theorem exec_fetchRow_restores {p : Nat → Byte} {s t : State} (hrun : RfrRun s) (hr : s.row.toNat < s.height.toNat)
    (hf : RowFiltered p s s.row.toNat)
    (habove : ∀ a, a < s.rawAddr s.row.toNat 0 → s.readByte .raw a = p a) (he : exec (fetchRow s) s = .next t) :
    RowRestored p s t := by
  unfold fetchRow at he
  cases hf with
  | raw hctl hfirst hrest =>
    rw [rowInstr_raw (by rw [hctl]; rfl)] at he
    obtain ⟨_, e, hframe, _, _, _, ofirst, orest, _⟩ := rawRowRebuilt _ _ s hrun hr
    cases e.symm.trans he
    exact ⟨by rw [hframe], fun k hk => rawRow_inverse hrun.geometry.2 hfirst hrest ofirst orest hk⟩
  | vertical hpos hctl hall =>
    rw [rowInstr_vert (by rw [hctl]; rfl)] at he
    obtain ⟨_, e, _, _, _, _, hlater, _⟩ := verticalRowRebuilt _ s hrun hr
    cases e.symm.trans he
    obtain ⟨hundef, _, obytes⟩ := hlater hpos
    refine ⟨hundef, fun k hk => ?_⟩
    calc t.readByte .raw (s.rawAddr s.row.toNat k)
        = s.readByte .raw (s.rawAddr (s.row.toNat - 1) k) - s.filteredByte s.row.toNat k := obytes k hk
      _ = p (s.rawAddr (s.row.toNat - 1) k) - (p (s.rawAddr (s.row.toNat - 1) k) - p (s.rawAddr s.row.toNat k)) := by
        rw [habove _ (rawAddr_above_lt (by omega) hk), hall k hk]
      _ = p (s.rawAddr s.row.toNat k) := sub_sub_cancel _ _

/-- A row step on a filtered row gives the row back. -/
theorem rfrStep_restores {p : Nat → Byte} {s t : State} (hrun : RfrRun s) (hr : s.row.toNat < s.height.toNat)
    (hf : RowFiltered p s s.row.toNat)
    (habove : ∀ a, a < s.rawAddr s.row.toNat 0 → s.readByte .raw a = p a) (he : rfrStep s = .next t) :
    RowRestored p s t := by
  have hctl : ctlAddr s.row.toNat < s.cap .dbuf :=
    (ctlAddr_lt_pixAddr hr _ _).trans_le (rowFault_none_iff.1 (rowFault_none hrun hr)).1
  rw [rfrStep_row (by omega) hctl] at he
  exact exec_fetchRow_restores hrun hr hf habove he

/-- DBUF holds the image `p` filtered, in the size RECON asks for, and RAW holds `p` outside the image. -/
structure ImageFiltered (p : Nat → Byte) (s : State) : Prop where
  geometry : legalGeometry s
  dlen_eq : s.dlen.toNat = s.expectedLen
  dlen_le : s.dlen.toNat ≤ s.cap .dbuf
  image_le : s.imageBytes ≤ s.cap .raw
  rows : ∀ q, q < s.height.toNat → RowFiltered p s q
  outside : ∀ a, s.imageBytes ≤ a → s.readByte .raw a = p a

/-- The boundary before row `r` of a RECON of the filtered image `p`: RAW holds `p` above the row. -/
structure RestoreAt (p : Nat → Byte) (height r : Nat) (s : State) : Prop where
  st : s.st = .busy
  unit : s.unit = .rfr
  undef : s.undef = false
  image : ImageFiltered p s
  row : s.row.toNat = r
  row_le : s.row.toNat ≤ s.height.toNat
  restored : ∀ a, a < s.rawAddr s.row.toNat 0 → s.readByte .raw a = p a
  height : s.height.toNat = height

theorem RestoreAt.run {p : Nat → Byte} {height r : Nat} {s : State} (h : RestoreAt p height r s) : RfrRun s :=
  ⟨h.image.geometry, h.image.dlen_eq, h.image.dlen_le, h.image.image_le, h.row_le⟩

/-- A row step that gives its row back gives back RAW as far as the next row. -/
theorem RowRestored.restored_next {p : Nat → Byte} {s t : State} (h : RowRestored p s t) (hdone : RowDone s t)
    (hg : legalGeometry s) (hr : s.row.toNat < s.height.toNat)
    (habove : ∀ a, a < s.rawAddr s.row.toNat 0 → s.readByte .raw a = p a) {a : Nat}
    (ha : a < s.rawAddr (s.row.toNat + 1) 0) : t.readByte .raw a = p a := by
  obtain ⟨_, _, _, _, hkept⟩ := hdone.footprint hg hr
  by_cases hbefore : a < s.rawAddr s.row.toNat 0
  · rw [hkept a (.inl hbefore), habove a hbefore]
  · obtain ⟨k, rfl⟩ := Nat.exists_eq_add_of_le (Nat.le_of_not_lt hbefore)
    rw [← rawAddr_stride, rawAddr_add s _ s.stride] at ha
    rw [← rawAddr_add]
    exact h.bytes k (by omega)

/-- A row's turn ends at the next row's boundary (R162). -/
theorem RestoreAt.turn {p : Nat → Byte} {height r : Nat} {s : State} (h : RestoreAt p height r s) (hr : r < height) :
    ∃ t, unitStep s = .next t ∧ t.events = s.events ∧ RestoreAt p height (r + 1) t := by
  have hg := h.image.geometry
  have hlt : s.row.toNat < s.height.toNat := by rw [h.row, h.height]; exact hr
  obtain ⟨t, e, hdone⟩ := rfrStep_next h.run hlt
  obtain ⟨hrun, hnext⟩ := rfrRun_row h.run hlt hdone
  obtain ⟨_, _, _, _, hkept⟩ := hdone.footprint hg hlt
  have hrow := rfrStep_restores h.run hlt (h.image.rows _ hlt) h.restored e
  have hrestored : ∀ a, a < s.rawAddr (s.row.toNat + 1) 0 → t.readByte .raw a = p a := fun a =>
    hrow.restored_next hdone hg hlt h.restored
  have hout : ∀ a, s.imageBytes ≤ a → t.readByte .raw a = p a := fun a ha =>
    (hkept a (.inr ha)).trans (h.image.outside a ha)
  have hframe := hdone.frame
  have himage : ImageFiltered p (releaseWorking t) :=
    { geometry := hrun.geometry
      dlen_eq := hrun.dlen_eq
      dlen_le := hrun.dlen_le
      image_le := hrun.image_le
      rows := by rw [hframe]; exact h.image.rows
      outside := by rw [hframe] at hout ⊢; exact hout }
  refine ⟨releaseWorking t, by rw [unitStep_rfr h.st h.unit, e, mapNext_next], by rw [hframe]; rfl, ?_⟩
  exact
    { st := by rw [hframe]; exact h.st
      unit := by rw [hframe]; exact h.unit
      undef := hrow.undef.trans h.undef
      image := himage
      row := by rw [hnext, h.row]
      row_le := hrun.row_le
      restored := by rw [hnext]; rw [hframe] at hrestored ⊢; exact hrestored
      height := by rw [hframe]; exact h.height }

/-- RFR's loop over the rows of a filtered image. -/
theorem restoreAt_rowLoop (p : Nat → Byte) (height : Nat) : RowLoop height (RestoreAt p height) where
  withEvents _ _ _ h := { h with image := { h.image with } }
  turn _ _ hr h := h.turn hr

/-- The turn after the last row completes (41_row_reconstruct.md R138). -/
theorem RestoreAt.turn_complete {p : Nat → Byte} {height : Nat} {s : State} (h : RestoreAt p height height s) :
    unitStep s = .next (releaseWorking (complete s)) := by
  rw [unitStep_rfr h.st h.unit, rfrStep_complete (h.row.trans h.height.symm), mapNext_next]

/-- From row `r`, a turn per row and one more end in the completion. -/
theorem RestoreAt.runSteps_complete {p : Nat → Byte} {height r : Nat} {s : State} {rest : List Event}
    (h : RestoreAt p height r s) (hle : r ≤ height) (hev : Turns (height - r + 1) rest s.events) :
    ∃ t, runSteps (height - r + 1) s = .next (releaseWorking (complete t)) ∧ t.events = rest ∧
      RestoreAt p height height t := by
  obtain ⟨t, e, hrest, ht⟩ := (restoreAt_rowLoop p height).runSteps_last_turn h hle hev
  exact ⟨t, e.trans ht.turn_complete, hrest, ht⟩

/-- After the last row all of RAW holds the image. -/
theorem RestoreAt.raw_eq {p : Nat → Byte} {height : Nat} {s : State} (h : RestoreAt p height height s) (a : Nat) :
    s.readByte .raw a = p a := by
  obtain ha | ha := Nat.lt_or_ge a s.imageBytes
  · refine h.restored a ?_
    rwa [h.row, ← h.height]
  · exact h.image.outside a ha

/-! ### The round trip -/

/-- FILTER leaves the image filtered, all of it when it began at row 0. -/
theorem FilterAt.imageFiltered {s₀ s : State} (h : FilterAt s₀ 0 s₀.height.toNat s) :
    ImageFiltered (s₀.readByte .raw) (releaseWorking (filterComplete s)) where
  geometry := h.run.geometry
  dlen_eq := filterComplete_dlen h.run
  dlen_le := (filterComplete_dlen h.run).trans_le h.run.buffer_le
  image_le := h.run.image_le
  rows q hq := h.rows q (Nat.zero_le q) (hq.trans_eq (congrArg BitVec.toNat h.height))
  outside a _ := h.raw a

/-- With a legal geometry WIDTH and PIXSZ are not 0. -/
theorem legalGeometry.ne_zero {s : State} (h : legalGeometry s) : s.width ≠ 0 ∧ s.pixsz ≠ 0 := by
  obtain ⟨hw, hp⟩ := h
  constructor <;> intro hz <;> simp [hz] at hw hp

/-- Writing FILTER to CMD in IDLE, with a legal geometry and room for the image, starts FSF (R150). -/
theorem step_filter_accepted {s : State} {rest : List Event} (hev : s.events = .regWrite 0 3 :: rest)
    (hst : s.st = .idle) (hg : legalGeometry s) (hbuffer : s.expectedLen ≤ s.cap .dbuf)
    (himage : s.imageBytes ≤ s.cap .raw) :
    ∃ t, step s = .next t ∧ t.events = rest ∧ FilterAt s 0 0 t := by
  obtain ⟨hw, hp⟩ := hg.ne_zero
  refine ⟨activate .fsf { s with events := rest, row := 0 }, ?_, rfl, ?_⟩
  · rw [step_command hev, show commandInstr 3 = .filter 0 by decide]
    exact exec_filter_accepted (s := { s with events := rest }) 0 hst hw hp hbuffer himage
  · exact ⟨rfl, rfl, ⟨hg, hbuffer, himage, Nat.zero_le _⟩, rfl, rfl, rfl, fun _ => rfl, nofun⟩

/-- Writing CLEAR to CMD after FILTER acknowledges it and keeps the filtered image (44_host_commands.md R199). -/
theorem step_clear_filtered {p : Nat → Byte} {s : State} {rest : List Event} (hev : s.events = .regWrite 0 5 :: rest)
    (hst : s.st = .done) (h : ImageFiltered p s) :
    ∃ t, step s = .next t ∧ t.events = rest ∧ t.st = .idle ∧ t.height = s.height ∧ ImageFiltered p t := by
  refine ⟨acknowledge { s with events := rest }, ?_, rfl, rfl, rfl, { h with }⟩
  rw [step_command hev, show commandInstr 5 = .clear 0 by decide]
  exact if_pos (.inl hst)

/-- RECON in IDLE, accepted. -/
theorem exec_recon_accepted {s : State} (ign : BitVec 24) (hst : s.st = .idle) (hw : s.width ≠ 0) (hp : s.pixsz ≠ 0)
    (hdlen : s.dlen.toNat ≤ s.cap .dbuf) (himage : s.imageBytes ≤ s.cap .raw) (hsize : s.dlen.toNat = s.expectedLen) :
    exec (.recon ign) s = .next (activate .rfr { s with row := 0 }) :=
  (whenIdle_idle hst _).trans (congrArg _ (startRecon_accepted hw hp hdlen himage hsize))

/-- Writing RECON to CMD in IDLE, with a filtered image in DBUF, starts RFR (41_row_reconstruct.md R130). -/
theorem step_recon_accepted {p : Nat → Byte} {s : State} {rest : List Event} (hev : s.events = .regWrite 0 2 :: rest)
    (hst : s.st = .idle) (h : ImageFiltered p s) :
    ∃ t, step s = .next t ∧ t.events = rest ∧ RestoreAt p s.height.toNat 0 t := by
  obtain ⟨hw, hp⟩ := h.geometry.ne_zero
  refine ⟨activate .rfr { s with events := rest, row := 0 }, ?_, rfl, ?_⟩
  · rw [step_command hev, show commandInstr 2 = .recon 0 by decide]
    exact exec_recon_accepted (s := { s with events := rest }) 0 hst hw hp h.dlen_le h.image_le h.dlen_eq
  · refine ⟨rfl, rfl, rfl, { h with }, rfl, Nat.zero_le _, fun a ha => ?_, rfl⟩
    simp [State.rawAddr] at ha

/-- FILTER, from its command to its completion, leaves the image filtered. -/
theorem runSteps_filter {s : State} {rest : List Event} (hst : s.st = .idle) (hg : legalGeometry s)
    (hbuffer : s.expectedLen ≤ s.cap .dbuf) (himage : s.imageBytes ≤ s.cap .raw)
    (hev : s.events = .regWrite 0 3 :: (List.replicate (s.height.toNat + 1) .unitStep ++ rest)) :
    ∃ t, runSteps (s.height.toNat + 2) s = .next t ∧ t.events = rest ∧ t.st = .done ∧ t.height = s.height ∧
      ImageFiltered (s.readByte .raw) t := by
  obtain ⟨u, hstart, hpending, hat⟩ := step_filter_accepted hev hst hg hbuffer himage
  obtain ⟨t, e, hrest, ht⟩ := hat.runSteps_complete (Nat.zero_le _) (by rw [hpending]; exact .slots rest)
  exact ⟨_, (runSteps_succ hstart _).trans e, hrest, rfl, ht.height, ht.imageFiltered⟩

/-- RECON of a filtered image, from its command to its completion, gives the image back. -/
theorem runSteps_recon {p : Nat → Byte} {s : State} {rest : List Event} (hst : s.st = .idle) (h : ImageFiltered p s)
    (hev : s.events = .regWrite 0 2 :: (List.replicate (s.height.toNat + 1) .unitStep ++ rest)) :
    ∃ t, runSteps (s.height.toNat + 2) s = .next t ∧ t.events = rest ∧ t.st = .done ∧ t.unit = .rfr ∧
      t.undef = false ∧ ∀ a, t.readByte .raw a = p a := by
  obtain ⟨u, hstart, hpending, hat⟩ := step_recon_accepted hev hst h
  obtain ⟨t, e, hrest, ht⟩ := hat.runSteps_complete (Nat.zero_le _) (by rw [hpending]; exact .slots rest)
  exact ⟨_, (runSteps_succ hstart _).trans e, hrest, rfl, ht.unit, ht.undef, ht.raw_eq⟩

/-- Settles O59: FILTER leaves the image filtered, CLEAR keeps it so, and RECON gives it back, row by row. -/
theorem filterReconRoundTrip : Obligations.FilterReconRoundTrip := by
  intro s hst hg hbuffer himage hev
  obtain ⟨u, hfilter, hevu, hdone, hheight, hfiltered⟩ := runSteps_filter hst hg hbuffer himage hev
  obtain ⟨v, hclear, hevv, hidle, hheight', hfiltered'⟩ := step_clear_filtered hevu hdone hfiltered
  rw [← hheight, ← hheight'] at hevv
  obtain ⟨t, hrecon, hend⟩ := runSteps_recon (rest := []) hidle hfiltered' (by rw [hevv, List.append_nil])
  rw [hheight', hheight] at hrecon
  refine ⟨t, ?_, hend⟩
  calc runSteps (2 * s.height.toNat + 5) s
      = runSteps (s.height.toNat + 2 + (s.height.toNat + 2 + 1)) s := by congr 1; omega
    _ = runSteps (s.height.toNat + 2 + 1) u := runSteps_add hfilter
    _ = runSteps (s.height.toNat + 2) v := runSteps_succ hclear _
    _ = .next t := hrecon

end Sys2Proof.Machine

/-! PROOFS. The packer family (43_token_packer.md): PACK's start (R180); the block PKBLK emits (R181) and the step that runs
it; the length of a run (R182, R183); and the round trip through DECODE (R184). -/

namespace Sys2Proof.Machine

/-! ### PACK's start, one lemma per answer (R180) -/

theorem startPack_capacity {s : State} (h : s.cap .dbuf < s.dlen.toNat ∨ s.cap .strm < packedLen s.dlen.toNat) :
    startPack s = raise .capacity 0 .tsp s := by
  rw [startPack, if_pos h]

theorem startPack_accepted {s : State} (hdlen : s.dlen.toNat ≤ s.cap .dbuf)
    (hstream : packedLen s.dlen.toNat ≤ s.cap .strm) :
    startPack s = activate .tsp { s with spos := 0, dpos := 0 } := by
  rw [startPack, if_neg (by omega)]

/-- PACK in IDLE, accepted. -/
theorem exec_pack_accepted {s : State} (ign : BitVec 24) (hst : s.st = .idle) (hdlen : s.dlen.toNat ≤ s.cap .dbuf)
    (hstream : packedLen s.dlen.toNat ≤ s.cap .strm) :
    exec (.pack ign) s = .next (activate .tsp { s with spos := 0, dpos := 0 }) :=
  (whenIdle_idle hst _).trans (congrArg _ (startPack_accepted hdlen hstream))

/-- Settles O41: the two answers of PACK's start, and the dropped command (44_host_commands.md R191). -/
theorem packStarts : Obligations.PackStarts := by
  intro ign s
  exact ⟨fun hst hdlen hstream => exec_pack_accepted ign hst hdlen hstream,
    fun hst hcap => (whenIdle_idle hst _).trans (congrArg _ (startPack_capacity hcap)),
    fun hst => whenIdle_other hst _⟩

/-! ### The block -/

/-- Settles O30: the active unit's turn is a TSP step, which is PKBLK. -/
theorem packStepRunsBlock : Obligations.PackStepRunsBlock := by
  intro s hev hst hu
  rw [step_unit hev, unitStep_tsp hst hu, tspStep]

/-- A block's bytes, as reads of the state it leaves. -/
theorem BlockDone.readByte_strm {len : Nat} {s t : State} (h : BlockDone len s t) (a : Nat) :
    t.readByte .strm a = readIn s.epoch .strm t.strm a := by
  have hepoch : t.epoch = s.epoch := by rw [h.frame]
  rw [readByte_eq, mem_strm, hepoch]

/-- Settles O29: while TSP runs, PKBLK succeeds, and what it leaves is `BlockDone`. -/
theorem packerBlockEmitted : Obligations.PackerBlockEmitted := by
  intro s hrun hne len total
  obtain ⟨t, e, hdone⟩ := tspStep_next hrun hne
  have htotal : s.spos.toNat + total = s.spos.toNat + 1 + blockBytes s + packRunCount (blockBytes s) := by
    show s.spos.toNat + (1 + (blockBytes s + packRunCount (blockBytes s))) = _
    omega
  refine ⟨t, e, hdone.frame, hdone.dpos, hdone.spos.trans htotal.symm, ?_, fun j hj => ⟨?_, fun i hi => ?_⟩,
    fun a ha => ?_⟩ <;> rw [hdone.readByte_strm]
  · exact hdone.control
  · exact hdone.lengths j hj
  · rw [show s.spos.toNat + 2 + 256 * j + i = s.spos.toNat + 1 + 256 * j + 1 + i by omega]
    exact hdone.bytes j i hj hi
  · exact hdone.outside a (by rwa [htotal] at ha)

/-! ### The packed stream -/

theorem lt_packBlockCount_iff {b n : Nat} : b < packBlockCount n ↔ 2040 * b < n := by
  unfold packBlockCount packRunCount
  omega

theorem lt_packRunCount_iff {q n : Nat} : q < packRunCount n ↔ 255 * q < n := by
  unfold packRunCount
  omega

/-- Where block `c` begins, with its control byte: every block before it is a full one, of eight runs of 255 bytes. -/
def blockAddr (c : Nat) : Nat := 2049 * c

/-- Where run `q` of the stream begins, with its length byte: `q` full runs and `q / 8 + 1` control bytes precede it. -/
def runAddr (q : Nat) : Nat := 256 * q + q / 8 + 1

/-- The stream of `c` full blocks ends where block `c` begins. -/
theorem packedLen_blocks (c : Nat) : packedLen (2040 * c) = blockAddr c := by
  unfold packedLen packBlockCount packRunCount blockAddr
  omega

/-- Run `j` of block `c`, behind the block's control byte (R181). -/
theorem runAddr_block (c : Nat) {j : Nat} (hj : j < 8) : runAddr (8 * c + j) = blockAddr c + 1 + 256 * j := by
  unfold runAddr blockAddr
  omega

/-- The stream of `q` full runs ends where run `q` begins, but for the control byte of run `q`'s block if that is due. -/
theorem packedLen_runs_first {q : Nat} (h : q % 8 = 0) :
    packedLen (255 * q) = blockAddr (q / 8) ∧ runAddr q = blockAddr (q / 8) + 1 := by
  unfold packedLen packBlockCount packRunCount blockAddr runAddr
  omega

theorem packedLen_runs_later {q : Nat} (h : q % 8 ≠ 0) : packedLen (255 * q) = runAddr q := by
  unfold packedLen packBlockCount packRunCount runAddr
  omega

/-- The length of run `q` of `len` bytes: the longest allowed (R181). -/
def runBytes (len q : Nat) : Nat := min 255 (len - 255 * q)

/-- Run `q` ends where the stream of the bytes up to the run's last one ends, and not beyond the whole stream. -/
theorem runAddr_end {len q : Nat} (h : 255 * q < len) :
    runAddr q + 1 + runBytes len q = packedLen (255 * q + runBytes len q) ∧
      packedLen (255 * q + runBytes len q) ≤ packedLen len := by
  unfold runAddr runBytes packedLen packBlockCount packRunCount
  omega

/-- Run `q` of the `len` bytes `p` stands in the stream with bytes `b`: its length byte, then its bytes (R181). -/
structure RunPacked (p : Nat → Byte) (len : Nat) (b : Nat → Byte) (q : Nat) : Prop where
  length : (b (runAddr q)).toNat = runBytes len q
  bytes : ∀ i, i < runBytes len q → b (runAddr q + 1 + i) = p (255 * q + i)

/-- Block `c` of the `len` bytes `p` stands in the stream with bytes `b`: eight literal dispatch bits, then the runs. -/
structure BlockPacked (p : Nat → Byte) (len : Nat) (b : Nat → Byte) (c : Nat) : Prop where
  control : b (blockAddr c) = 0x00#8
  runs : ∀ j, j < 8 → 255 * (8 * c + j) < len → RunPacked p len b (8 * c + j)

/-- Only the bytes before the next block count. -/
theorem BlockPacked.congr {p b b' : Nat → Byte} {len c : Nat} (h : BlockPacked p len b c)
    (hb : ∀ a, a < blockAddr (c + 1) → b' a = b a) : BlockPacked p len b' c := by
  have hnext : blockAddr (c + 1) = blockAddr c + 2049 := by unfold blockAddr; omega
  refine ⟨(hb _ (by omega)).trans h.control, fun j hj hlen => ?_⟩
  obtain ⟨hlength, hbytes⟩ := h.runs j hj hlen
  have haddr := runAddr_block c hj
  refine ⟨?_, fun i hi => ?_⟩
  · rwa [hb _ (by omega)]
  · have hi' : i < 255 := hi.trans_le (Nat.min_le_left _ _)
    rw [hb _ (by omega), hbytes i hi]

/-- PKBLK at block `c` leaves the block packed. -/
theorem BlockDone.blockPacked {s t : State} {c : Nat} (h : BlockDone (blockBytes s) s t)
    (hdpos : s.dpos.toNat = 2040 * c) (hspos : s.spos.toNat = blockAddr c) :
    BlockPacked (s.readByte .dbuf) s.dlen.toNat (t.readByte .strm) c := by
  have hb : blockBytes s = min 2040 (s.dlen.toNat - s.dpos.toNat) := rfl
  refine ⟨?_, fun j hj hlen => ?_⟩
  · rw [← hspos, h.readByte_strm]
    exact h.control
  have hrun : min 255 (blockBytes s - 255 * j) = runBytes s.dlen.toNat (8 * c + j) := by
    unfold runBytes
    omega
  have hlength := h.lengths j (by omega)
  have hbytes := fun i => h.bytes j i (by omega)
  rw [hrun, hspos, ← runAddr_block c hj] at hlength
  rw [hrun, hspos, ← runAddr_block c hj] at hbytes
  refine ⟨?_, fun i hi => ?_⟩
  · rw [h.readByte_strm]
    exact hlength
  · rw [h.readByte_strm, hbytes i hi]
    congr 1
    omega

/-! ### The length of a run -/

/-- The boundary before block `b` of a PACK of the buffer in `s₀`: the blocks from `first` to `b - 1` stand packed, and
DBUF is as it was. -/
structure PackAt (s₀ : State) (first b : Nat) (s : State) : Prop where
  st : s.st = .busy
  unit : s.unit = .tsp
  run : TspRun s
  dlen : s.dlen = s₀.dlen
  dpos : s.dpos.toNat = min (2040 * b) s₀.dlen.toNat
  dbuf : ∀ a, s.readByte .dbuf a = s₀.readByte .dbuf a
  blocks : ∀ c, first ≤ c → c < b → BlockPacked (s₀.readByte .dbuf) s₀.dlen.toNat (s.readByte .strm) c

/-- A block's turn ends at the next block's boundary (R181). -/
theorem PackAt.turn {s₀ s : State} {first b : Nat} (h : PackAt s₀ first b s) (hb : b < packBlockCount s₀.dlen.toNat) :
    ∃ t, unitStep s = .next t ∧ t.events = s.events ∧ PackAt s₀ first (b + 1) t := by
  have hlt := lt_packBlockCount_iff.1 hb
  have hdlen : s.dlen.toNat = s₀.dlen.toNat := congrArg _ h.dlen
  have hdpos : s.dpos.toNat = 2040 * b := by rw [h.dpos]; omega
  have hspos : s.spos.toNat = blockAddr b := by rw [h.run.spos_eq, hdpos, packedLen_blocks]
  have hne : s.dpos ≠ s.dlen := fun e => by rw [e] at hdpos; omega
  have hbytes : blockBytes s = min 2040 (s.dlen.toNat - s.dpos.toNat) := rfl
  obtain ⟨t, e, hdone⟩ := tspStep_next h.run hne
  obtain ⟨_, _, _, hkept⟩ := hdone.footprint h.run hne
  have hrun := tspRun_block h.run hne hdone
  have hnew := hdone.blockPacked hdpos hspos
  rw [funext h.dbuf, hdlen] at hnew
  have hblocks : ∀ c, first ≤ c → c < b + 1 →
      BlockPacked (s₀.readByte .dbuf) s₀.dlen.toNat (t.readByte .strm) c := fun c h1 h2 => by
    obtain hc | rfl := Nat.lt_succ_iff_lt_or_eq.1 h2
    · refine (h.blocks c h1 hc).congr fun a ha => hkept a (.inl ?_)
      unfold blockAddr at ha hspos
      omega
    · exact hnew
  have hframe := hdone.frame
  refine ⟨releaseWorking t, by rw [unitStep_tsp h.st h.unit, e, mapNext_next], by rw [hframe]; rfl, ?_⟩
  exact
    { st := by rw [hframe]; exact h.st
      unit := by rw [hframe]; exact h.unit
      run := hrun
      dlen := by rw [hframe]; exact h.dlen
      dpos := hdone.dpos.trans (by omega)
      dbuf := by rw [hframe]; exact h.dbuf
      blocks := hblocks }

/-- TSP's loop, a block at a turn. -/
theorem packAt_blockLoop (s₀ : State) (first : Nat) : RowLoop (packBlockCount s₀.dlen.toNat) (PackAt s₀ first) where
  withEvents _ _ _ h := { h with run := { h.run with } }
  turn _ _ hb h := h.turn hb

/-- After the last block DPOS has reached DLEN. -/
theorem PackAt.dpos_end {s₀ s : State} {first : Nat} (h : PackAt s₀ first (packBlockCount s₀.dlen.toNat) s) :
    s.dpos = s.dlen := by
  have hend : ¬ 2040 * packBlockCount s₀.dlen.toNat < s₀.dlen.toNat := fun hlt =>
    Nat.lt_irrefl _ (lt_packBlockCount_iff.2 hlt)
  apply BitVec.eq_of_toNat_eq
  rw [h.dpos, h.dlen]
  omega

/-- The turn after the last block completes (R182). -/
theorem PackAt.turn_complete {s₀ s : State} {first : Nat} (h : PackAt s₀ first (packBlockCount s₀.dlen.toNat) s) :
    unitStep s = .next (releaseWorking (packComplete s)) := by
  rw [unitStep_tsp h.st h.unit, tspStep_complete h.dpos_end, mapNext_next]

/-- From block `b`, a turn per block and one more end in the completion. -/
theorem PackAt.runSteps_complete {s₀ s : State} {first b : Nat} {rest : List Event} (h : PackAt s₀ first b s)
    (hle : b ≤ packBlockCount s₀.dlen.toNat) (hev : Turns (packBlockCount s₀.dlen.toNat - b + 1) rest s.events) :
    ∃ t, runSteps (packBlockCount s₀.dlen.toNat - b + 1) s = .next (releaseWorking (packComplete t)) ∧ t.events = rest ∧
      PackAt s₀ first (packBlockCount s₀.dlen.toNat) t := by
  obtain ⟨t, e, hrest, ht⟩ := (packAt_blockLoop s₀ first).runSteps_last_turn h hle hev
  exact ⟨t, e.trans ht.turn_complete, hrest, ht⟩

/-- SLEN is the length computed at the start (R182, R183). -/
theorem PackAt.packComplete_slen {s₀ s : State} {first : Nat} (h : PackAt s₀ first (packBlockCount s₀.dlen.toNat) s) :
    (packComplete s).slen.toNat = packedLen s₀.dlen.toNat := by
  show s.spos.toNat = _
  rw [h.run.spos_eq, h.dpos_end, h.dlen]

/-- A running PACK stands at the boundary after the blocks of the bytes it has consumed, all of them full unless DPOS has
reached DLEN; the blocks left are those of the bytes left. -/
theorem TspRun.packAt {s : State} (hst : s.st = .busy) (hu : s.unit = .tsp) (h : TspRun s) :
    PackAt s (packBlockCount s.dpos.toNat) (packBlockCount s.dpos.toNat) s ∧
      packBlockCount s.dpos.toNat ≤ packBlockCount s.dlen.toNat ∧
      packBlockCount (s.dlen.toNat - s.dpos.toNat) = packBlockCount s.dlen.toNat - packBlockCount s.dpos.toNat := by
  have hle := h.dpos_le
  have hfull := h.full_blocks
  unfold packBlockCount packRunCount
  refine ⟨⟨hst, hu, h, rfl, by omega, fun _ => rfl, fun c h1 h2 => by omega⟩, by omega, by omega⟩

/-- Settles O35: a turn per block, then the completion. -/
theorem packTerminates : Obligations.PackTerminates := by
  intro s hev hst hu hrun
  obtain ⟨hat, hle, hleft⟩ := hrun.packAt hst hu
  have hturns : ∀ n, Turns n [] s.events := fun n => by rw [hev]; exact .alone
  rw [hleft]
  refine ⟨fun j hj => ?_, ?_⟩
  · obtain ⟨t, e, _, ht⟩ := (packAt_blockLoop s _).runSteps_rows hat (j := j) (by omega) (hturns (j + 0))
    exact ⟨t, e, ht.st⟩
  · obtain ⟨t, e, _, ht⟩ := hat.runSteps_complete hle (hturns _)
    have hend : t.dpos = s.dlen := ht.dpos_end.trans ht.dlen
    exact ⟨_, e, rfl, congrArg _ hend, rfl, ht.packComplete_slen⟩

/-! ### DECODE on a packed stream -/

/-- STRM holds the buffer `p` packed, in the length SLEN says, and DBUF holds `p`. -/
structure BufferPacked (p : Nat → Byte) (s : State) : Prop where
  dlen_le : s.dlen.toNat ≤ s.cap .dbuf
  slen_le : s.slen.toNat ≤ s.cap .strm
  slen_eq : s.slen.toNat = packedLen s.dlen.toNat
  dbuf : ∀ a, s.readByte .dbuf a = p a
  blocks : ∀ c, 2040 * c < s.dlen.toNat → BlockPacked p s.dlen.toNat (s.readByte .strm) c

theorem BufferPacked.run {p : Nat → Byte} {s : State} (h : BufferPacked p s) {q : Nat} (hq : 255 * q < s.dlen.toNat) :
    RunPacked p s.dlen.toNat (s.readByte .strm) q := by
  have hrun := (h.blocks (q / 8) (by omega)).runs (q % 8) (Nat.mod_lt _ (by decide))
  rw [Nat.div_add_mod] at hrun
  exact hrun hq

/-- Several bytes, one of them. -/
theorem getD_readBytes {s : State} {x : MemId} {a n j : Nat} (hj : j < n) (d : Byte) :
    (s.readBytes x a n).getD j d = s.readByte x (a + j) := by
  induction n generalizing a j with
  | zero => omega
  | succ n ih =>
    cases j with
    | zero => rfl
    | succ j =>
      rw [State.readBytes, List.getD_cons_succ, ih (by omega)]
      congr 1
      omega

/-- The token at SPOS where the dispatch bit selects a literal run: its length byte stands at SPOS, and its bytes within the
stream (40_token_decompressor.md R104). -/
theorem fetchItem_literal {s : State} {n : Nat} (hn : (s.readByte .strm s.spos.toNat).toNat = n)
    (hle : s.spos.toNat + 1 + n ≤ s.slen.toNat) :
    ∃ data, fetchItem (.token false) s = some (.lit data) ∧ data.length = n ∧
      ∀ j, j < n → data.getD j 0#8 = s.readByte .strm (s.spos.toNat + 1 + j) := by
  refine ⟨s.readBytes .strm (s.spos.toNat + 1) n, ?_, length_readBytes _ _ _ _, fun j hj => getD_readBytes hj _⟩
  obtain ⟨m, hm⟩ : ∃ m, s.slen.toNat - s.spos.toNat = m + 1 := ⟨s.slen.toNat - s.spos.toNat - 1, by omega⟩
  have hnm : n ≤ m := by omega
  refine fetchItem_token_some (rest := (s.readBytes .strm (s.spos.toNat + 1) m).drop n) ?_
  simp only [hm, State.readBytes, decode, decodeLit, hn, length_readBytes, take_readBytes]
  rw [if_neg (by omega), Nat.min_eq_left hnm]

/-- The boundary before token `q` of a DECODE of the packed buffer `p`, of `runs` runs. CTL holds what `q` dispatch bits
leave of the blocks' control bytes; before the first token it is as if a block had just ended. -/
structure UnpackAt (p : Nat → Byte) (runs q : Nat) (s : State) : Prop where
  st : s.st = .busy
  unit : s.unit = .tsd
  packed : BufferPacked p s
  runs : packRunCount s.dlen.toNat = runs
  ctl : s.ctl = shiftCtl^[(q + 7) % 8] (reloadCtl 0x00#8)
  dpos : s.dpos.toNat = min (255 * q) s.dlen.toNat
  spos : s.spos.toNat = packedLen s.dpos.toNat

/-- The state after the fetch of token `q`'s dispatch bit: SPOS stands at the run. -/
structure AtRun (q : Nat) (s u : State) : Prop where
  frame : u = { s with ctl := u.ctl, spos := u.spos }
  ctl : u.ctl = shiftCtl^[q % 8] (reloadCtl 0x00#8)
  spos : u.spos.toNat = runAddr q

/-- A control byte stands exactly where one is due: before every eighth run (40_token_decompressor.md R102). -/
theorem UnpackAt.fetchDispatch_next {p : Nat → Byte} {runs q : Nat} {s : State} (h : UnpackAt p runs q s)
    (hq : 255 * q < s.dlen.toNat) : ∃ u, fetchDispatch s = .next u ∧ AtRun q s u := by
  have hdpos : s.dpos.toNat = 255 * q := by rw [h.dpos]; omega
  have hspos := h.spos
  rw [hdpos] at hspos
  obtain ⟨hbits, hlast⟩ := dispatchBitsInOrder 0x00#8 (q % 8)
  have hshift : shiftCtl s.ctl = shiftCtl^[(q + 7) % 8 + 1] (reloadCtl 0x00#8) := by
    rw [Function.iterate_succ_apply', ← h.ctl]
  by_cases hfirst : q % 8 = 0
  · obtain ⟨hblock, hrun⟩ := packedLen_runs_first hfirst
    have hctl : s.ctl.toNat / 2 = 1 := by
      rw [← exhausted_shift_iff, hshift, show (q + 7) % 8 + 1 = 8 by omega]
      exact hlast
    obtain ⟨hend, hle⟩ := runAddr_end hq
    have hlt : s.spos.toNat < s.slen.toNat := by rw [h.packed.slen_eq]; omega
    have hcontrol := (h.packed.blocks (q / 8) (by omega)).control
    rw [← hblock, ← hspos] at hcontrol
    refine ⟨_, fetchDispatch_reload hctl hlt, rfl, ?_, (toNat_ofNat_of_le s.slen hlt).trans (by omega)⟩
    rw [hcontrol, hfirst]
    rfl
  · have hk : (q + 7) % 8 + 1 = q % 8 := by omega
    rw [hk] at hshift
    have hctl : s.ctl.toNat / 2 ≠ 1 := by
      rw [Ne, ← exhausted_shift_iff, hshift, (hbits (by omega)).2]
      exact Bool.false_ne_true
    exact ⟨_, fetchDispatch_shift hctl, rfl, hshift, hspos.trans (packedLen_runs_later hfirst)⟩

/-- Every dispatch bit of a packed stream is 0: it selects a literal run (30_encoding.md R72). -/
theorem AtRun.dispatchBit_eq {q : Nat} {s u : State} (h : AtRun q s u) : dispatchBit u.ctl = false := by
  obtain ⟨hbits, _⟩ := dispatchBitsInOrder 0x00#8 (q % 8)
  rw [h.ctl, (hbits (Nat.mod_lt _ (by decide))).1]
  exact BitVec.getLsbD_zero

/-- What run `q` of a packed stream leaves when its token has been taken. -/
structure RunTaken (p : Nat → Byte) (q : Nat) (u t : State) : Prop where
  frame : t = { u with n := t.n, i := t.i, dbuf := t.dbuf, spos := t.spos, dpos := t.dpos }
  dpos : t.dpos.toNat = min (255 * (q + 1)) u.dlen.toNat
  spos : t.spos.toNat = packedLen t.dpos.toNat
  dbuf : ∀ a, t.readByte .dbuf a = p a

/-- The token of run `q` copies the run back over itself (40_token_decompressor.md R104). -/
theorem BufferPacked.runItem_next {p : Nat → Byte} {q : Nat} {u : State} (h : BufferPacked p u)
    (hq : 255 * q < u.dlen.toNat) (hspos : u.spos.toNat = runAddr q) (hdpos : u.dpos.toNat = 255 * q) :
    ∃ t, runItem (.token false) u = .next t ∧ RunTaken p q u t := by
  obtain ⟨hlength, hbytes⟩ := h.run hq
  obtain ⟨hend, hle⟩ := runAddr_end hq
  have hn : runBytes u.dlen.toNat q = min 255 (u.dlen.toNat - 255 * q) := rfl
  rw [← hspos] at hlength hbytes hend
  have hroom : u.spos.toNat + 1 + runBytes u.dlen.toNat q ≤ u.slen.toNat := by rw [h.slen_eq, hend]; exact hle
  obtain ⟨data, hitem, hlen, hdata⟩ := fetchItem_literal hlength hroom
  rw [← hlen] at hn hbytes hdata hroom hend
  have hnext : u.dpos.toNat + data.length = min (255 * (q + 1)) u.dlen.toNat := by omega
  obtain ⟨_, _, htaken⟩ := literalRun data u (by omega) h.dlen_le
  obtain ⟨t, e, hframe, _, htspos, htdpos, hinside, houtside⟩ := htaken hroom (by omega)
  refine ⟨t, by rw [runItem, hitem]; exact e, hframe, htdpos.trans hnext, ?_, fun a => ?_⟩
  · rw [htspos, htdpos, hdpos, hend]
  · by_cases ha : a < u.dpos.toNat ∨ u.dpos.toNat + data.length ≤ a
    · rw [houtside a ha, h.dbuf]
    · obtain ⟨j, rfl⟩ : ∃ j, a = u.dpos.toNat + j := ⟨a - u.dpos.toNat, by omega⟩
      have hj : j < data.length := by omega
      rw [hinside j hj, hdata j hj, hbytes j hj, hdpos]

/-- A token's turn ends at the next token's boundary (R184). -/
theorem UnpackAt.turn {p : Nat → Byte} {runs q : Nat} {s : State} (h : UnpackAt p runs q s) (hq : q < runs) :
    ∃ t, unitStep s = .next t ∧ t.events = s.events ∧ UnpackAt p runs (q + 1) t := by
  have hlt : 255 * q < s.dlen.toNat := by rwa [← h.runs, lt_packRunCount_iff] at hq
  have hdpos : s.dpos.toNat = 255 * q := by rw [h.dpos]; omega
  have hne : s.dpos ≠ s.dlen := fun e => by rw [e] at hdpos; omega
  obtain ⟨u, hu, hat⟩ := h.fetchDispatch_next hlt
  have huframe := hat.frame
  have hust : u.st = .busy := by rw [huframe]; exact h.st
  have hpacked : BufferPacked p u := by rw [huframe]; exact { h.packed with }
  obtain ⟨t, e, ht⟩ := hpacked.runItem_next (by rw [huframe]; exact hlt) hat.spos (by rw [huframe]; exact hdpos)
  have hframe := ht.frame
  have htst : t.st = .busy := by rw [hframe]; exact hust
  have hstep : tsdStep s = .next t := by
    rw [tsdStep_dispatched hne h.packed.slen_le hu (by simp [hust]), hat.dispatchBit_eq, e,
      preciseFault_next (by simp [htst])]
  have htpacked : BufferPacked p (releaseWorking t) := by
    have hdbuf := ht.dbuf
    rw [hframe] at hdbuf ⊢
    exact { hpacked with dbuf := hdbuf }
  refine ⟨releaseWorking t, by rw [unitStep_tsd h.st h.unit, hstep, mapNext_next], ?_, ?_⟩
  · rw [hframe, huframe]; rfl
  exact
    { st := htst
      unit := by rw [hframe, huframe]; exact h.unit
      packed := htpacked
      runs := by rw [hframe, huframe]; exact h.runs
      ctl := by rw [hframe, show q + 1 + 7 = q + 8 by omega, Nat.add_mod_right]; exact hat.ctl
      dpos := ht.dpos.trans (by rw [hframe]; rfl)
      spos := ht.spos }

/-- TSD's loop over a packed stream, a token at a turn. -/
theorem unpackAt_tokenLoop (p : Nat → Byte) (runs : Nat) : RowLoop runs (UnpackAt p runs) where
  withEvents _ _ _ h := { h with packed := { h.packed with } }
  turn _ _ hq h := h.turn hq

/-- After the last token DPOS has reached DLEN. -/
theorem UnpackAt.dpos_end {p : Nat → Byte} {runs : Nat} {s : State} (h : UnpackAt p runs runs s) : s.dpos = s.dlen := by
  have hend : ¬ 255 * runs < s.dlen.toNat := fun hlt => by
    rw [← lt_packRunCount_iff, h.runs] at hlt
    omega
  apply BitVec.eq_of_toNat_eq
  rw [h.dpos]
  omega

/-- The turn after the last token completes (40_token_decompressor.md R109). -/
theorem UnpackAt.turn_complete {p : Nat → Byte} {runs : Nat} {s : State} (h : UnpackAt p runs runs s) :
    unitStep s = .next (releaseWorking (complete s)) := by
  rw [unitStep_tsd h.st h.unit, tsdStep_complete h.dpos_end, mapNext_next]

/-- After the last token nothing of the stream is left over. -/
theorem UnpackAt.spos_end {p : Nat → Byte} {runs : Nat} {s : State} (h : UnpackAt p runs runs s) : s.spos = s.slen := by
  apply BitVec.eq_of_toNat_eq
  rw [h.spos, h.dpos_end, h.packed.slen_eq]

/-! ### The round trip -/

/-- PACK leaves the buffer packed, all of it when it began at the first block. -/
theorem PackAt.bufferPacked {s₀ s : State} (h : PackAt s₀ 0 (packBlockCount s₀.dlen.toNat) s) :
    BufferPacked (s₀.readByte .dbuf) (releaseWorking (packComplete s)) where
  dlen_le := h.run.dlen_le
  slen_le := by
    show s.spos.toNat ≤ s.cap .strm
    rw [h.run.spos_eq, h.dpos_end]
    exact h.run.stream_le
  slen_eq := h.packComplete_slen.trans (by rw [← h.dlen]; rfl)
  dbuf := h.dbuf
  blocks c hc := by
    have hc' : 2040 * c < s₀.dlen.toNat := by rw [← h.dlen]; exact hc
    have hblock := h.blocks c (Nat.zero_le c) (lt_packBlockCount_iff.2 hc')
    rw [← h.dlen] at hblock
    exact hblock

/-- Writing PACK to CMD in IDLE, with room for the buffer and its stream, starts TSP (R180). -/
theorem step_pack_accepted {s : State} {rest : List Event} (hev : s.events = .regWrite 0 4 :: rest) (hst : s.st = .idle)
    (hdlen : s.dlen.toNat ≤ s.cap .dbuf) (hstream : packedLen s.dlen.toNat ≤ s.cap .strm) :
    ∃ t, step s = .next t ∧ t.events = rest ∧ PackAt s 0 0 t := by
  refine ⟨activate .tsp { s with events := rest, spos := 0, dpos := 0 }, ?_, rfl, ?_⟩
  · rw [step_command hev, show commandInstr 4 = .pack 0 by decide]
    exact exec_pack_accepted (s := { s with events := rest }) 0 hst hdlen hstream
  · have hempty : (0#32).toNat = packedLen (0#32).toNat := by decide
    exact ⟨rfl, rfl, ⟨hdlen, hstream, Nat.zero_le _, hempty, .inl rfl⟩, rfl, (Nat.zero_min _).symm, fun _ => rfl, nofun⟩

/-- PACK, from its command to its completion, leaves the buffer packed. -/
theorem runSteps_pack {s : State} {rest : List Event} (hst : s.st = .idle) (hdlen : s.dlen.toNat ≤ s.cap .dbuf)
    (hstream : packedLen s.dlen.toNat ≤ s.cap .strm)
    (hev : s.events = .regWrite 0 4 :: (List.replicate (packBlockCount s.dlen.toNat + 1) .unitStep ++ rest)) :
    ∃ t, runSteps (packBlockCount s.dlen.toNat + 2) s = .next t ∧ t.events = rest ∧ t.st = .done ∧ t.dlen = s.dlen ∧
      BufferPacked (s.readByte .dbuf) t := by
  obtain ⟨u, hstart, hpending, hat⟩ := step_pack_accepted hev hst hdlen hstream
  obtain ⟨t, e, hrest, ht⟩ := hat.runSteps_complete (Nat.zero_le _) (by rw [hpending]; exact .slots rest)
  exact ⟨_, (runSteps_succ hstart _).trans e, hrest, rfl, ht.dlen, ht.bufferPacked⟩

/-- Writing CLEAR to CMD after PACK acknowledges it and keeps the packed buffer (44_host_commands.md R199). -/
theorem step_clear_packed {p : Nat → Byte} {s : State} {rest : List Event} (hev : s.events = .regWrite 0 5 :: rest)
    (hst : s.st = .done) (h : BufferPacked p s) :
    ∃ t, step s = .next t ∧ t.events = rest ∧ t.st = .idle ∧ t.dlen = s.dlen ∧ BufferPacked p t := by
  refine ⟨acknowledge { s with events := rest }, ?_, rfl, rfl, rfl, { h with }⟩
  rw [step_command hev, show commandInstr 5 = .clear 0 by decide]
  exact if_pos (.inl hst)

/-- Writing DECODE to CMD in IDLE, with a packed buffer, starts TSD (40_token_decompressor.md R100). -/
theorem step_decode_accepted {p : Nat → Byte} {s : State} {rest : List Event} (hev : s.events = .regWrite 0 1 :: rest)
    (hst : s.st = .idle) (h : BufferPacked p s) :
    ∃ t, step s = .next t ∧ t.events = rest ∧ UnpackAt p (packRunCount s.dlen.toNat) 0 t := by
  refine ⟨activate .tsd { s with events := rest, spos := 0, dpos := 0, ctl := 2 }, ?_, rfl, ?_⟩
  · obtain ⟨hstart, _, _⟩ := decodeStarts 0 { s with events := rest }
    rw [step_command hev, show commandInstr 1 = .decode 0 by decide]
    exact hstart hst h.slen_le h.dlen_le
  · have hempty : (0#32).toNat = packedLen (0#32).toNat := by decide
    have hctl : (2 : BitVec 9) = shiftCtl^[(0 + 7) % 8] (reloadCtl 0x00#8) := by decide
    exact ⟨rfl, rfl, { h with }, rfl, hctl, (Nat.zero_min _).symm, hempty⟩

/-- DECODE of a packed buffer, from its command to its completion, gives the buffer back. -/
theorem runSteps_decode {p : Nat → Byte} {s : State} {rest : List Event} (hst : s.st = .idle) (h : BufferPacked p s)
    (hev : s.events = .regWrite 0 1 :: (List.replicate (packRunCount s.dlen.toNat + 1) .unitStep ++ rest)) :
    ∃ t, runSteps (packRunCount s.dlen.toNat + 2) s = .next t ∧ t.events = rest ∧ t.st = .done ∧ t.unit = .tsd ∧
      t.spos = t.slen ∧ ∀ a, t.readByte .dbuf a = p a := by
  obtain ⟨u, hstart, hpending, hat⟩ := step_decode_accepted hev hst h
  obtain ⟨t, e, hrest, ht⟩ := (unpackAt_tokenLoop p _).runSteps_last_turn (rest := rest) hat (Nat.zero_le _)
    (by rw [hpending]; exact .slots rest)
  exact ⟨_, (runSteps_succ hstart _).trans (e.trans ht.turn_complete), hrest, rfl, ht.unit, ht.spos_end, ht.packed.dbuf⟩

/-- Settles O60: PACK leaves the buffer packed, CLEAR keeps it so, and DECODE copies it back over itself, run by run. -/
theorem packDecodeRoundTrip : Obligations.PackDecodeRoundTrip := by
  intro s hst hdlen hstream hev
  obtain ⟨u, hpack, hevu, hdone, hlen, hpacked⟩ := runSteps_pack hst hdlen hstream hev
  obtain ⟨v, hclear, hevv, hidle, hlen', hpacked'⟩ := step_clear_packed hevu hdone hpacked
  rw [← hlen, ← hlen'] at hevv
  obtain ⟨t, hdecode, hend⟩ := runSteps_decode (rest := []) hidle hpacked' (by rw [hevv, List.append_nil])
  rw [hlen', hlen] at hdecode
  refine ⟨t, ?_, hend⟩
  calc runSteps (packBlockCount s.dlen.toNat + packRunCount s.dlen.toNat + 5) s
      = runSteps (packBlockCount s.dlen.toNat + 2 + (packRunCount s.dlen.toNat + 2 + 1)) s := by congr 1; omega
    _ = runSteps (packRunCount s.dlen.toNat + 2 + 1) u := runSteps_add hpack
    _ = runSteps (packRunCount s.dlen.toNat + 2) v := runSteps_succ hclear _
    _ = .next t := hdecode

end Sys2Proof.Machine

/-! PROOFS. The host commands (44_host_commands.md): NOP, CLEAR and the illegal codes (R193, R199, R200); what a step takes
(R190, R197); the transactions of the host while a unit is active (R192) and that they leave the command's outcome alone
(R197); the transitions of STATE (R191). -/

namespace Sys2Proof.Machine

/-! ### Commands -/

/-- Settles O37: NOP's meaning is the state itself, and a word of code 0 is a NOP. -/
theorem nopHasNoEffect : Obligations.NopHasNoEffect := by
  refine ⟨fun _ _ => rfl, fun w s h => ?_⟩
  rw [commandInstr_of_code (commandInstr_nop _) h]
  rfl

theorem execClear_acknowledges (ign : BitVec 24) {s : State} (h : s.st = .done ∨ s.st = .fault) :
    execClear ign s = .next (acknowledge s) := by
  rw [execClear, if_pos h]

theorem execClear_ignored (ign : BitVec 24) {s : State} (h : s.st = .idle ∨ s.st = .busy) :
    execClear ign s = .next s := by
  rw [execClear, if_neg]
  obtain h | h := h <;> simp [h]

/-- The interrupt output is low in IDLE (60_exceptions.md R218). -/
theorem irq_of_idle {s : State} (h : s.st = .idle) : s.irq = false := by simp [State.irq, h]

/-- Settles O42: in DONE and FAULT CLEAR is `acknowledge`, after which the block is in IDLE. -/
theorem clearAcknowledges : Obligations.ClearAcknowledges := by
  intro ign s
  refine ⟨fun w hw => ?_, fun h => ⟨acknowledge s, execClear_acknowledges ign h, irq_of_idle rfl, rfl⟩,
    execClear_ignored ign⟩
  rw [commandInstr_of_code (commandInstr_clear _) hw]
  rfl

/-- Settles O43: the code and the ignored bits of an illegal command give back the value written, which is FINFO. -/
theorem illegalCommandFaults : Obligations.IllegalCommandFaults := by
  intro w s h
  have hcode := commandCode_toNat w
  refine ⟨_, _, commandInstr_of_code (commandInstr_illegalCmd (hcode ▸ h) _) hcode.symm, fun hs => ?_,
    fun hs => whenIdle_other hs _⟩
  refine (whenIdle_idle hs _).trans ?_
  rw [commandWord_fields]
  rfl

/-! ### What a step takes -/

/-- The bytes of a value decode to the command the value is (log 16). -/
theorem decode_command_wordBytes (w : Word32) : decode .command (wordBytes w) = .ok (commandInstr w, []) :=
  decodeCommand_of_commandInstr rfl []

/-- Settles O44: by the list of pending events; a write to CMD is `step_command`. -/
theorem stepRunsEventOrCommand : Obligations.StepRunsEventOrCommand := by
  intro s rest
  refine ⟨fun _ he => step_event he, step_unit, step_event, fun he hs => ?_, fun v i he hi => ?_⟩
  · rw [step_unit he, unitStep_inactive hs]
  · rw [decode_command_wordBytes] at hi
    cases hi
    exact step_command he

/-! ### The host's transactions while a unit is active -/

/-- STATUS is read in every state (44_host_commands.md R192). -/
theorem regRead_status (s : State) : regRead 1 s = { s with rdata := s.statusWord } := by
  rw [regRead, if_neg fun h => h.2.1 rfl]
  rfl

/-- A number above 13 reads 0 in every state (10_state.md R11, log 15). -/
theorem regRead_unnamed {n : Nat} (h : 13 < n) (s : State) : regRead n s = { s with rdata := 0 } := by
  rw [regRead, if_neg fun hb => Nat.not_le.2 h hb.2.2, regValue_unnamed (.inr h)]

theorem regRead_busy {n : Nat} {s : State} (hs : s.st = .busy) (h1 : n ≠ 1) (h2 : n ≤ 13) :
    regRead n s = { s with rdata := Config.portWord s.portDraws, portDraws := s.portDraws + 1 } := by
  rw [regRead, if_pos ⟨hs, h1, h2⟩]

theorem bufRead_busy {s : State} (hs : s.st = .busy) (x : MemId) (a : Word32) :
    bufRead x a s = { s with rdata := (Config.portByte s.portDraws).setWidth 32, portDraws := s.portDraws + 1 } := by
  rw [bufRead, if_pos hs]

theorem bufWrite_busy {s : State} (hs : s.st = .busy) (x : MemId) (a : Word32) (b : Byte) : bufWrite x a b s = s := by
  rw [bufWrite, if_pos hs]

/-- Every command is dropped in BUSY (44_host_commands.md R191). -/
theorem exec_command_busy {s : State} (hs : s.st = .busy) (w : Word32) : exec (commandInstr w) s = .next s := by
  obtain e | ⟨h, _⟩ | ⟨h, _⟩ | ⟨h, _⟩ | ⟨h, _⟩ | ⟨h, _⟩ | ⟨h, _⟩ := exec_command_cases w s
  case inl => exact e
  all_goals simp [hs] at h

/-- Every register write is dropped in BUSY, CMD included (44_host_commands.md R192). -/
theorem regWrite_busy {s : State} (hs : s.st = .busy) (n : Nat) (v : Word32) : regWrite n v s = .next s := by
  by_cases hn : n = 0
  · rw [regWrite, if_pos hn, exec_command_busy hs]
  · exact regWrite_dropped hn hs v

/-- Settles O45, transaction by transaction: in BUSY a write is dropped, and a read leaves all but the value returned and
the counter of the free values. -/
theorem busyRefusesHost : Obligations.BusyRefusesHost := by
  intro s e rest hs he hunit hreset
  rw [step_event he]
  have hs' : { s with events := rest }.st = .busy := hs
  cases e with
  | unitStep => exact absurd rfl hunit
  | reset => exact absurd rfl hreset
  | regRead n =>
    refine ⟨_, rfl, regRead_frame n _, ?status, ?free, ?unnamed, nofun, nofun, nofun⟩
    case status =>
      rintro ⟨⟩
      rw [regRead_status]
      exact ⟨rfl, rfl⟩
    case free =>
      rintro _ ⟨⟩ h1 h2
      rw [regRead_busy hs' h1 h2]
    case unnamed =>
      rintro _ ⟨⟩ h
      rw [regRead_unnamed h]
      exact ⟨rfl, rfl⟩
  | bufRead x a =>
    refine ⟨_, rfl, bufRead_frame x a _, nofun, nofun, nofun, ?_, nofun, nofun⟩
    rintro _ _ ⟨⟩
    rw [bufRead_busy hs']
  | regWrite n v =>
    exact ⟨_, regWrite_busy hs' n v, rfl, nofun, nofun, nofun, nofun, fun _ _ _ => ⟨rfl, rfl⟩, nofun⟩
  | bufWrite x a b =>
    exact ⟨_, congrArg Host.Outcome.next (bufWrite_busy hs' x a b), rfl, nofun, nofun, nofun, nofun, nofun,
      fun _ _ _ _ => ⟨rfl, rfl⟩⟩

/-! ### What the host has read

A unit neither looks at nor changes what the host's reads leave, operation by operation: every operation of a step commutes
with setting it. -/

/-- The state with another value returned by the host's last read and another counter of the values returned in BUSY. -/
def State.withPort (v : Word32) (n : Nat) (s : State) : State := { s with rdata := v, portDraws := n }

section
variable (v : Word32) (n : Nat)

theorem execCtlb_withPort (bits : Byte) (s : State) :
    execCtlb bits (s.withPort v n) = mapNext (State.withPort v n) (execCtlb bits s) := by
  simp only [execCtlb, apply_ite (mapNext _)]
  rfl

theorem execLit_withPort (data : List Byte) (s : State) :
    execLit data (s.withPort v n) = mapNext (State.withPort v n) (execLit data s) := by
  simp only [execLit, apply_ite (mapNext _)]
  rfl

theorem copyBack_withPort (w : BitVec 16) (off cnt len : Nat) (s : State) :
    copyBack w off cnt len (s.withPort v n) = mapNext (State.withPort v n) (copyBack w off cnt len s) := by
  simp only [copyBack, apply_ite (mapNext _)]
  rfl

theorem execRefS_withPort (off : BitVec 12) (c : BitVec 3) (s : State) :
    execRefS off c (s.withPort v n) = mapNext (State.withPort v n) (execRefS off c s) := by
  simp only [execRefS, apply_ite (mapNext _), ← copyBack_withPort]
  rfl

theorem execRefL_withPort (off : BitVec 12) (c : BitVec 3) (e : Byte) (s : State) :
    execRefL off c e (s.withPort v n) = mapNext (State.withPort v n) (execRefL off c e s) := by
  simp only [execRefL, apply_ite (mapNext _), ← copyBack_withPort]
  rfl

theorem packRuns_withPort (k : Nat) (s : State) :
    packRuns k (s.withPort v n) = (packRuns k s).withPort v n := by
  induction k generalizing s with
  | zero => rfl
  | succ k ih =>
    have hrun : packRun (s.withPort v n) = (packRun s).withPort v n := by
      simp only [packRun, apply_ite (State.withPort v n)]
      rfl
    rw [packRuns, packRuns, hrun, ih]

theorem execPkblk_withPort (s : State) :
    execPkblk (s.withPort v n) = mapNext (State.withPort v n) (execPkblk s) := by
  simp only [execPkblk, apply_ite (mapNext _), mapNext_next, ← packRuns_withPort]
  rfl

/-- A row instruction commutes: its test reads the sizes, and its meaning the memories and the row's registers. -/
theorem exec_row_withPort {i : Instr} (hi : i.space = .row) (s : State) :
    exec i (s.withPort v n) = mapNext (State.withPort v n) (exec i s) := by
  have hfault : rowFault (s.withPort v n) = rowFault s := rfl
  cases i with
  | rowRaw | rowVert | rowAvg =>
    simp only [exec, execRowRaw, execRowVert, execRowAvg, hfault]
    cases rowFault s <;> rfl
  | _ => simp [Instr.space] at hi

theorem execFwdRaw_withPort (s : State) :
    execFwdRaw (s.withPort v n) = mapNext (State.withPort v n) (execFwdRaw s) := by
  have hfault : filterFault (s.withPort v n) = filterFault s := rfl
  simp only [execFwdRaw, hfault]
  cases filterFault s <;> rfl

theorem execFwdVert_withPort (s : State) :
    execFwdVert (s.withPort v n) = mapNext (State.withPort v n) (execFwdVert s) := by
  have hfault : filterFault (s.withPort v n) = filterFault s := rfl
  simp only [execFwdVert, hfault, apply_ite (mapNext _)]
  cases filterFault s <;> rfl

theorem whenIdle_withPort (s t : State) :
    whenIdle (s.withPort v n) (t.withPort v n) = mapNext (State.withPort v n) (whenIdle s t) := by
  simp only [whenIdle, apply_ite (mapNext _)]
  rfl

theorem startDecode_withPort (s : State) : startDecode (s.withPort v n) = (startDecode s).withPort v n := by
  simp only [startDecode, apply_ite (State.withPort v n)]
  rfl

theorem startRecon_withPort (s : State) : startRecon (s.withPort v n) = (startRecon s).withPort v n := by
  simp only [startRecon, apply_ite (State.withPort v n)]
  rfl

theorem startFilter_withPort (s : State) : startFilter (s.withPort v n) = (startFilter s).withPort v n := by
  simp only [startFilter, apply_ite (State.withPort v n)]
  rfl

theorem startPack_withPort (s : State) : startPack (s.withPort v n) = (startPack s).withPort v n := by
  simp only [startPack, apply_ite (State.withPort v n)]
  rfl

theorem execClear_withPort (ign : BitVec 24) (s : State) :
    execClear ign (s.withPort v n) = mapNext (State.withPort v n) (execClear ign s) := by
  simp only [execClear, apply_ite (mapNext _)]
  rfl

/-- No instruction looks at what the host has read, and none changes it. -/
theorem exec_withPort (i : Instr) (s : State) :
    exec i (s.withPort v n) = mapNext (State.withPort v n) (exec i s) := by
  cases i with
  | ctlb bits => exact execCtlb_withPort v n bits s
  | lit data => exact execLit_withPort v n data s
  | refS off c => exact execRefS_withPort v n off c s
  | refL off c e => exact execRefL_withPort v n off c e s
  | rowRaw | rowVert | rowAvg => exact exec_row_withPort v n rfl s
  | fwdRaw => exact execFwdRaw_withPort v n s
  | fwdVert => exact execFwdVert_withPort v n s
  | pkblk => exact execPkblk_withPort v n s
  | nop ign => rfl
  | decode ign => simp only [exec, execDecode, startDecode_withPort, whenIdle_withPort]
  | recon ign => simp only [exec, execRecon, startRecon_withPort, whenIdle_withPort]
  | filter ign => simp only [exec, execFilter, startFilter_withPort, whenIdle_withPort]
  | pack ign => simp only [exec, execPack, startPack_withPort, whenIdle_withPort]
  | clear ign => exact execClear_withPort v n ign s
  | illegalCmd code ign => exact whenIdle_withPort v n s (raise .badCommand (commandWord code ign) .none s)

/-- The stream, CTL and the cursor are the same. -/
theorem sameStream_withPort (s : State) : SameStream s (s.withPort v n) := ⟨rfl, rfl, rfl, fun _ _ => rfl⟩

theorem runItem_withPort (sp : Space) (s : State) :
    runItem sp (s.withPort v n) = mapNext (State.withPort v n) (runItem sp s) := by
  rw [runItem, runItem, (sameStream_withPort v n s).fetchItem_eq]
  cases fetchItem sp s with
  | none => rfl
  | some i => exact exec_withPort v n i s

theorem fetchDispatch_withPort (s : State) :
    fetchDispatch (s.withPort v n) = mapNext (State.withPort v n) (fetchDispatch s) := by
  simp only [fetchDispatch, apply_ite (mapNext _), ← runItem_withPort]
  rfl

theorem runToken_withPort (r : Result) :
    runToken (mapNext (State.withPort v n) r) = mapNext (State.withPort v n) (runToken r) := by
  cases r with
  | next t =>
    simp only [mapNext_next, runToken, apply_ite (mapNext _), ← runItem_withPort]
    rfl
  | fault | refused => rfl

theorem preciseFault_withPort (s : State) (r : Result) :
    preciseFault (s.withPort v n) (mapNext (State.withPort v n) r) =
      mapNext (State.withPort v n) (preciseFault s r) := by
  cases r with
  | next t =>
    simp only [mapNext_next, preciseFault, apply_ite (mapNext _)]
    rfl
  | fault | refused => rfl

theorem tsdStep_withPort (s : State) :
    tsdStep (s.withPort v n) = mapNext (State.withPort v n) (tsdStep s) := by
  simp only [tsdStep, apply_ite (mapNext _), fetchDispatch_withPort, runToken_withPort, preciseFault_withPort]
  rfl

theorem rfrStep_withPort (s : State) :
    rfrStep (s.withPort v n) = mapNext (State.withPort v n) (rfrStep s) := by
  simp only [rfrStep, apply_ite (mapNext _), ← exec_withPort]
  rfl

theorem scoreRow_withPort (s : State) : scoreRow (s.withPort v n) = (scoreRow s).withPort v n := by
  simp only [scoreRow, apply_ite (State.withPort v n)]
  rfl

theorem fsfStep_withPort (s : State) :
    fsfStep (s.withPort v n) = mapNext (State.withPort v n) (fsfStep s) := by
  simp only [fsfStep, apply_ite (mapNext _), ← exec_withPort, scoreRow_withPort]
  rfl

/-- The working registers' free values do not depend on what the host has read (log 4). -/
theorem mapNext_releaseWorking_withPort (r : Result) :
    mapNext releaseWorking (mapNext (State.withPort v n) r) = mapNext (State.withPort v n) (mapNext releaseWorking r) := by
  cases r <;> rfl

/-- The unit's turn does the same whatever the host has read. -/
theorem unitStep_withPort (s : State) :
    unitStep (s.withPort v n) = mapNext (State.withPort v n) (unitStep s) := by
  by_cases hs : s.st = .busy
  case neg => rw [unitStep_inactive hs, unitStep_inactive (s := s.withPort v n) hs, mapNext_next]
  cases hu : s.unit with
  | none => rw [unitStep_none hu, unitStep_none (s := s.withPort v n) hu, mapNext_next]
  | tsd =>
    rw [unitStep_tsd hs hu, unitStep_tsd (s := s.withPort v n) hs hu, tsdStep_withPort, mapNext_releaseWorking_withPort]
  | rfr =>
    rw [unitStep_rfr hs hu, unitStep_rfr (s := s.withPort v n) hs hu, rfrStep_withPort, mapNext_releaseWorking_withPort]
  | fsf =>
    rw [unitStep_fsf hs hu, unitStep_fsf (s := s.withPort v n) hs hu, fsfStep_withPort, mapNext_releaseWorking_withPort]
  | tsp =>
    rw [unitStep_tsp hs hu, unitStep_tsp (s := s.withPort v n) hs hu, tspStep, exec_withPort,
      mapNext_releaseWorking_withPort]
    rfl

end

/-- Settles O46: in BUSY the host leaves the state but for what it has read, and the unit's step commutes with that. -/
theorem interleavingKeepsOutcome : Obligations.InterleavingKeepsOutcome := by
  intro s t e rest hs he hunit hreset hstep
  obtain ⟨w, hw, hframe, -⟩ := busyRefusesHost s e _ hs he hunit hreset
  have hev : w.events = .unitStep :: rest := by rw [hframe]
  have hport : { w with events := rest } = { s with events := rest }.withPort w.rdata w.portDraws := by
    rw [hframe]
    rfl
  have hturn : unitStep { s with events := rest } = .next t :=
    (step_event (s := { s with events := .unitStep :: rest }) rfl).symm.trans hstep
  have hnext : step w = .next (t.withPort w.rdata w.portDraws) :=
    calc step w = unitStep { w with events := rest } := step_event hev
      _ = mapNext (State.withPort w.rdata w.portDraws) (unitStep { s with events := rest }) := by
        rw [hport, unitStep_withPort]
      _ = .next (t.withPort w.rdata w.portDraws) := by rw [hturn, mapNext_next]
  exact ⟨_, runSteps_two hw hnext, rfl⟩

/-! ### The transitions of STATE -/

/-- A unit's answer stays in BUSY or ends the run, in DONE or in FAULT (44_host_commands.md R191). -/
theorem UnitAnswer.st_cases {s t : State} (h : UnitAnswer s t) : t.st = s.st ∨ t.st = .done ∨ t.st = .fault := by
  cases h with
  | token _ ht => rw [ht.frame]; exact .inl rfl
  | row _ ht => rw [ht.frame]; exact .inl rfl
  | filter _ ht => rw [ht.frame]; exact .inl rfl
  | block _ ht => rw [ht]; exact .inl rfl
  | tsdFault => exact .inr (.inr rfl)
  | tsdComplete | rfrComplete | fsfComplete | tspComplete => exact .inr (.inl rfl)

theorem unitStep_transition {s t : State} (h : unitStep s = .next t) (hne : t.st ≠ s.st) :
    s.st = .busy ∧ (t.st = .done ∨ t.st = .fault) := by
  obtain ⟨_, rfl⟩ | ⟨hs, u, rfl, hu⟩ := unitStep_answers h
  · exact absurd rfl hne
  · exact ⟨hs, hu.st_cases.resolve_left hne⟩

theorem startDecode_st (s : State) : (startDecode s).st = .busy ∨ (startDecode s).st = .fault := by
  obtain ⟨_, e⟩ | ⟨_, _, e⟩ := startDecode_cases s <;> simp [e]

theorem startRecon_st (s : State) : (startRecon s).st = .busy ∨ (startRecon s).st = .fault := by
  obtain ⟨_, e⟩ | ⟨_, _, e⟩ | ⟨_, _, _, _, e⟩ | ⟨_, _, _, _, e⟩ := startRecon_cases s <;> simp [e]

theorem startFilter_st (s : State) : (startFilter s).st = .busy ∨ (startFilter s).st = .fault := by
  obtain ⟨_, e⟩ | ⟨_, _, e⟩ | ⟨_, _, _, e⟩ := startFilter_cases s <;> simp [e]

theorem startPack_st (s : State) : (startPack s).st = .busy ∨ (startPack s).st = .fault := by
  obtain ⟨_, e⟩ | ⟨_, _, e⟩ := startPack_cases s <;> simp [e]

/-- The rows of R191 for a command word: what a write to CMD that changes STATE was. -/
theorem command_transition {w : Word32} {s t : State} (h : exec (commandInstr w) s = .next t) (hne : t.st ≠ s.st) :
    (s.st = .idle ∧ 1 ≤ w.toNat % 256 ∧ w.toNat % 256 ≤ 4 ∧ (t.st = .busy ∨ t.st = .fault)) ∨
    (s.st = .idle ∧ 6 ≤ w.toNat % 256 ∧ t.st = .fault) ∨
    ((s.st = .done ∨ s.st = .fault) ∧ w.toNat % 256 = 5 ∧ t.st = .idle) := by
  obtain e | ⟨hs, hc, e⟩ | ⟨hs, hc, e⟩ | ⟨hs, hc, e⟩ | ⟨hs, hc, e⟩ | ⟨hs, hc, e⟩ | ⟨hs, hc, e⟩ :=
      exec_command_cases w s <;>
    rw [e] at h <;> cases h
  · exact absurd rfl hne
  · exact .inl ⟨hs, by omega, by omega, startDecode_st s⟩
  · exact .inl ⟨hs, by omega, by omega, startRecon_st s⟩
  · exact .inl ⟨hs, by omega, by omega, startFilter_st s⟩
  · exact .inl ⟨hs, by omega, by omega, startPack_st s⟩
  · exact .inr (.inr ⟨hs, hc, rfl⟩)
  · exact .inr (.inl ⟨hs, hc, rfl⟩)

/-- A write to a register other than CMD leaves STATE. -/
theorem regWrite_st {n : Nat} {v : Word32} {s t : State} (hn : n ≠ 0) (h : regWrite n v s = .next t) : t.st = s.st := by
  by_cases hs : s.st = .busy
  · rw [regWrite_dropped hn hs] at h
    cases h
    rfl
  · rw [regWrite_accepted hn hs] at h
    cases h
    rw [setRegister_frame]

/-- Settles O53: by the event the step takes; of the host's transactions only Reset and a command change STATE. -/
theorem stateTransitions : Obligations.StateTransitions := by
  intro s t h hne
  cases he : s.events with
  | nil =>
    rw [step_unit he] at h
    obtain ⟨hs, ht⟩ := unitStep_transition h hne
    exact .inr (.inr (.inr (.inl ⟨hs, .inl rfl, ht⟩)))
  | cons e rest =>
    rw [step_event he] at h
    cases e with
    | unitStep =>
      obtain ⟨hs, ht⟩ := unitStep_transition h hne
      exact .inr (.inr (.inr (.inl ⟨hs, .inr ⟨rest, rfl⟩, ht⟩)))
    | regRead n =>
      cases h
      exact absurd (by rw [regRead_frame]) hne
    | regWrite n v =>
      by_cases hn : n = 0
      case neg => exact absurd (regWrite_st hn h) hne
      subst hn
      obtain ⟨hs, h1, h4, ht⟩ | ⟨hs, h6, ht⟩ | ⟨hs, h5, ht⟩ := command_transition h hne
      · exact .inr (.inl ⟨hs, v, rest, rfl, h1, h4, ht⟩)
      · exact .inr (.inr (.inl ⟨hs, v, rest, rfl, h6, ht⟩))
      · exact .inr (.inr (.inr (.inr ⟨hs, v, rest, rfl, h5, ht⟩)))
    | bufRead x a =>
      cases h
      exact absurd (by rw [bufRead_frame]) hne
    | bufWrite x a b =>
      cases h
      exact absurd (by rw [bufWrite_frame]) hne
    | reset =>
      cases h
      exact .inl ⟨rest, rfl, rfl⟩

end Sys2Proof.Machine

/-! PROOFS. Exceptions (60_exceptions.md): a faulting TSD step is precise (R214, R216); the interrupt output (R218). -/

namespace Sys2Proof.Machine

/-! ### The faults of a TSD step -/

/-- The codes of TruncatedStream, BadReference and OutputOverrun (60_exceptions.md R211). -/
theorem tokenFault_code {f : FaultCode} (h : tokenFault f) : f.code = 1 ∨ f.code = 2 ∨ f.code = 3 := by
  obtain rfl | rfl | rfl := h
  · exact .inl rfl
  · exact .inr (.inl rfl)
  · exact .inr (.inr rfl)

/-- Settles O16: of the three answers of a TSD step only `tsdFaulted` is in FAULT; the completion is in DONE, and a token
that succeeds stays in BUSY. -/
theorem tokenFaultsPrecise : Obligations.TokenFaultsPrecise := by
  intro s t hev hst hu hstep ht
  rw [step_unit hev, unitStep_tsd hst hu] at hstep
  obtain ⟨u, e, rfl⟩ := mapNext_eq_next.1 hstep
  obtain ⟨rfl, _⟩ | ⟨f, hf, rfl⟩ | hdone := tsdStep_answers hst e
  · cases ht
  · exact ⟨rfl, tokenFault_code hf⟩
  · have hbusy : (releaseWorking u).st = .busy := by rw [hdone.frame]; exact hst
    cases hbusy.symm.trans ht

/-! ### The interrupt output -/

/-- Settles O52: the one bit of IEN is set exactly when its value is 1. -/
theorem interruptLevel : Obligations.InterruptLevel := by
  intro s
  have hien : s.ien = 1#1 ↔ s.ien.toNat = 1 := BitVec.toNat_inj.symm
  simp only [State.irq, Bool.and_eq_true, Bool.or_eq_true, beq_iff_eq, decide_eq_true_iff, hien]

end Sys2Proof.Machine
